-- ==== Sys2Proof/Word.lean ====
section
/-! DEFINITION. The word types of the block (00_scope.md R9). -/

namespace Sys2Proof

/-- A 32-bit command word, response word or register value (30_encoding.md R81, R86). -/
abbrev Word := BitVec 32

/-- An 8-bit value: a scancode, a payload byte, a wire byte, or an Int8 held in two's complement. -/
abbrev Byte := BitVec 8

/-- A 16-bit bus command unit (30_encoding.md R94). -/
abbrev CmdUnit := BitVec 16

end Sys2Proof
end

