-- ==== Sys2Proof/Syntax.lean ====
section
/-! DEFINITION. The commands of the block: one constructor per row of spec/opcode_table.json. -/

namespace Sys2Proof

/-- The 6-byte pressed-key array of a keyboard report (30_encoding.md R92). -/
structure Keys where
  k0 : Byte
  k1 : Byte
  k2 : Byte
  k3 : Byte
  k4 : Byte
  k5 : Byte
deriving DecidableEq, Repr

/-- The fifteen commands (30_encoding.md R82). -/
inductive Instr where
  /-- NOP (45_control.md R250) -/
  | nop
  /-- RDREG: A is the register index (45_control.md R251) -/
  | rdreg (index : Byte)
  /-- PIN_ASSERT: A is the pin id, checked by the command's rule (40_pin_driver.md R113) -/
  | pinAssert (pin : Byte)
  /-- PIN_RELEASE (40_pin_driver.md R114) -/
  | pinRelease (pin : Byte)
  /-- PIN_SAMPLE (40_pin_driver.md R115) -/
  | pinSample (pin : Byte)
  /-- KB_INIT (42_keyboard.md R174) -/
  | kbInit
  /-- KB_SEND: A is the scancode, B[0] is 1 for released (42_keyboard.md R172) -/
  | kbSend (code : Byte) (released : Bool)
  /-- KB_ASSERT_RESET (42_keyboard.md R176) -/
  | kbAssertReset
  /-- KB_RELEASE_RESET (42_keyboard.md R177) -/
  | kbReleaseReset
  /-- KB_SERVICE (42_keyboard.md R175) -/
  | kbService
  /-- KB_IS_CAPS (42_keyboard.md R178) -/
  | kbIsCaps
  /-- KB_REPORT: payload bytes 0, 1 and 2 to 7 (30_encoding.md R92, 42_keyboard.md R185) -/
  | kbReport (mod : Byte) (res : Byte) (keys : Keys)
  /-- MS_REPORT: A[2:0], B and C, the last two in two's complement (41_quadrature.md R132) -/
  | msReport (buttons : BitVec 3) (dx : Byte) (dy : Byte)
  /-- BQ_INIT (43_bus_queue.md R224) -/
  | bqInit
  /-- BQ_ENQUEUE: B is the read length, the payload is the write bytes and A their number (43_bus_queue.md R207) -/
  | bqEnqueue (r : Byte) (bytes : List Byte)
deriving DecidableEq, Repr

/-- The pseudo-instructions of 30_encoding.md R98. -/
inductive Pseudo where
  | kbPress (code : Byte)
  | kbRelease (code : Byte)
  | bqWrite (bytes : List Byte)
  | bqRead (n : Byte)
  | msButtons (b : BitVec 3)
deriving DecidableEq, Repr

end Sys2Proof
end

