-- ==== Sys2Proof/WellFormed.lean ====
section
/-! DEFINITION. Which terms of the syntax an encoding can hold. -/

namespace Sys2Proof

/-- A command that its encoding can hold. The operand types carry every other bound: the write bytes
of BQ_ENQUEUE are the one operand with a check, their number being the byte A (30_encoding.md R93). -/
def Instr.wellFormed : Instr → Bool
  | .nop => true
  | .rdreg _ => true
  | .pinAssert _ => true
  | .pinRelease _ => true
  | .pinSample _ => true
  | .kbInit => true
  | .kbSend _ _ => true
  | .kbAssertReset => true
  | .kbReleaseReset => true
  | .kbService => true
  | .kbIsCaps => true
  | .kbReport _ _ _ => true
  | .msReport _ _ _ => true
  | .bqInit => true
  | .bqEnqueue _ bytes => decide (bytes.length ≤ 255)

/-- A pseudo-instruction as 30_encoding.md R98 restricts it: BQ_WRITE has at least one byte and BQ_READ n >= 1. -/
def Pseudo.wellFormed : Pseudo → Bool
  | .kbPress _ => true
  | .kbRelease _ => true
  | .bqWrite bytes => decide (1 ≤ bytes.length) && decide (bytes.length ≤ 255)
  | .bqRead n => decide (n ≠ 0)
  | .msButtons _ => true

end Sys2Proof
end

