-- ==== Sys2Proof/Decode.lean ====
section
/-! DEFINITION. From the words of the command stream to commands and back (30_encoding.md). -/

namespace Sys2Proof

/-! ## Fields of a header word (R81) -/

def fieldOp (w : Word) : Byte := w.extractLsb' 24 8
def fieldA (w : Word) : Byte := w.extractLsb' 16 8
def fieldB (w : Word) : Byte := w.extractLsb' 8 8
def fieldC (w : Word) : Byte := w.extractLsb' 0 8

/-- The word with these four fields (R81). -/
def headerWord (op a b c : Byte) : Word := op ++ a ++ b ++ c

/-! ## Opcodes (R82) -/

/-- The operation a header word's OP field names. -/
inductive Op where
  | nop | rdreg
  | pinAssert | pinRelease | pinSample
  | kbInit | kbSend | kbAssertReset | kbReleaseReset | kbService | kbIsCaps | kbReport
  | msReport
  | bqInit | bqEnqueue
deriving DecidableEq, Repr

/-- The opcode map of R82. -/
def Op.code : Op → Byte
  | .nop => 0x01
  | .rdreg => 0x02
  | .pinAssert => 0x10
  | .pinRelease => 0x11
  | .pinSample => 0x12
  | .kbInit => 0x20
  | .kbSend => 0x21
  | .kbAssertReset => 0x22
  | .kbReleaseReset => 0x23
  | .kbService => 0x24
  | .kbIsCaps => 0x25
  | .kbReport => 0x26
  | .msReport => 0x30
  | .bqInit => 0x40
  | .bqEnqueue => 0x41

/-- Every assigned operation, in the order of R82. -/
def Op.all : List Op :=
  [.nop, .rdreg, .pinAssert, .pinRelease, .pinSample, .kbInit, .kbSend, .kbAssertReset, .kbReleaseReset,
   .kbService, .kbIsCaps, .kbReport, .msReport, .bqInit, .bqEnqueue]

/-- The operation an OP value is assigned to; every other value is reserved (R82, R83). -/
def opOf (op : Byte) : Option Op := Op.all.find? (fun o => o.code == op)

/-- Every operand bit the command does not use is 0 (R83; the unused bits are those of R87 to R93). -/
def reservedClear (o : Op) (a b c : Byte) : Bool :=
  match o with
  | .rdreg | .pinAssert | .pinRelease | .pinSample => b == 0 && c == 0
  | .kbSend => (b &&& 0xFE) == 0 && c == 0
  | .msReport => (a &&& 0xF8) == 0
  | .bqEnqueue => c == 0
  | .nop | .kbInit | .kbAssertReset | .kbReleaseReset | .kbService | .kbIsCaps | .kbReport | .bqInit =>
    a == 0 && b == 0 && c == 0

/-- The payload words that follow the header word (R84). -/
def payloadWords (o : Op) (a : Byte) : Nat :=
  match o with
  | .kbReport => 2
  | .bqEnqueue => (a.toNat + 3) / 4
  | .nop | .rdreg | .pinAssert | .pinRelease | .pinSample | .kbInit | .kbSend | .kbAssertReset | .kbReleaseReset
  | .kbService | .kbIsCaps | .msReport | .bqInit => 0

/-! ## Payload bytes (R85, 20_memory.md R75) -/

/-- Payload byte `k`: word `k div 4`, bits `[8*(k mod 4)+7 : 8*(k mod 4)]`. -/
def payloadByte (pay : List Word) (k : Nat) : Byte := (pay.getD (k / 4) 0).extractLsb' (8 * (k % 4)) 8

/-- The first `n` payload bytes; the padding after them is dropped (log 25). -/
def payloadBytes (pay : List Word) (n : Nat) : List Byte := (List.range n).map (payloadByte pay)

/-- One payload word from its four bytes, byte 0 lowest. -/
def packWord (b0 b1 b2 b3 : Byte) : Word := b3 ++ b2 ++ b1 ++ b0

/-- The payload words that hold these bytes, padded with zero bytes. -/
def packBytes : List Byte → List Word
  | [] => []
  | [b0] => [packWord b0 0 0 0]
  | [b0, b1] => [packWord b0 b1 0 0]
  | [b0, b1, b2] => [packWord b0 b1 b2 0]
  | b0 :: b1 :: b2 :: b3 :: rest => packWord b0 b1 b2 b3 :: packBytes rest

/-! ## The decoder -/

/-- Why the words at the command pointer are no command. -/
inductive Reject where
  /-- no word is there yet: PRI holds (20_memory.md R71) -/
  | absent
  /-- the header is legal but its payload is not all there yet: PRI holds (R84) -/
  | payloadAbsent (need : Nat) (have_ : Nat)
  /-- OP is unassigned: ILLEGAL (R83) -/
  | unassigned (w : Word)
  /-- a reserved bit is 1: ILLEGAL (R83) -/
  | reservedBit (w : Word)
deriving DecidableEq, Repr

/-- The command with these fields and payload (R87 to R93); read only when the header is legal. -/
def buildInstr (o : Op) (a b c : Byte) (pay : List Word) : Instr :=
  match o with
  | .nop => .nop
  | .rdreg => .rdreg a
  | .pinAssert => .pinAssert a
  | .pinRelease => .pinRelease a
  | .pinSample => .pinSample a
  | .kbInit => .kbInit
  | .kbSend => .kbSend a (b.getLsbD 0)
  | .kbAssertReset => .kbAssertReset
  | .kbReleaseReset => .kbReleaseReset
  | .kbService => .kbService
  | .kbIsCaps => .kbIsCaps
  | .kbReport =>
    .kbReport (payloadByte pay 0) (payloadByte pay 1)
      ⟨payloadByte pay 2, payloadByte pay 3, payloadByte pay 4, payloadByte pay 5, payloadByte pay 6, payloadByte pay 7⟩
  | .msReport => .msReport (a.extractLsb' 0 3) b c
  | .bqInit => .bqInit
  | .bqEnqueue => .bqEnqueue b (payloadBytes pay a.toNat)

/-- The command at the head of a list of stream words (R83, R84). Total; it rejects by name. -/
def decode : List Word → Except Reject Instr
  | [] => .error .absent
  | w :: pay =>
    match opOf (fieldOp w) with
    | none => .error (.unassigned w)
    | some o =>
      if reservedClear o (fieldA w) (fieldB w) (fieldC w) then
        if pay.length < payloadWords o (fieldA w) then
          .error (.payloadAbsent (payloadWords o (fieldA w)) pay.length)
        else .ok (buildInstr o (fieldA w) (fieldB w) (fieldC w) pay)
      else .error (.reservedBit w)

/-- IsIllegal of R83: the header word is no command's. -/
def isIllegal (w : Word) : Bool :=
  match opOf (fieldOp w) with
  | none => true
  | some o => !reservedClear o (fieldA w) (fieldB w) (fieldC w)

/-! ## The encoder, from the same tables (R82, R87 to R93) -/

/-- The operation of a command. -/
def Instr.op : Instr → Op
  | .nop => .nop
  | .rdreg _ => .rdreg
  | .pinAssert _ => .pinAssert
  | .pinRelease _ => .pinRelease
  | .pinSample _ => .pinSample
  | .kbInit => .kbInit
  | .kbSend _ _ => .kbSend
  | .kbAssertReset => .kbAssertReset
  | .kbReleaseReset => .kbReleaseReset
  | .kbService => .kbService
  | .kbIsCaps => .kbIsCaps
  | .kbReport _ _ _ => .kbReport
  | .msReport _ _ _ => .msReport
  | .bqInit => .bqInit
  | .bqEnqueue _ _ => .bqEnqueue

/-- B of KB_SEND: bit 0 is the released flag (R90). -/
def releasedByte (released : Bool) : Byte := if released then 1 else 0

/-- The header word of a command. -/
def Instr.header : Instr → Word
  | .nop => headerWord 0x01 0 0 0
  | .rdreg i => headerWord 0x02 i 0 0
  | .pinAssert p => headerWord 0x10 p 0 0
  | .pinRelease p => headerWord 0x11 p 0 0
  | .pinSample p => headerWord 0x12 p 0 0
  | .kbInit => headerWord 0x20 0 0 0
  | .kbSend code released => headerWord 0x21 code (releasedByte released) 0
  | .kbAssertReset => headerWord 0x22 0 0 0
  | .kbReleaseReset => headerWord 0x23 0 0 0
  | .kbService => headerWord 0x24 0 0 0
  | .kbIsCaps => headerWord 0x25 0 0 0
  | .kbReport _ _ _ => headerWord 0x26 0 0 0
  | .msReport buttons dx dy => headerWord 0x30 (buttons.setWidth 8) dx dy
  | .bqInit => headerWord 0x40 0 0 0
  | .bqEnqueue r bytes => headerWord 0x41 (BitVec.ofNat 8 bytes.length) r 0

/-- The payload words of a command; the bytes of padding are 0 (R85). -/
def Instr.payload : Instr → List Word
  | .kbReport mod res k => packBytes [mod, res, k.k0, k.k1, k.k2, k.k3, k.k4, k.k5]
  | .bqEnqueue _ bytes => packBytes bytes
  | .nop | .rdreg _ | .pinAssert _ | .pinRelease _ | .pinSample _ | .kbInit | .kbSend _ _ | .kbAssertReset
  | .kbReleaseReset | .kbService | .kbIsCaps | .msReport _ _ _ | .bqInit => []

/-- The words of a command. -/
def encode (i : Instr) : List Word := i.header :: i.payload

/-- The length of a command in words, 1 + P (R84). -/
def Instr.words : Instr → Nat
  | .kbReport _ _ _ => 3
  | .bqEnqueue _ bytes => 1 + (bytes.length + 3) / 4
  | .nop | .rdreg _ | .pinAssert _ | .pinRelease _ | .pinSample _ | .kbInit | .kbSend _ _ | .kbAssertReset
  | .kbReleaseReset | .kbService | .kbIsCaps | .msReport _ _ _ | .bqInit => 1

/-- The expansions of R98. -/
def Pseudo.expand : Pseudo → Instr
  | .kbPress code => .kbSend code false
  | .kbRelease code => .kbSend code true
  | .bqWrite bytes => .bqEnqueue 0 bytes
  | .bqRead n => .bqEnqueue n []
  | .msButtons b => .msReport b 0 0

/-! ## The host's view of an instruction as one number -/

/-- The longest command has 1 + 64 words (BQ_ENQUEUE with w = 255, R84). -/
def longestInstr : Nat := 65

/-- The words of an instruction whose bits are `w`, bit 0 the least significant bit of the first word; bits from
`nbits` up are 0. -/
def tableWords (nbits w : Nat) : List Word :=
  (List.range longestInstr).map (fun k => BitVec.ofNat 32 ((w % 2 ^ nbits) >>> (32 * k)))

/-- The instruction the decoder reads from an instruction whose bits are `w`. -/
def decodeTableWord (nbits w : Nat) : Option Instr :=
  match decode (tableWords nbits w) with
  | .ok i => some i
  | .error _ => none

end Sys2Proof
end

