-- ==== Sys2Proof/Config.lean ====
section
/-! DEFINITION. The parameters of 00_scope.md R6 and R7, and the values the spec leaves free. -/

namespace Sys2Proof

/-! ## Parameters whose values the source gives (R6). Durations are microseconds. -/

def Config.tKbSetup : Nat := 20
def Config.tKbClkLow : Nat := 20
def Config.tKbGap : Nat := 50
def Config.tKbEot : Nat := 5000
def Config.tKbSettle : Nat := 1000000
def Config.tKbAnnounceGap : Nat := 200000
def Config.tEncStep : Nat := 300
def Config.recoveryMaxCycles : Nat := 9

/-! ## OPEN parameters of R7 (log 5): no value is known, so nothing can be proved of one. -/

/-- MAX_XFER is a positive integer: this many command units and one more. -/
opaque Config.maxXferPred : Nat
/-- The mapped entries of USB2SC; every usage without an entry maps to SC_UNKNOWN (R7). -/
opaque Config.usb2scTable : List (Byte × Byte)
/-- T_RECOVERY_HALF, a whole number of microseconds (R7 gives no number type: the model's choice, log 5). -/
opaque Config.tRecoveryHalf : Nat
/-- BUS_CLK_HZ, a whole number of hertz (R7 gives no number type: the model's choice, log 5). -/
opaque Config.busClkHz : Nat
/-- BUS_TARGET_ADDR, a natural number of no width (R7 gives neither type nor width: the model's choice, log 5). -/
opaque Config.busTargetAddr : Nat
/-- TIMING_TOLERANCE, the upper bound on each wait: no rule of the model reads it (log 18). -/
opaque Config.timingTolerance : Nat
/-- PIN_GPIO restricted to pin ids 0..11: injective because it is a permutation. No rule reads it (log 5). -/
opaque Config.pinGpio : Equiv.Perm Nat

/-! ## Free values -/

/-- The external level of line `p` at reset: `true` is HIGH (40_pin_driver.md R112, log 6). -/
opaque Config.externalHigh : Nat → Bool
/-- The `n`-th draw of a flag that takes any value (43_bus_queue.md R214, log 7). -/
opaque Config.freeFlag : Nat → Bool
/-- The contents of a byte of owned storage that nothing has written (20_memory.md R73, log 8). -/
opaque Config.freeByte : Nat → Byte

/-! ## The parameter set of a run -/

/-- CAPACITY_POLICY (R7, 43_bus_queue.md R208, R211). -/
inductive CapacityPolicy where
  | haltAtDispatch
  | rejectAtEnqueue
deriving DecidableEq, Repr

/-- The parameters of R6 and R7 that a rule of the block reads and that may differ between runs. -/
structure Params where
  /-- ENC_DIVISOR -/
  encDivisor : Nat
  /-- SC_UNKNOWN, the sentinel -/
  scUnknown : Byte
  scCapslock : Byte
  scCtrl : Byte
  scLspecial : Byte
  scRspecial : Byte
  scPowerup : Byte
  scPowerdown : Byte
  /-- MOD_SC[0..7] -/
  modSc : Vector Byte 8
  /-- the mapped entries of USB2SC -/
  usb2scTable : List (Byte × Byte)
  /-- KDAT_ACTIVE_LOW -/
  kdatActiveLow : Bool
  /-- MAX_XFER, in command units -/
  maxXfer : Nat
  capacityPolicy : CapacityPolicy
  /-- QMAX; `none` is unbounded -/
  qmax : Option Nat
  /-- T_RECOVERY_HALF, in whole microseconds (log 5) -/
  tRecoveryHalf : Nat
  /-- BUS_CLK_HZ, in whole hertz (log 5) -/
  busClkHz : Nat
  /-- BUS_TARGET_ADDR, a natural number of no width (log 5) -/
  busTargetAddr : Nat
deriving DecidableEq, Repr

/-- This hardware's parameters: the values of R6 and R7, the OPEN ones opaque (log 5).
The scancodes and MOD_SC are the spec's defaults, which it marks as general knowledge (log 20). -/
def Config.params : Params where
  encDivisor := 2
  scUnknown := 0xFF
  scCapslock := 0x62
  scCtrl := 0x63
  scLspecial := 0x66
  scRspecial := 0x67
  scPowerup := 0xFD
  scPowerdown := 0xFE
  modSc := #v[0x63, 0x60, 0x64, 0x66, 0x63, 0x61, 0x65, 0x67]
  usb2scTable := Config.usb2scTable
  kdatActiveLow := true
  maxXfer := Config.maxXferPred + 1
  capacityPolicy := .haltAtDispatch
  qmax := none
  tRecoveryHalf := Config.tRecoveryHalf
  busClkHz := Config.busClkHz
  busTargetAddr := Config.busTargetAddr

end Sys2Proof
end

