-- ==== Sys2Proof/Machine/State.lean ====
section
/-! DEFINITION. The state of the block (10_state.md), as plain data, and its value at reset. -/

namespace Sys2Proof.Machine

/-! ## Names -/

/-- The twelve pins of 10_state.md R21, in the order of their ids 0 to 11. -/
inductive Pin where
  | kclk | kdat | krst | mxa | mxq | mya | myq | mb1 | mb2 | mb3 | scl | sda
deriving DecidableEq, Repr

/-- The two pin-driver states (10_state.md R22). -/
inductive Drive where
  | asserted
  | released
deriving DecidableEq, Repr

/-- A line level (40_pin_driver.md R112). -/
inductive Level where
  | low
  | high
deriving DecidableEq, Repr

/-- Who controls a bus pin (10_state.md R23). -/
inductive PinFunc where
  | gpio
  | busctrl
deriving DecidableEq, Repr

/-- The agents of 00_scope.md R5 that emit events; ENV emits none. -/
inductive Agent where
  | pri
  | isr
  | enc
deriving DecidableEq, Repr

/-- The two execution contexts (60_exceptions.md R273); ISR runs on PRI's. -/
inductive Context where
  | pri
  | enc
deriving DecidableEq, Repr

/-- The two burst-transfer channels (10_state.md R42). -/
inductive Channel where
  | tx
  | rx
deriving DecidableEq, Repr

/-- The encoder's FSM states, codes 0 to 4 (10_state.md R31). -/
inductive EncState where
  | clr
  | takex
  | takey
  | run
  | check
deriving DecidableEq, Repr

/-- The two axes of the encoder. -/
inductive Axis where
  | x
  | y
deriving DecidableEq, Repr

/-! ## Trace events (00_scope.md R12) -/

/-- LOG kinds with their info (60_exceptions.md R263). -/
inductive LogKind where
  | scRefused (code : Byte)
  | busFault (abortF : Bool) (stopF : Bool)
  | capacity (n : Nat)
  | busStuck
  | recoveryFailed
  | spuriousIrq
  | badCmd (word : Word)
deriving DecidableEq, Repr

/-- The events of R12. -/
inductive Event where
  | pin (p : Pin) (d : Drive)
  | wait (ctx : Context) (us : Nat)
  | resp (v : Word)
  | frame (w : Byte)
  | busCfg (clkHz : Nat) (addr : Nat)
  | dmaStart (ch : Channel) (n : Nat)
  | dmaAbort (ch : Channel)
  | busStart (units : List CmdUnit) (r : Nat)
  | log (k : LogKind)
  | halt
deriving DecidableEq, Repr

/-- An event with the agent that emitted it. -/
structure TraceEntry where
  agent : Agent
  event : Event
deriving DecidableEq, Repr

/-! ## The environment's steps and the schedule -/

/-- One step of ENV (30_encoding.md R99). -/
inductive EnvEvent where
  /-- the next word of the command stream becomes available (20_memory.md R71) -/
  | word (w : Word)
  /-- the bus controller raises these raw status bits (43_bus_queue.md R213) -/
  | status (abort : Bool) (stop : Bool) (other : Bool)
  /-- the TX channel ends (44_transfer_engine.md R243) -/
  | endTx
  /-- the RX channel ends, having delivered these bytes (R243) -/
  | endRx (bytes : List Byte)
  /-- the external level of a line changes (40_pin_driver.md R112) -/
  | level (p : Pin) (l : Level)
  /-- the block's reset input (70_reset_and_hazards.md R290) -/
  | reset
deriving DecidableEq, Repr

/-- One turn of the schedule (log 1): `main` lets PRI or ISR take its next atomic step, `enc` is one step of
ENC and `env` one step of ENV. -/
inductive Turn where
  | main
  | enc
  | env (e : EnvEvent)
deriving DecidableEq, Repr

/-! ## The parts of the record S -/

/-- 10_state.md R22, R23. -/
structure Pins where
  drive : Vector Drive 12
  funcScl : PinFunc
  funcSda : PinFunc
  pullScl : Bool
  pullSda : Bool
deriving DecidableEq, Repr

/-- 10_state.md R24 to R28. -/
structure Kb where
  caps : Bool
  ctrl : Bool
  lsp : Bool
  rsp : Bool
  rst : Bool
  initDone : Bool
  lastFrame : Byte
  frameCount : BitVec 32
deriving DecidableEq, Repr

/-- The previous keyboard report (10_state.md R29). -/
structure Fe where
  prevMod : Byte
  prevKeys : Keys
deriving DecidableEq, Repr

/-- The Motion Vector (10_state.md R30); `dx` and `dy` are Int8 in two's complement (log 16). -/
structure Mv where
  dx : Byte
  dy : Byte
  flag : Bool
deriving DecidableEq, Repr

/-- The encoder (10_state.md R31 to R33). -/
structure Enc where
  state : EncState
  remx : Byte
  remy : Byte
  phx : BitVec 2
  phy : BitVec 2
deriving DecidableEq, Repr

/-- A transaction (10_state.md R34, 43_bus_queue.md R202); `w` is the length of `wdata` (log 16), and a buffer
is named by its handle. -/
structure Txn where
  wdata : List Byte
  r : Byte
  wbuf : Option Nat
  rbuf : Option Nat
deriving DecidableEq, Repr

/-- 10_state.md R34 to R39. -/
structure Bq where
  queue : List Txn
  depth : BitVec 32
  ready : Bool
  abortF : Bool
  stopF : Bool
  readingF : Bool
  writingF : Bool
  inflight : Bool
  cmdbuf : List CmdUnit
  dispatchCount : BitVec 32
  faultCount : BitVec 32
deriving DecidableEq, Repr

/-- The bus controller's raw status and the interrupt enable (10_state.md R40, R41). -/
structure Bc where
  stAbort : Bool
  stStop : Bool
  stOther : Bool
  irqEn : Bool
deriving DecidableEq, Repr

/-- Which way a channel moves data (44_transfer_engine.md R241). -/
inductive Direction where
  | memoryToPort
  | portToMemory
deriving DecidableEq, Repr

/-- What paces a channel (44_transfer_engine.md R241). -/
inductive Trigger where
  | transmitRequest
  | receiveRequest
deriving DecidableEq, Repr

/-- What DmaStart programs into a channel (44_transfer_engine.md R240, R241). -/
structure ChanSetup where
  direction : Direction
  elementBits : Nat
  trigger : Trigger
  /-- the memory address moves on by one element after each -/
  memoryIncrements : Bool
  /-- the port address moves on after each element -/
  portIncrements : Bool
deriving DecidableEq, Repr

/-- One burst-transfer channel (10_state.md R42); `setup` and `buf` are what was last programmed (log 24). -/
structure Chan where
  busy : Bool
  len : BitVec 16
  setup : Option ChanSetup
  /-- the owned buffer it delivers into; TX reads `bq.cmdbuf` and has none -/
  buf : Option Nat
deriving DecidableEq, Repr

/-- The burst-transfer engine (10_state.md R42). -/
structure Dma where
  tx : Chan
  rx : Chan
deriving DecidableEq, Repr

/-- A live owned buffer: its handle and its size (20_memory.md R73). -/
structure Buf where
  handle : Nat
  size : Nat
deriving DecidableEq, Repr

/-- Owned storage (20_memory.md R73, log 8): the live buffers, oldest first; the bytes written into them, by
address, addresses strictly rising; the next fresh handle. -/
structure Owned where
  live : List Buf
  cells : List Host.Cell
  next : Nat
deriving DecidableEq, Repr

/-- The command interface (10_state.md R45, 20_memory.md R71): `stream` is the words made available so far. -/
structure Cmd where
  cp : Nat
  resp : List Word
  stream : List Word
deriving DecidableEq, Repr

/-- The whole state: the record S of 10_state.md, the spec's other data (parameters, stream, owned storage, external
levels, trace) and the model's own fields `draws`, `tape` and `cut`. -/
structure State where
  /-- the parameters, fixed for a run (log 4) -/
  cfg : Params
  pins : Pins
  kb : Kb
  fe : Fe
  mv : Mv
  enc : Enc
  bq : Bq
  bc : Bc
  dma : Dma
  /-- S.irq.masked (10_state.md R43) -/
  masked : Bool
  /-- S.fault (10_state.md R44); S.halted is bit 31 of it -/
  fault : BitVec 32
  cmd : Cmd
  owned : Owned
  /-- the external level of each line (log 6) -/
  ext : Vector Level 12
  /-- events so far, oldest first (log 27) -/
  trace : List TraceEntry
  /-- free flag values drawn so far (log 7) -/
  draws : Nat
  /-- the schedule still to come (log 1) -/
  tape : List Turn
  /-- a reset has cut off the command PRI was running (log 13); false between steps -/
  cut : Bool
deriving DecidableEq, Repr

/-! ## Why a step stops -/

/-- Outcomes that stop the machine. -/
inductive Fault where
  /-- Raised by `step` alone: the block is halted (43_bus_queue.md R212) and the schedule holds no turn for any other
  agent. Safe: the spec gives PRI and ISR no step here and owes ENC none (41_quadrature.md R144, log 12). -/
  | capacityHalt
deriving DecidableEq, Repr

/-- Outcomes in which the model gives no step. -/
inductive Refusal where
  /-- Raised by an arm of `exec` that has no meaning yet; no arm is left so. Safe. -/
  | notModelled (mnemonic : String)
  /-- Raised by `step` alone: the parameter set breaks a constraint, and 00_scope.md R8 says a model then refuses to
  run (log 19). Safe. -/
  | illegalParameters
deriving DecidableEq, Repr

/-! ## Reset (10_state.md R60) -/

/-- A channel at reset: idle, length 0, nothing programmed. -/
def Chan.reset : Chan := { busy := false, len := 0, setup := none, buf := none }

/-- Every field of R60 at its reset value, over the parts that reset leaves to ENV and to the run (log 13):
the parameters, the external levels, the trace, the count of draws and the schedule. -/
def State.resetOver (cfg : Params) (ext : Vector Level 12) (trace : List TraceEntry) (draws : Nat) (tape : List Turn)
    (cut : Bool) : State where
  cfg := cfg
  pins := { drive := Vector.replicate 12 .released, funcScl := .gpio, funcSda := .gpio, pullScl := false,
            pullSda := false }
  kb := { caps := false, ctrl := false, lsp := false, rsp := false, rst := false, initDone := false, lastFrame := 0,
          frameCount := 0 }
  fe := { prevMod := 0, prevKeys := ⟨0, 0, 0, 0, 0, 0⟩ }
  mv := { dx := 0, dy := 0, flag := false }
  enc := { state := .clr, remx := 0, remy := 0, phx := 0, phy := 0 }
  bq := { queue := [], depth := 0, ready := false, abortF := false, stopF := false, readingF := false,
          writingF := false, inflight := false, cmdbuf := [], dispatchCount := 0, faultCount := 0 }
  bc := { stAbort := false, stStop := false, stOther := false, irqEn := false }
  dma := { tx := Chan.reset, rx := Chan.reset }
  masked := false
  fault := 0
  cmd := { cp := 0, resp := [], stream := [] }
  owned := { live := [], cells := [], next := 0 }
  ext := ext
  trace := trace
  draws := draws
  tape := tape
  cut := cut

/-- The external levels at reset: an opaque constant for each line (log 6). -/
def externalAtReset : Vector Level 12 :=
  Vector.ofFn fun p : Fin 12 => if Config.externalHigh p.val then .high else .low

/-- The machine right after reset: R60, this hardware's parameters, an empty trace and an empty schedule. -/
def State.reset : State := State.resetOver Config.params externalAtReset [] 0 [] false

end Sys2Proof.Machine
end

