-- ==== Sys2Proof/Machine/Operands.lean ====
section
/-! DEFINITION. What the operands of commands and the parameters stand for. -/

namespace Sys2Proof.Machine

/-! ## Pin ids (10_state.md R21) -/

/-- The id of a pin. -/
def Pin.id : Pin → Fin 12
  | .kclk => 0
  | .kdat => 1
  | .krst => 2
  | .mxa => 3
  | .mxq => 4
  | .mya => 5
  | .myq => 6
  | .mb1 => 7
  | .mb2 => 8
  | .mb3 => 9
  | .scl => 10
  | .sda => 11

/-- The twelve pins in the order of their ids. -/
def Pin.all : List Pin := [.kclk, .kdat, .krst, .mxa, .mxq, .mya, .myq, .mb1, .mb2, .mb3, .scl, .sda]

/-- The pin a pin-id operand names; none above 11 (30_encoding.md R89). -/
def Pin.ofByte (a : Byte) : Option Pin := Pin.all[a.toNat]?

/-- The pins PIN_ASSERT and PIN_RELEASE may drive: all but SCL and SDA (40_pin_driver.md R113, R114). -/
def Pin.hostDrives (p : Pin) : Bool := p != .scl && p != .sda

/-- The pin of PIN_ASSERT or PIN_RELEASE; none where the command executes ILLEGAL (40_pin_driver.md R113, R114). -/
def hostPin (a : Byte) : Option Pin := (Pin.ofByte a).filter Pin.hostDrives

/-! ## Lines of the mouse link (10_state.md R21) -/

def Axis.lineA : Axis → Pin
  | .x => .mxa
  | .y => .mya

def Axis.lineQ : Axis → Pin
  | .x => .mxq
  | .y => .myq

/-! ## Int8 (00_scope.md R10) -/

/-- sign(c): +1, -1 or 0. -/
def sign (c : Byte) : Int := if 0 < c.toInt then 1 else if c.toInt < 0 then -1 else 0

/-! ## Keyboard operands -/

/-- The key array, k0 first (30_encoding.md R92). -/
def keyList (k : Keys) : List Byte := [k.k0, k.k1, k.k2, k.k3, k.k4, k.k5]

/-- USB2SC: a total function; a usage without an entry maps to SC_UNKNOWN (00_scope.md R7). -/
def usb2sc (cfg : Params) (usage : Byte) : Byte :=
  match cfg.usb2scTable.find? (fun e => e.1 == usage) with
  | some e => e.2
  | none => cfg.scUnknown

/-- MOD_SC[i] for HID modifier bit i (00_scope.md R7). -/
def modScancode (cfg : Params) (i : Fin 8) : Byte := cfg.modSc[i]

/-- The code is ctrl, left-special or right-special (42_keyboard.md R171 step 3). -/
def isTrioCode (cfg : Params) (code : Byte) : Bool :=
  code == cfg.scCtrl || code == cfg.scLspecial || code == cfg.scRspecial

/-! ## Parameters -/

/-- The seven named scancodes (00_scope.md R8). -/
def namedScancodes (cfg : Params) : List Byte :=
  [cfg.scUnknown, cfg.scCapslock, cfg.scCtrl, cfg.scLspecial, cfg.scRspecial, cfg.scPowerup, cfg.scPowerdown]

/-- No element occurs twice. -/
def allDistinct : List Byte → Bool
  | [] => true
  | c :: cs => !cs.contains c && allDistinct cs

/-- QMAX is a positive integer or unbounded (00_scope.md R7). -/
def qmaxLegal : Option Nat → Bool
  | none => true
  | some n => decide (1 ≤ n)

/-- The constraints of 00_scope.md R8 and of the table of R7. USB2SC and PIN_GPIO meet theirs by their form (log 5). -/
def paramsLegal (cfg : Params) : Bool :=
  qmaxLegal cfg.qmax && allDistinct (namedScancodes cfg) && decide (1 ≤ cfg.encDivisor) && decide (1 ≤ cfg.maxXfer) &&
    !cfg.scCapslock.getLsbD 7 && !cfg.scCtrl.getLsbD 7 && !cfg.scLspecial.getLsbD 7 && !cfg.scRspecial.getLsbD 7 &&
    cfg.scPowerup.getLsbD 7 && cfg.scPowerdown.getLsbD 7

end Sys2Proof.Machine
end

