-- ==== Sys2Proof/Machine/Flags.lean ====
section
/-! DEFINITION. The sticky fault bits and every condition the block computes from its flags. -/

namespace Sys2Proof.Machine

/-! ## The FAULT register (60_exceptions.md R260) -/

/-- The assigned bits of S.fault. -/
inductive FaultBit where
  | capacity | busFault | busStuck | recoveryFailed | scRefused | spuriousIrq | badCmd | halted
deriving DecidableEq, Repr

def FaultBit.index : FaultBit → Nat
  | .capacity => 0
  | .busFault => 1
  | .busStuck => 2
  | .recoveryFailed => 3
  | .scRefused => 4
  | .spuriousIrq => 5
  | .badCmd => 6
  | .halted => 31

/-- The register value with this one bit set. -/
def FaultBit.mask (b : FaultBit) : BitVec 32 := 1#32 <<< b.index

/-- The bits R260 assigns; every other bit reads 0. -/
def faultAssigned : BitVec 32 := 0x8000007F#32

/-- S.halted, which equals S.fault[31] (10_state.md R44). -/
def State.halted (s : State) : Bool := s.fault.getLsbD 31

/-! ## The completion interrupt (60_exceptions.md R264 to R266) -/

/-- The interrupt is pending (R265). -/
def State.pending (s : State) : Bool := s.bc.stAbort || s.bc.stStop || s.bc.stOther

/-- The entry condition of R266, but for 'ISR is not already running': ISR's own steps never test it. -/
def State.irqReady (s : State) : Bool := s.bc.irqEn && !s.masked && s.pending && !s.halted

/-- PRI and ISR may take atomic steps: the block is not halted (45_control.md R253) and no reset has cut off the
command PRI was running (log 13). -/
def State.live (s : State) : Bool := !s.cut && !s.halted

/-! ## Conditions of the bus queue -/

/-- The completion handler takes the fault path: abort, or no stop (43_bus_queue.md R215). -/
def State.busFaulted (s : State) : Bool := s.bq.abortF || !s.bq.stopF

/-- BQ_ENQUEUE holds: the depth has reached QMAX (43_bus_queue.md R204). -/
def State.queueFull (s : State) : Bool :=
  match s.cfg.qmax with
  | none => false
  | some n => decide (n ≤ s.bq.depth.toNat)

/-! ## The reset chord (42_keyboard.md R165) -/

/-- All three modifiers of the trio are held. -/
def Kb.chord (k : Kb) : Bool := k.ctrl && k.lsp && k.rsp

end Sys2Proof.Machine
end

