-- ==== Sys2Proof/Machine/Prims.lean ====
section
/-! DEFINITION. The pseudocode primitives of 00_scope.md R11 as functions of State, each one atomic. -/

namespace Sys2Proof.Machine

/-! ## Trace (00_scope.md R12) -/

/-- Emit(e) by agent `ag`. -/
def emit (ag : Agent) (e : Event) (s : State) : State := { s with trace := s.trace ++ [⟨ag, e⟩] }

/-- The context an agent runs on: ISR runs on PRI's resource (60_exceptions.md R267, R273, log 17). -/
def Agent.context : Agent → Context
  | .pri => .pri
  | .isr => .pri
  | .enc => .enc

/-- Wait(d): a lower bound on time that only emits its event (log 18). -/
def wait (ag : Agent) (us : Nat) (s : State) : State := emit ag (.wait ag.context us) s

/-- Respond(v) (20_memory.md R72); only PRI responds. -/
def respond (v : Word) (s : State) : State :=
  emit .pri (.resp v) { s with cmd := { s.cmd with resp := s.cmd.resp ++ [v] } }

/-! ## Pins (40_pin_driver.md R110 to R112) -/

/-- The drive of a pin. -/
def Pins.driveOf (ps : Pins) (p : Pin) : Drive := ps.drive[p.id]

/-- Set the drive of a pin. -/
def Pins.setDrive (ps : Pins) (p : Pin) (d : Drive) : Pins := { ps with drive := ps.drive.set p.id d }

/-- The function of a pin; pins 0 to 9 are always GPIO (10_state.md R23). -/
def Pins.funcOf (ps : Pins) : Pin → PinFunc
  | .scl => ps.funcScl
  | .sda => ps.funcSda
  | .kclk | .kdat | .krst | .mxa | .mxq | .mya | .myq | .mb1 | .mb2 | .mb3 => .gpio

/-- The drive and the event of Assert and Release. -/
def drivePin (ag : Agent) (p : Pin) (d : Drive) (s : State) : State :=
  emit ag (.pin p d) { s with pins := s.pins.setDrive p d }

/-- Assert(p) (R110). -/
def assertPin (ag : Agent) (p : Pin) (s : State) : State := drivePin ag p .asserted s

/-- Release(p) (R111). -/
def releasePin (ag : Agent) (p : Pin) (s : State) : State := drivePin ag p .released s

/-- Sample(p) (R112): LOW where the block asserts the pin under GPIO, else the external level. -/
def sample (p : Pin) (s : State) : Level :=
  if s.pins.funcOf p = .gpio ∧ s.pins.driveOf p = .asserted then .low else s.ext[p.id]

/-! ## Faults and logs (60_exceptions.md R261, R263) -/

/-- raise Fault(F_x): sets one sticky bit. -/
def raise (b : FaultBit) (s : State) : State := { s with fault := s.fault ||| b.mask }

/-! ## Critical sections (60_exceptions.md R268) -/

/-- Set S.irq.masked. -/
def setMasked (m : Bool) (s : State) : State := { s with masked := m }

/-! ## Owned storage (20_memory.md R73, log 8) -/

/-- The room of one buffer in the address of a byte: a buffer has at most 255 bytes. -/
def bufRoom : Nat := 256

/-- The address of byte `i` of buffer `h`. -/
def byteAddr (h i : Nat) : Nat := bufRoom * h + i

/-- Write one cell, keeping the addresses strictly rising. -/
def writeCell (a : Nat) (v : Byte) : List Host.Cell → List Host.Cell
  | [] => [(a, v)]
  | (b, x) :: rest =>
    if a < b then (a, v) :: (b, x) :: rest
    else if a = b then (a, v) :: rest
    else (b, x) :: writeCell a v rest

/-- The byte at an address; none where nothing has been written. -/
def readCell (a : Nat) : List Host.Cell → Option Byte
  | [] => none
  | (b, x) :: rest => if a = b then some x else readCell a rest

/-- The canonical form of a list of cells: addresses strictly rising. An unlisted address holds no byte, so no
entry can equal what an unlisted address reads as. -/
def Memory.wf : List Host.Cell → Bool
  | [] => true
  | [_] => true
  | c :: d :: rest => decide (c.1 < d.1) && Memory.wf (d :: rest)

/-- The size of a live buffer. -/
def Owned.sizeOf? (o : Owned) (h : Nat) : Option Nat := (o.live.find? (fun b => b.handle == h)).map Buf.size

/-- Byte `i` of buffer `h` exists: the buffer is live and `i` is below its size (R73: any other offset has no meaning). -/
def Owned.inRange (o : Owned) (h i : Nat) : Bool :=
  match o.sizeOf? h with
  | some n => decide (i < n)
  | none => false

/-- Alloc(n): a fresh handle to a buffer of n bytes; never fails. -/
def Owned.alloc (o : Owned) (n : Nat) : Nat × Owned :=
  (o.next, { live := o.live ++ [⟨o.next, n⟩], cells := o.cells, next := o.next + 1 })

/-- MemWrite(h, i, 1, v); no rule makes one out of range, and there it does nothing. -/
def Owned.write (o : Owned) (h i : Nat) (v : Byte) : Owned :=
  if o.inRange h i then { o with cells := writeCell (byteAddr h i) v o.cells } else o

/-- MemRead(h, i, 1); none out of range. A byte of a live buffer that nothing has written is a free value. -/
def Owned.read (o : Owned) (h i : Nat) : Option Byte :=
  if o.inRange h i then some ((readCell (byteAddr h i) o.cells).getD (Config.freeByte (byteAddr h i))) else none

/-- Alloc(n) as a step of the machine. -/
def memAlloc (n : Nat) (s : State) : State := { s with owned := (s.owned.alloc n).2 }

/-- MemWrite(h, i, 1, v) as a step of the machine. -/
def memWrite (h i : Nat) (v : Byte) (s : State) : State := { s with owned := s.owned.write h i v }

/-- Write bytes from offset `i` on, `stride` apart. -/
def Owned.writeFrom (o : Owned) (h stride : Nat) : Nat → List Byte → Owned
  | _, [] => o
  | i, v :: vs => Owned.writeFrom (o.write h i v) h stride (i + stride) vs

/-- Free(h): the handle ends, and its bytes with it. -/
def Owned.free (o : Owned) (h : Nat) : Owned :=
  { o with live := o.live.filter (fun b => b.handle != h), cells := o.cells.filter (fun c => c.1 / bufRoom != h) }

/-- Free the buffer if there is one (43_bus_queue.md R216). -/
def Owned.freeOpt (o : Owned) : Option Nat → Owned
  | none => o
  | some h => o.free h

/-! ## Transactions (10_state.md R34) -/

/-- The write length of a transaction. -/
def Txn.w (t : Txn) : Nat := t.wdata.length

/-- The number of command units of a transaction, w + r. -/
def Txn.units (t : Txn) : Nat := t.w + t.r.toNat

end Sys2Proof.Machine
end

