-- ==== Sys2Proof/Machine/Encoder.lean ====
section
/-! DEFINITION. The encoder context ENC: five atomic steps (41_quadrature.md R134 to R141). -/

namespace Sys2Proof.Machine

/-- The phase-to-line table of R134: the A line and the Q line. -/
def phaseLines (ph : BitVec 2) : Drive × Drive :=
  match ph.toNat with
  | 0 => (.released, .released)
  | 1 => (.released, .asserted)
  | 2 => (.asserted, .asserted)
  | _ => (.asserted, .released)

/-- DriveAxis (R134): line A first, then line Q. -/
def driveAxis (ax : Axis) (ph : BitVec 2) (s : State) : State :=
  drivePin .enc ax.lineQ (phaseLines ph).2 (drivePin .enc ax.lineA (phaseLines ph).1 s)

/-- The remaining magnitude of an axis (10_state.md R32). -/
def Enc.rem (e : Enc) : Axis → Byte
  | .x => e.remx
  | .y => e.remy

/-- The quadrature phase of an axis (10_state.md R33). -/
def Enc.phase (e : Enc) : Axis → BitVec 2
  | .x => e.phx
  | .y => e.phy

def Enc.setRem (e : Enc) (c : Byte) : Axis → Enc
  | .x => { e with remx := c }
  | .y => { e with remy := c }

def Enc.setPhase (e : Enc) (ph : BitVec 2) : Axis → Enc
  | .x => { e with phx := ph }
  | .y => { e with phy := ph }

/-- The test of R139: the remainder is nonzero and ENC_DIVISOR divides it. -/
def advances (divisor : Nat) (c : Byte) : Bool := c != 0 && decide (c.toInt % (divisor : Int) = 0)

/-- The phase one step on in the sign of `c`, modulo 4 (R139). -/
def nextPhase (ph : BitVec 2) (c : Byte) : BitVec 2 := ph + BitVec.ofInt 2 (sign c)

/-- AxisAdvance (R139). -/
def axisAdvance (ax : Axis) (s : State) : State :=
  if advances s.cfg.encDivisor (s.enc.rem ax) then
    driveAxis ax (nextPhase (s.enc.phase ax) (s.enc.rem ax))
      { s with enc := s.enc.setPhase (nextPhase (s.enc.phase ax) (s.enc.rem ax)) ax }
  else s

/-- The remainder one step nearer to zero (R140). -/
def towardZero (c : Byte) : Byte := BitVec.ofInt 8 (c.toInt - sign c)

/-- AxisDecrement (R140). -/
def axisDecrement (ax : Axis) (s : State) : State :=
  { s with enc := s.enc.setRem (towardZero (s.enc.rem ax)) ax }

/-- One iteration of R138: X, then Y, then the wait. -/
def encIteration (s : State) : State :=
  wait .enc Config.tEncStep
    (axisDecrement .y (axisAdvance .y (axisDecrement .x (axisAdvance .x s))))

/-- Set the encoder's FSM state. -/
def setEncState (e : EncState) (s : State) : State := { s with enc := { s.enc with state := e } }

/-- One step of ENC (R135 to R138, R141). One is enabled in every state (R130). -/
def encStep (s : State) : State :=
  match s.enc.state with
  | .clr => setEncState .takex { s with mv := { s.mv with flag := false } }
  | .takex => setEncState .takey { s with enc := { s.enc with remx := s.mv.dx }, mv := { s.mv with dx := 0 } }
  | .takey => setEncState .run { s with enc := { s.enc with remy := s.mv.dy }, mv := { s.mv with dy := 0 } }
  | .run =>
    if s.enc.remx = 0 ∧ s.enc.remy = 0 then setEncState .clr s
    else setEncState .check (encIteration s)
  | .check => if s.mv.flag then setEncState .clr s else setEncState .run s

end Sys2Proof.Machine
end

