-- ==== Sys2Proof/Machine/Environment.lean ====
section
/-! DEFINITION. The steps of the environment ENV (30_encoding.md R99). -/

namespace Sys2Proof.Machine

/-- A status event sets raw status bits and clears none (43_bus_queue.md R213). -/
def raiseStatus (abort stop other : Bool) (s : State) : State :=
  { s with bc := { s.bc with stAbort := s.bc.stAbort || abort, stStop := s.bc.stStop || stop,
                             stOther := s.bc.stOther || other } }

/-- How far the memory address moves after each element, in bytes (44_transfer_engine.md R241). -/
def ChanSetup.memoryStride (u : ChanSetup) : Nat := if u.memoryIncrements then u.elementBits / 8 else 0

/-- The bytes RX delivers go into the buffer it was programmed with, while that buffer is live (44_transfer_engine.md
R243, log 9), one element of its set-up after the other (R241). -/
def deliver (c : Chan) (bytes : List Byte) (o : Owned) : Owned :=
  match c.buf, c.setup with
  | some h, some u => o.writeFrom h u.memoryStride 0 (bytes.take c.len.toNat)
  | _, _ => o

/-- The reset event (70_reset_and_hazards.md R290): every field of R60 at its reset value in one step. What is not in
R60 stays: the parameters, ENV's levels, the trace, the draws and the schedule. The command PRI was running is cut off
(log 13). -/
def resetEvent (s : State) : State := State.resetOver s.cfg s.ext s.trace s.draws s.tape true

/-- One step of ENV. Ending a channel that is not busy does nothing (log 21). -/
def envStep (e : EnvEvent) (s : State) : State :=
  match e with
  | .word w => { s with cmd := { s.cmd with stream := s.cmd.stream ++ [w] } }
  | .status abort stop other => raiseStatus abort stop other s
  | .endTx => { s with dma := { s.dma with tx := { s.dma.tx with busy := false } } }
  | .endRx bytes =>
    if s.dma.rx.busy then
      { s with dma := { s.dma with rx := { s.dma.rx with busy := false } }, owned := deliver s.dma.rx bytes s.owned }
    else s
  | .level p l => { s with ext := s.ext.set p.id l }
  | .reset => resetEvent s

end Sys2Proof.Machine
end

