-- ==== Sys2Proof/Machine/Agents.lean ====
section
/-! DEFINITION. How the agents' atomic steps interleave (20_memory.md R78, log 1, log 2). -/

namespace Sys2Proof.Machine

/-- The turns of ENC and ENV up to the next `main` turn, which is used up; an exhausted schedule is `main` from
there on. The rest becomes the schedule. -/
def runTurns : List Turn → State → State
  | [], s => { s with tape := [] }
  | .main :: rest, s => { s with tape := rest }
  | .enc :: rest, s => runTurns rest (encStep s)
  | .env e :: rest, s => runTurns rest (envStep e s)

/-- What ENC and ENV do before the next atomic step of PRI or ISR. -/
def turns (s : State) : State := runTurns s.tape s

/-- An agent that runs on PRI's resource: its name, and what comes before each of its atomic steps. -/
structure Actor where
  agent : Agent
  pre : State → State

/-- ISR's atomic steps interleave with ENC and ENV alone (60_exceptions.md R267). -/
def Actor.isr : Actor := { agent := .isr, pre := fun s => if s.live then turns s else s }

/-- One atomic step of an actor: what comes before it, and then the action, unless the block has halted or a reset
has cut the actor off. -/
def Actor.act (A : Actor) (a : State → State) (s : State) : State :=
  if (A.pre s).live then a (A.pre s) else A.pre s

/-- Atomic steps one after the other. -/
def Actor.run (A : Actor) : List (State → State) → State → State
  | [], s => s
  | a :: rest, s => Actor.run A rest (A.act a s)

/-- raise Fault(F_x), and then Emit(LOG(kind, info)): two atomic steps (60_exceptions.md R261, R263). -/
def Actor.raiseLog (A : Actor) (b : FaultBit) (k : LogKind) (s : State) : State :=
  A.run [raise b, emit A.agent (.log k)] s

/-- IrqSave (60_exceptions.md R268), one atomic step: the mask before it, and the state with the interrupt masked. -/
def irqSave (A : Actor) (s : State) : Bool × State := ((A.pre s).masked, A.act (setMasked true) s)

/-- IrqRestore(m) (60_exceptions.md R268), one atomic step. -/
def irqRestore (A : Actor) (m : Bool) (s : State) : State := A.act (setMasked m) s

end Sys2Proof.Machine
end

