-- ==== Sys2Proof/Machine/BusEngine.lean ====
section
/-! DEFINITION. Dispatch, completion and bus initialisation, run by PRI or by ISR (43_bus_queue.md,
44_transfer_engine.md). -/

namespace Sys2Proof.Machine

/-! ## Command units (30_encoding.md R94, 43_bus_queue.md R209) -/

def cuRead : CmdUnit := 0x0100
def cuStop : CmdUnit := 0x0200
def cuRestart : CmdUnit := 0x0400

/-- OR a flag into unit `i`. -/
def orUnit (i : Nat) (flag : CmdUnit) (us : List CmdUnit) : List CmdUnit := us.modify i (fun u => u ||| flag)

/-- BuildUnits (R209): the write units, then the read units; then the flags of unit 0, of the first read unit and of
the last unit. -/
def buildUnits (t : Txn) : List CmdUnit :=
  let plain := t.wdata.map (fun b => b.setWidth 16) ++ List.replicate t.r.toNat cuRead
  let restarted := orUnit 0 cuRestart plain
  let readStarted := if 0 < t.r.toNat then orUnit t.w cuRestart restarted else restarted
  orUnit (t.units - 1) cuStop readStarted

/-! ## The burst-transfer engine (44_transfer_engine.md) -/

/-- The channel configurations of R241. -/
def chanSetup : Channel → ChanSetup
  | .tx => { direction := .memoryToPort, elementBits := 16, trigger := .transmitRequest, memoryIncrements := true,
             portIncrements := false }
  | .rx => { direction := .portToMemory, elementBits := 8, trigger := .receiveRequest, memoryIncrements := true,
             portIncrements := false }

def Dma.get (d : Dma) : Channel → Chan
  | .tx => d.tx
  | .rx => d.rx

def Dma.set (d : Dma) (c : Chan) : Channel → Dma
  | .tx => { d with tx := c }
  | .rx => { d with rx := c }

/-- DmaStart(ch, buf, n) (R240): programs the channel and starts it; a busy channel is programmed again. Its writes and
its event are one atomic step, which is the model's choice (log 31). -/
def dmaStart (ag : Agent) (ch : Channel) (buf : Option Nat) (n : Nat) (s : State) : State :=
  emit ag (.dmaStart ch n)
    { s with dma := s.dma.set { busy := true, len := BitVec.ofNat 16 n, setup := some (chanSetup ch), buf := buf } ch }

/-- DmaAbort(ch) (R242): the element count is kept. Its write and its event are one atomic step, which is the model's
choice (log 31). -/
def dmaAbort (ag : Agent) (ch : Channel) (s : State) : State :=
  emit ag (.dmaAbort ch) { s with dma := s.dma.set { s.dma.get ch with busy := false } ch }

/-! ## Dispatch (43_bus_queue.md R210 to R212) -/

/-- F_HALTED and HALT, the last step of FatalCapacity (R212), with what the halting agent still does. -/
def haltStep (ag : Agent) (last : State → State) (s : State) : State := last (emit ag .halt (raise .halted s))

/-- FatalCapacity(n) (R212). `last` is the halting agent's last action: PRI's advance of the command pointer past the
halting command (45_control.md R254), nothing for ISR. -/
def fatalCapacity (A : Actor) (last : State → State) (n : Nat) (s : State) : State :=
  A.run [raise .capacity, emit A.agent (.log (.capacity n)), haltStep A.agent last] s

/-- The flags cleared and the command buffer filled before a transfer starts (R210). -/
def prepareDispatch (t : Txn) (s : State) : State :=
  { s with bq := { s.bq with abortF := false, stopF := false, readingF := false, writingF := false,
                             cmdbuf := buildUnits t } }

/-- In flight, and counted (R210). -/
def markInflight (s : State) : State :=
  { s with bq := { s.bq with inflight := true, dispatchCount := s.bq.dispatchCount + 1 } }

/-- The atomic steps of a dispatch that does not halt (R210); RX is started before TX, and only if reading (R244). -/
def dispatchSteps (ag : Agent) (t : Txn) : List (State → State) :=
  [prepareDispatch t] ++
  (if 0 < t.r.toNat then [dmaStart ag .rx t.rbuf t.r.toNat] else []) ++
  [dmaStart ag .tx none t.units,
   fun s => emit ag (.busStart s.bq.cmdbuf t.r.toNat) s,
   markInflight]

/-- Dispatch(t) (R210), with the capacity check of R211. -/
def dispatch (A : Actor) (last : State → State) (t : Txn) (s : State) : State :=
  if s.cfg.maxXfer < t.units then fatalCapacity A last t.units s else A.run (dispatchSteps A.agent t) s

/-! ## Bus initialisation and recovery (43_bus_queue.md R221 to R223) -/

/-- S.pin.func[SCL] <- f. -/
def setFuncScl (f : PinFunc) (s : State) : State := { s with pins := { s.pins with funcScl := f } }

/-- S.pin.func[SDA] <- f. -/
def setFuncSda (f : PinFunc) (s : State) : State := { s with pins := { s.pins with funcSda := f } }

/-- S.pin.pull[SCL] <- on. -/
def setPullScl (on : Bool) (s : State) : State := { s with pins := { s.pins with pullScl := on } }

/-- S.pin.pull[SDA] <- on. -/
def setPullSda (on : Bool) (s : State) : State := { s with pins := { s.pins with pullSda := on } }

/-- One recovery clock cycle (R221). -/
def recoveryCycle (ag : Agent) : List (State → State) :=
  [assertPin ag .scl, fun s => wait ag s.cfg.tRecoveryHalf s,
   releasePin ag .scl, fun s => wait ag s.cfg.tRecoveryHalf s]

/-- Up to this many recovery cycles, SDA sampled after each; whether SDA was seen HIGH (R221). -/
def toggleClock (A : Actor) : Nat → State → Bool × State
  | 0, s => (false, s)
  | k + 1, s =>
    let s1 := A.pre (A.run (recoveryCycle A.agent) s)
    if sample .sda s1 = .high then (true, s1) else toggleClock A k s1

/-- The stuck branch of ProbeAndRecover (R221). -/
def recover (A : Actor) (s : State) : State :=
  let toggled := toggleClock A Config.recoveryMaxCycles (A.raiseLog .busStuck .busStuck s)
  if toggled.1 then toggled.2 else A.raiseLog .recoveryFailed .recoveryFailed toggled.2

/-- Both bus pins floated under the pin driver (R221). -/
def floatSteps (ag : Agent) : List (State → State) :=
  [setFuncScl .gpio, setFuncSda .gpio, releasePin ag .scl, releasePin ag .sda]

/-- ProbeAndRecover (R221): both lines floated, each sampled in an atomic step of its own (log 30). -/
def probeAndRecover (A : Actor) (s : State) : State :=
  let s1 := A.pre (A.run (floatSteps A.agent) s)
  let s2 := A.pre s1
  if sample .scl s1 = .low ∨ sample .sda s2 = .low then recover A s2 else s2

/-- The atomic steps of Configure (R222). -/
def configureSteps (ag : Agent) : List (State → State) :=
  [fun s => emit ag (.busCfg s.cfg.busClkHz s.cfg.busTargetAddr) s,
   setFuncScl .busctrl, setFuncSda .busctrl, setPullScl true, setPullSda true,
   fun s => { s with bc := { s.bc with irqEn := true } },
   fun s => { s with bq := { s.bq with ready := true } }]

/-- BusInit (R223). -/
def busInit (A : Actor) (s : State) : State := A.run (configureSteps A.agent) (probeAndRecover A s)

/-! ## Completion (43_bus_queue.md R214 to R219) -/

/-- ReadStatus (R214): the read clears the three status bits in one step; reading_f and writing_f take any value
(log 7). -/
def readStatus (s : State) : State :=
  { s with
    bc := { s.bc with stAbort := false, stStop := false, stOther := false }
    bq := { s.bq with abortF := s.bc.stAbort, stopF := s.bc.stStop, readingF := Config.freeFlag s.draws,
                      writingF := Config.freeFlag (s.draws + 1) }
    draws := s.draws + 2 }

/-- The fault raised, counted and logged (R215). -/
def busFaultSteps (ag : Agent) : List (State → State) :=
  [raise .busFault,
   fun s => { s with bq := { s.bq with faultCount := s.bq.faultCount + 1 } },
   fun s => emit ag (.log (.busFault s.bq.abortF s.bq.stopF)) s]

/-- Abort a channel that is busy (R215, R242). The test is an atomic step of its own, which is the model's choice (log
30): ENV may end the channel between the test and the abort. -/
def abortIfBusy (A : Actor) (ch : Channel) (s : State) : State :=
  if ((A.pre s).dma.get ch).busy then A.act (dmaAbort A.agent ch) (A.pre s) else A.pre s

/-- FaultPath (R215): TX is aborted before RX. -/
def faultPath (A : Actor) (s : State) : State :=
  busInit A (abortIfBusy A .rx (abortIfBusy A .tx (A.run (busFaultSteps A.agent) s)))

/-- PopAndFree (R216): the head leaves the queue, its buffers end, the depth falls by one. -/
def popAndFree (s : State) : State :=
  match s.bq.queue with
  | [] => s
  | t :: rest =>
    { s with bq := { s.bq with queue := rest, depth := s.bq.depth - 1 },
             owned := (s.owned.freeOpt t.wbuf).freeOpt t.rbuf }

/-- DispatchNext (R217). -/
def dispatchNext (A : Actor) (s : State) : State :=
  match s.bq.queue with
  | [] => s
  | t :: _ =>
    let saved := irqSave A s
    irqRestore A saved.1 (dispatch A id t saved.2)

end Sys2Proof.Machine
end

