-- ==== Sys2Proof/Machine/Ops.lean ====
section
/-! DEFINITION. Taking the completion interrupt and returning from it, PRI's atomic steps, and the operations the
commands share. -/

namespace Sys2Proof.Machine

/-! ## The completion interrupt (60_exceptions.md R264 to R271) -/

/-- CompletionHandler (43_bus_queue.md R220), ISR's whole step sequence for one interrupt. Entry saves no state and
changes no mask (60_exceptions.md R270). -/
def completionHandler (s : State) : State :=
  let s1 := Actor.isr.run [fun s => { s with bq := { s.bq with inflight := false } }, readStatus] s
  match s1.bq.queue with
  | [] => Actor.isr.raiseLog .spuriousIrq .spuriousIrq s1
  | _ :: _ =>
    dispatchNext .isr (Actor.isr.act popAndFree (if s1.busFaulted then faultPath .isr s1 else s1))

/-- The return from the handler (60_exceptions.md R271): nothing is restored, PRI is at its step boundary again, where
ENC and ENV may have their turns before its next step. -/
def interruptReturn (s : State) : State := if s.live then turns s else s

/-- At a PRI step boundary the handler is entered while the condition of R266 holds, and taken again after it returns
if it still holds (R267). The first argument bounds the number of entries. -/
def takeInterrupt : Nat → State → State
  | 0, s => s
  | n + 1, s => if s.irqReady && s.live then takeInterrupt n (interruptReturn (completionHandler s)) else s

/-- What comes before each atomic step of PRI: turns of ENC and ENV, and the completion interrupt (R266). Each entry
after the first needs a status that a turn raised, so the length of the schedule bounds their number. -/
def boundary (s : State) : State := if s.live then takeInterrupt (s.tape.length + 1) (turns s) else s

/-- PRI. -/
def Actor.pri : Actor := { agent := .pri, pre := boundary }

/-! ## The command loop's part of every command (45_control.md R252, R254) -/

/-- Move the command pointer past a command of `n` words. -/
def advance (n : Nat) (s : State) : State := { s with cmd := { s.cmd with cp := s.cmd.cp + n } }

/-- The end of a command of `n` words: the command pointer is advanced in PRI's last atomic step, unless the block has
halted or a reset has cut the command off, which ends here. -/
def endCommand (n : Nat) (s : State) : State := { Actor.pri.act (advance n) s with cut := false }

/-- Illegal(word) (45_control.md R252): also what a refused BQ_INIT or BQ_ENQUEUE does, with its OP as the word
(43_bus_queue.md R203, R205, R224). -/
def badCmd (word : Word) (s : State) : State := Actor.pri.raiseLog .badCmd (.badCmd word) s

/-! ## Enqueue (43_bus_queue.md R202, R206) -/

/-- Alloc(n) where n > 0, one atomic step; no buffer and no step where n = 0 (R202). -/
def allocBuf (A : Actor) (n : Nat) (s : State) : Option Nat × State :=
  if n = 0 then (none, s) else (some (A.pre s).owned.next, A.act (memAlloc n) s)

/-- The copy of the payload into the buffer from byte `i` on, one atomic step for each byte (R202). -/
def copySteps (h : Nat) : Nat → List Byte → List (State → State)
  | _, [] => []
  | i, v :: vs => memWrite h i v :: copySteps h (i + 1) vs

/-- The atomic steps that fill the write buffer, if there is one. -/
def fillSteps (h : Option Nat) (bytes : List Byte) : List (State → State) :=
  match h with
  | none => []
  | some h => copySteps h 0 bytes

/-- MakeTxn (R202): the write payload is copied into owned storage, the read buffer is allocated and not filled. -/
def makeTxn (A : Actor) (bytes : List Byte) (r : Byte) (s : State) : Txn × State :=
  let w := allocBuf A bytes.length s
  let b := allocBuf A r.toNat (A.run (fillSteps w.1 bytes) w.2)
  ({ wdata := bytes, r := r, wbuf := w.1, rbuf := b.1 }, b.2)

/-- The new transaction at the queue's tail, and counted (R206). -/
def pushTxn (t : Txn) (s : State) : State :=
  { s with bq := { s.bq with queue := s.bq.queue ++ [t], depth := s.bq.depth + 1 } }

/-- Append(t) (R206); `last` is PRI's last action if the dispatch halts. -/
def appendTxn (A : Actor) (last : State → State) (t : Txn) (s : State) : State :=
  let saved := irqSave A s
  let pushed := A.act (pushTxn t) saved.2
  irqRestore A saved.1 (if saved.2.bq.queue = [] then dispatch A last t pushed else pushed)

/-! ## What a step does when PRI runs no command -/

/-- PRI holds, outside every critical section, for a command word that is absent (20_memory.md R71): the completion
handler may run (60_exceptions.md R266), and ENC and ENV take their turns. With nothing scheduled and no interrupt to
take, ENC, which never holds (41_quadrature.md R130), takes one step (log 2). -/
def holdStep (s : State) : State :=
  if s.tape = [] ∧ s.irqReady = false then { encStep s with cut := false } else { boundary s with cut := false }

/-- The block is halted (45_control.md R253): PRI and ISR take no step, ENC and ENV take the turns the schedule gives
them; with no turn left the machine stops (log 12). -/
def haltedStep (s : State) : Host.Outcome State Fault Refusal :=
  if s.tape = [] then .fault .capacityHalt else .next { turns s with cut := false }

/-! ## Where a command's words are fetched -/

/-- The stream with these words from index `cp` on. -/
def placeWords (cp : Nat) (ws stream : List Word) : List Word :=
  stream.take cp ++ List.replicate (cp - stream.length) 0 ++ ws ++ stream.drop (cp + ws.length)

end Sys2Proof.Machine
end

