-- ==== Sys2Proof/Machine/BusQueue.lean ====
section
/-! DEFINITION. The bus queue commands (43_bus_queue.md R207, R224). -/

namespace Sys2Proof.Machine

/-- BQ_INIT (R224): refused while transactions are queued. The test is an atomic step of its own (log 30). -/
def execBqInit (s : State) : Host.Outcome State Fault Refusal :=
  let s0 := Actor.pri.pre s
  .next (endCommand 1 (if 0 < s0.bq.depth.toNat then badCmd 0x40 s0 else busInit .pri s0))

/-- RejectCapacity(n) (R208). -/
def rejectCapacity (n : Nat) (s : State) : State := Actor.pri.raiseLog .capacity (.capacity n) s

/-- The number of words of a BQ_ENQUEUE with these write bytes (30_encoding.md R84). -/
def enqueueWords (bytes : List Byte) : Nat := 1 + (bytes.length + 3) / 4

/-- MakeTxn and Append (R202, R206), once the command is accepted and there is room. -/
def acceptTxn (r : Byte) (bytes : List Byte) (s : State) : State :=
  let made := makeTxn .pri bytes r s
  appendTxn .pri (advance (enqueueWords bytes)) made.1 made.2

/-- BQ_ENQUEUE (R207): refused before initialisation (R203) and with w = r = 0 (R205); refused for its size under
REJECT_AT_ENQUEUE (R208); held while the depth has reached QMAX (R204): the command pointer stays, and the next step
tries the command again (log 10); while PRI holds, a step is the same as when it holds for a word. The tests are one
atomic step (log 30). -/
def execBqEnqueue (r : Byte) (bytes : List Byte) (s : State) : Host.Outcome State Fault Refusal :=
  let s0 := Actor.pri.pre s
  let n := bytes.length + r.toNat
  .next (
    if !s0.bq.ready then endCommand (enqueueWords bytes) (badCmd 0x41 s0)
    else if n = 0 then endCommand (enqueueWords bytes) (badCmd 0x41 s0)
    else if s0.cfg.capacityPolicy = .rejectAtEnqueue ∧ s0.cfg.maxXfer < n then
      endCommand (enqueueWords bytes) (rejectCapacity n s0)
    else if s0.queueFull then holdStep s
    else endCommand (enqueueWords bytes) (acceptTxn r bytes s0))

end Sys2Proof.Machine
end

