-- ==== Sys2Proof/Machine/Control.lean ====
section
/-! DEFINITION. The register view and the control commands NOP, RDREG and ILLEGAL (10_state.md R46 to R59,
45_control.md R250 to R252). -/

namespace Sys2Proof.Machine

/-! ## The register view -/

/-- The word with these bits, bit 0 first; every bit past the list is 0. -/
def bitsWord : List Bool → Word
  | [] => 0
  | b :: rest => (if b then (1 : Word) else 0) ||| (bitsWord rest <<< 1)

/-- KB_STATUS (R47). -/
def regKbStatus (s : State) : Word :=
  bitsWord [s.kb.caps, s.kb.ctrl, s.kb.lsp, s.kb.rsp, s.kb.rst, s.kb.initDone]

/-- The code of an encoder state (R31). -/
def EncState.code : EncState → BitVec 3
  | .clr => 0
  | .takex => 1
  | .takey => 2
  | .run => 3
  | .check => 4

/-- ENC_STATUS (R51). -/
def regEncStatus (s : State) : Word := (s.enc.state.code ++ s.enc.phy ++ s.enc.phx).setWidth 32

/-- ENC_REM (R52). -/
def regEncRem (s : State) : Word := (s.enc.remy ++ s.enc.remx).setWidth 32

/-- MV (R53). -/
def regMv (s : State) : Word := (BitVec.ofBool s.mv.flag ++ s.mv.dy ++ s.mv.dx).setWidth 32

/-- BQ_STATUS (R54). -/
def regBqStatus (s : State) : Word :=
  bitsWord [s.bq.ready, s.bq.inflight, s.bq.abortF, s.bq.stopF, s.bq.readingF, s.bq.writingF, s.bc.irqEn, s.masked,
            s.dma.tx.busy, s.dma.rx.busy, s.bc.stAbort, s.bc.stStop, s.bc.stOther]

/-- PIN_DRIVE (R59). -/
def regPinDrive (s : State) : Word :=
  bitsWord (Pin.all.map (fun p => s.pins.driveOf p == .asserted) ++
    [false, false, false, false, s.pins.funcScl == .busctrl, s.pins.funcSda == .busctrl, s.pins.pullScl,
     s.pins.pullSda])

/-- REG[i] (R46): an index without a row reads 0. -/
def regView (s : State) (i : Byte) : Word :=
  match i.toNat with
  | 0x00 => regKbStatus s
  | 0x01 => s.kb.lastFrame.setWidth 32
  | 0x02 => s.kb.frameCount
  | 0x03 => s.fe.prevMod.setWidth 32
  | 0x04 => regEncStatus s
  | 0x05 => regEncRem s
  | 0x06 => regMv s
  | 0x07 => regBqStatus s
  | 0x08 => s.bq.depth
  | 0x09 => s.bq.dispatchCount
  | 0x0A => s.bq.faultCount
  | 0x0B => s.fault
  | 0x0C => regPinDrive s
  | _ => 0

/-! ## Commands -/

/-- NOP (R250): the loop's advance is all. -/
def execNop (s : State) : Host.Outcome State Fault Refusal := .next (endCommand 1 s)

/-- RDREG (R251): the whole register is read in the atomic step that responds. -/
def execRdreg (index : Byte) (s : State) : Host.Outcome State Fault Refusal :=
  .next (endCommand 1 (Actor.pri.act (fun s => respond (regView s index) s) s))

/-- ILLEGAL (R252): one word is consumed. -/
def execIllegal (word : Word) (s : State) : State := endCommand 1 (badCmd word s)

end Sys2Proof.Machine
end

