-- ==== Sys2Proof/Machine/Keyboard.lean ====
section
/-! DEFINITION. The keyboard transmitter and its commands (42_keyboard.md). Only PRI runs it. -/

namespace Sys2Proof.Machine

/-! ## The wire byte (R161) -/

/-- rotl8(v, 1) (00_scope.md R10). -/
def rotl8 (v : Byte) : Byte := (v <<< 1) ||| (v >>> 7)

/-- WireByte(c, rel) (R161), step by step as the rule writes it. -/
def wireByte (c : Byte) (rel : Bool) : Byte :=
  let v := c ||| (if rel then 0x80 else 0x00)
  let w := rotl8 v
  if rel || c.getLsbD 7 then w ||| 0x01 else w

/-! ## One frame (R166 to R170) -/

/-- DataBit(b) (R166). -/
def dataBit (b : Bool) (s : State) : State :=
  if b = s.cfg.kdatActiveLow then assertPin .pri .kdat s else releasePin .pri .kdat s

/-- BitCell(b) (R167). -/
def bitCell (b : Bool) : List (State → State) :=
  [dataBit b, wait .pri Config.tKbSetup,
   assertPin .pri .kclk, wait .pri Config.tKbClkLow,
   releasePin .pri .kclk, wait .pri Config.tKbGap]

/-- EndOfTransmission() (R168). -/
def endOfTransmission : List (State → State) := [releasePin .pri .kdat, wait .pri Config.tKbEot]

/-- The frame's event, and the observation fields it writes (R170). -/
def startFrame (w : Byte) (s : State) : State :=
  emit .pri (.frame w) { s with kb := { s.kb with lastFrame := w, frameCount := s.kb.frameCount + 1 } }

/-- The bits of a wire byte in the order they are sent, bit 7 first (R170, 30_encoding.md R96). -/
def wireBits (w : Byte) : List Bool := [7, 6, 5, 4, 3, 2, 1, 0].map w.getLsbD

/-- The atomic steps of SendFrame(w) (R170). -/
def frameSteps (w : Byte) : List (State → State) :=
  [startFrame w] ++ (wireBits w).flatMap bitCell ++ endOfTransmission

/-! ## The reset line (R165, R176, R177) -/

/-- S.kb.rst <- b. -/
def setRst (b : Bool) (s : State) : State := { s with kb := { s.kb with rst := b } }

/-- AssertReset() (R176): two atomic steps. -/
def assertReset (s : State) : State := Actor.pri.run [assertPin .pri .krst, setRst true] s

/-- ReleaseReset() (R177): two atomic steps. -/
def releaseReset (s : State) : State := Actor.pri.run [releasePin .pri .krst, setRst false] s

/-- TrioUpdate(code, rel) (R164). -/
def trioUpdate (code : Byte) (rel : Bool) (s : State) : State :=
  { s with kb := { s.kb with ctrl := if code = s.cfg.scCtrl then !rel else s.kb.ctrl,
                             lsp := if code = s.cfg.scLspecial then !rel else s.kb.lsp,
                             rsp := if code = s.cfg.scRspecial then !rel else s.kb.rsp } }

/-- ChordEval() (R165). -/
def chordEval (s : State) : State :=
  if s.kb.chord && !s.kb.rst then assertReset s
  else if !s.kb.chord && s.kb.rst then releaseReset s
  else s

/-! ## KbSendCore (R171) -/

/-- CapsRewrite(rel) on a press (R163): the toggle flips. -/
def flipCaps (s : State) : State := { s with kb := { s.kb with caps := !s.kb.caps } }

/-- Steps 3 to 6: the trio and the chord, then the frame with direction `rel`. -/
def sendKey (code : Byte) (rel : Bool) (s : State) : State :=
  let s1 := if isTrioCode s.cfg code then chordEval (Actor.pri.act (trioUpdate code rel) s) else s
  Actor.pri.run (frameSteps (wireByte code rel)) s1

/-- Steps 1 to 6, inside the critical section: the sentinel is refused; a caps-lock release is dropped, and a caps-lock
press goes out with the direction of the toggle's previous state (R163). -/
def sendProtocol (code : Byte) (rel : Bool) (s : State) : State :=
  if code = s.cfg.scUnknown then Actor.pri.raiseLog .scRefused (.scRefused code) s
  else if code = s.cfg.scCapslock then
    (if rel then s else sendKey code s.kb.caps (Actor.pri.act flipCaps s))
  else sendKey code rel s

/-- KbSendCore(code, rel) (R171): the whole protocol with the completion interrupt masked (R169). -/
def kbSendCore (code : Byte) (rel : Bool) (s : State) : State :=
  let saved := irqSave .pri s
  irqRestore .pri saved.1 (sendProtocol code rel saved.2)

/-! ## Commands -/

/-- KB_SEND (R172). -/
def execKbSend (code : Byte) (released : Bool) (s : State) : Host.Outcome State Fault Refusal :=
  .next (endCommand 1 (kbSendCore code released s))

/-- S.kb.init_done <- true (R174). -/
def setInitDone (s : State) : State := { s with kb := { s.kb with initDone := true } }

/-- The body of KB_INIT (R174). -/
def kbInitBody (s : State) : State :=
  let s1 := Actor.pri.run [releasePin .pri .kclk, releasePin .pri .kdat, wait .pri Config.tKbSettle] s
  let s2 := kbSendCore s1.cfg.scPowerup false s1
  let s3 := Actor.pri.act (wait .pri Config.tKbAnnounceGap) s2
  let s4 := kbSendCore s3.cfg.scPowerdown false s3
  Actor.pri.act setInitDone s4

/-- KB_INIT (R174). -/
def execKbInit (s : State) : Host.Outcome State Fault Refusal := .next (endCommand 1 (kbInitBody s))

/-- KB_SERVICE (R175): a placeholder that does nothing. -/
def execKbService (s : State) : Host.Outcome State Fault Refusal := .next (endCommand 1 s)

/-- KB_ASSERT_RESET (R176): whatever S.kb.rst was. -/
def execKbAssertReset (s : State) : Host.Outcome State Fault Refusal :=
  .next (endCommand 1 (assertReset s))

/-- KB_RELEASE_RESET (R177). -/
def execKbReleaseReset (s : State) : Host.Outcome State Fault Refusal :=
  .next (endCommand 1 (releaseReset s))

/-- The response of KB_IS_CAPS (R178, 30_encoding.md R86). -/
def boolWord (b : Bool) : Word := if b then 0x00000001 else 0x00000000

/-- KB_IS_CAPS (R178): the toggle, not the last direction sent. -/
def execKbIsCaps (s : State) : Host.Outcome State Fault Refusal :=
  .next (endCommand 1 (Actor.pri.act (fun s => respond (boolWord s.kb.caps) s) s))

/-! ## The report front-end (R180 to R185) -/

/-- A key event: the scancode and whether it is a release. -/
abbrev KeyEvent := Byte × Bool

/-- ModifierDiff (R181): bits 0 to 7 in order, those that differ. -/
def modifierEvents (cfg : Params) (prev new : Byte) : List KeyEvent :=
  (List.finRange 8).filterMap (fun i : Fin 8 =>
    if new.getLsbD i.val != prev.getLsbD i.val then some (modScancode cfg i, !new.getLsbD i.val) else none)

/-- The nonzero keys of the second list that do not occur in `other` nor earlier in their own list (R182, R183);
`seen` is the part of their own list already passed. -/
def freshKeys (other seen : List Byte) : List Byte → List Byte
  | [] => []
  | k :: rest =>
    if k != 0 && !other.contains k && !seen.contains k then k :: freshKeys other (k :: seen) rest
    else freshKeys other (k :: seen) rest

/-- KeyReleases (R182). -/
def releaseEvents (cfg : Params) (prev new : Keys) : List KeyEvent :=
  (freshKeys (keyList new) [] (keyList prev)).map (fun k => (usb2sc cfg k, true))

/-- KeyPresses (R183). -/
def pressEvents (cfg : Params) (prev new : Keys) : List KeyEvent :=
  (freshKeys (keyList prev) [] (keyList new)).map (fun k => (usb2sc cfg k, false))

/-- The key events of a report against the previous one, in order (R185). -/
def reportEvents (cfg : Params) (fe : Fe) (mod : Byte) (keys : Keys) : List KeyEvent :=
  modifierEvents cfg fe.prevMod mod ++ releaseEvents cfg fe.prevKeys keys ++ pressEvents cfg fe.prevKeys keys

/-- One KbSendCore per key event, each masked separately (R180). -/
def sendEvents : List KeyEvent → State → State
  | [], s => s
  | e :: rest, s => sendEvents rest (kbSendCore e.1 e.2 s)

/-- S.fe.prev_mod <- mod. -/
def setPrevMod (mod : Byte) (s : State) : State := { s with fe := { s.fe with prevMod := mod } }

/-- S.fe.prev_keys <- keys. -/
def setPrevKeys (keys : Keys) (s : State) : State := { s with fe := { s.fe with prevKeys := keys } }

/-- SnapshotUpdate(mod, keys) (R184): two atomic steps. -/
def updateSnapshot (mod : Byte) (keys : Keys) (s : State) : State :=
  Actor.pri.run [setPrevMod mod, setPrevKeys keys] s

/-- KB_REPORT (R185): the reserved byte is ignored. -/
def execKbReport (mod _res : Byte) (keys : Keys) (s : State) : Host.Outcome State Fault Refusal :=
  .next (endCommand 3
    (updateSnapshot mod keys (sendEvents (reportEvents s.cfg s.fe mod keys) s)))

end Sys2Proof.Machine
end

