-- ==== Sys2Proof/Machine/Mouse.lean ====
section
/-! DEFINITION. The mouse report (41_quadrature.md R131 to R133). -/

namespace Sys2Proof.Machine

/-- One button line: a set bit asserts it (R131). -/
def driveButton (p : Pin) (pressed : Bool) (s : State) : State :=
  drivePin .pri p (if pressed then .asserted else .released) s

/-- ApplyButtons(b) (R131): bit i goes to line MB(i+1). -/
def applyButtons (b : BitVec 3) : List (State → State) :=
  [driveButton .mb1 (b.getLsbD 0), driveButton .mb2 (b.getLsbD 1), driveButton .mb3 (b.getLsbD 2)]

/-- MvWrite(dx, dy) (R133): three atomic steps, the flag last; ENC may step between them. -/
def mvWrite (dx dy : Byte) : List (State → State) :=
  [fun s => { s with mv := { s.mv with dx := dx } },
   fun s => { s with mv := { s.mv with dy := dy } },
   fun s => { s with mv := { s.mv with flag := true } }]

/-- MS_REPORT (R132): no motion leaves the Motion Vector untouched. -/
def execMsReport (buttons : BitVec 3) (dx dy : Byte) (s : State) : Host.Outcome State Fault Refusal :=
  .next (endCommand 1
    (Actor.pri.run (applyButtons buttons ++ (if dx != 0 || dy != 0 then mvWrite dx dy else [])) s))

end Sys2Proof.Machine
end

