-- ==== Sys2Proof/Machine/PinDriver.lean ====
section
/-! DEFINITION. The pin commands (40_pin_driver.md R113 to R115). -/

namespace Sys2Proof.Machine

/-- PIN_ASSERT (R113): SCL, SDA and ids above 11 execute ILLEGAL. -/
def execPinAssert (pin : Byte) (s : State) : Host.Outcome State Fault Refusal :=
  .next (endCommand 1 (match hostPin pin with
    | some p => Actor.pri.act (assertPin .pri p) s
    | none => badCmd (Instr.header (.pinAssert pin)) s))

/-- PIN_RELEASE (R114): SCL, SDA and ids above 11 execute ILLEGAL. -/
def execPinRelease (pin : Byte) (s : State) : Host.Outcome State Fault Refusal :=
  .next (endCommand 1 (match hostPin pin with
    | some p => Actor.pri.act (releasePin .pri p) s
    | none => badCmd (Instr.header (.pinRelease pin)) s))

/-- The response to a level (30_encoding.md R86). -/
def levelWord : Level → Word
  | .low => 0x00000000
  | .high => 0x00000001

/-- PIN_SAMPLE (R115): ids above 11 execute ILLEGAL; the sample and the response are two atomic steps. -/
def execPinSample (pin : Byte) (s : State) : Host.Outcome State Fault Refusal :=
  .next (endCommand 1 (match Pin.ofByte pin with
    | some p =>
      let s1 := Actor.pri.pre s
      Actor.pri.act (respond (levelWord (sample p s1))) s1
    | none => badCmd (Instr.header (.pinSample pin)) s))

end Sys2Proof.Machine
end

