-- ==== Sys2Proof/Machine/Dispatch.lean ====
section
/-! DEFINITION. One arm per command: Execute(hdr, pay) of the command loop and its advance (45_control.md R254). -/

namespace Sys2Proof.Machine

def exec (i : Instr) (s : State) : Host.Outcome State Fault Refusal :=
  match i with
  | .nop => Sys2Proof.Machine.execNop s
  | .rdreg index => Sys2Proof.Machine.execRdreg index s
  | .pinAssert pin => Sys2Proof.Machine.execPinAssert pin s
  | .pinRelease pin => Sys2Proof.Machine.execPinRelease pin s
  | .pinSample pin => Sys2Proof.Machine.execPinSample pin s
  | .kbInit => Sys2Proof.Machine.execKbInit s
  | .kbSend code released => Sys2Proof.Machine.execKbSend code released s
  | .kbAssertReset => Sys2Proof.Machine.execKbAssertReset s
  | .kbReleaseReset => Sys2Proof.Machine.execKbReleaseReset s
  | .kbService => Sys2Proof.Machine.execKbService s
  | .kbIsCaps => Sys2Proof.Machine.execKbIsCaps s
  | .kbReport mod res keys => Sys2Proof.Machine.execKbReport mod res keys s
  | .msReport buttons dx dy => Sys2Proof.Machine.execMsReport buttons dx dy s
  | .bqInit => Sys2Proof.Machine.execBqInit s
  | .bqEnqueue r bytes => Sys2Proof.Machine.execBqEnqueue r bytes s

end Sys2Proof.Machine
end

