-- ==== Sys2Proof/Machine/Step.lean ====
section
/-! DEFINITION. One step of the machine: one turn of PRI's command loop (45_control.md R254). -/

namespace Sys2Proof.Machine

/-- The words at the command pointer that ENV has made available (20_memory.md R71). -/
def State.fetchWindow (s : State) : List Word := s.cmd.stream.drop s.cmd.cp

/-- One step: a parameter set that 00_scope.md R8 forbids is refused; a halted block gives PRI no step (45_control.md
R253); else the command at the command pointer runs, or ILLEGAL, or PRI holds. -/
def step (s : State) : Host.Outcome State Fault Refusal :=
  if !paramsLegal s.cfg then .refused .illegalParameters
  else if s.halted then haltedStep s
  else match decode s.fetchWindow with
    | .ok i => exec i s
    | .error (.unassigned w) => .next (execIllegal w s)
    | .error (.reservedBit w) => .next (execIllegal w s)
    | .error .absent => .next (holdStep s)
    | .error (.payloadAbsent _ _) => .next (holdStep s)

/-- `s` with an instruction's words stored from the command pointer on, as if ENV had made them available (log 14). -/
def State.withFetchWord (s : State) (nbits w : Nat) : State :=
  { s with cmd := { s.cmd with stream := placeWords s.cmd.cp (tableWords nbits w) s.cmd.stream } }

end Sys2Proof.Machine
end

