-- ==== Sys2Proof/Safety.lean ====
section
/-! DEFINITION. The terms in which claims about the machine are stated: quiet states, schedules without a reset, and the
invariants of 10_state.md R61. -/

namespace Sys2Proof.Machine

/-! ## Quiet states -/

/-- Nothing interferes with PRI: no turn of another agent is scheduled, no completion is pending, the block is not halted
and no command has been cut off. The values of all other fields are arbitrary. -/
structure State.Settled (s : State) : Prop where
  tape : s.tape = []
  cut : s.cut = false
  halted : s.halted = false
  pending : s.pending = false

/-- The completion handler is about to be entered (60_exceptions.md R266), with no turn of ENC or ENV scheduled. -/
structure State.Completing (s : State) : Prop where
  tape : s.tape = []
  cut : s.cut = false
  ready : s.irqReady = true

/-- The schedule holds no reset event. -/
def State.NoReset (s : State) : Prop := Turn.env .reset ∉ s.tape

/-! ## Invariants -/

/-- The memory of owned storage keeps its canonical form. -/
def State.MemoryOk (s : State) : Prop := Memory.wf s.owned.cells = true

/-- The bookkeeping of the bus queue at a step boundary (10_state.md R35, R38, R61; 43_bus_queue.md R205, R212;
60_exceptions.md R271). -/
structure State.QueueOk (s : State) : Prop where
  /-- no command is cut off between steps -/
  cut : s.cut = false
  /-- the depth is the queue's length, modulo 2^32 (R35) -/
  depth : s.bq.depth = BitVec.ofNat 32 s.bq.queue.length
  /-- no queued transaction is empty (R205) -/
  nonempty : ∀ t ∈ s.bq.queue, 0 < t.units
  /-- transactions are queued only once the controller is configured (R203) -/
  ready : s.bq.queue ≠ [] → s.bq.ready = true
  /-- a configured controller has its completion handler registered (R222) -/
  handler : s.bq.ready = true → s.bc.irqEn = true
  /-- between steps the interrupt is unmasked, unless the block has halted -/
  unmasked : s.halted = false → s.masked = false
  /-- a transaction is in flight exactly when one is queued, unless the block has halted (R38) -/
  inflight : s.halted = false → s.bq.inflight = !s.bq.queue.isEmpty
  /-- the halt leaves the oversize transaction at the head, nothing in flight and the interrupt masked (R212) -/
  haltedHead : s.halted = true →
    s.masked = true ∧ s.bq.inflight = false ∧ ∃ t rest, s.bq.queue = t :: rest ∧ s.cfg.maxXfer < t.units

/-- The handles a transaction owns. -/
def Txn.handles (t : Txn) : List Nat := t.wbuf.toList ++ t.rbuf.toList

/-- The handles of the live buffers, oldest first. -/
def Owned.handles (o : Owned) : List Nat := o.live.map Buf.handle

/-- Ownership of storage (20_memory.md R73): handles rise and are below the next fresh one; the queued transactions own
live buffers, each buffer one owner, in queue order. -/
structure State.OwnershipOk (s : State) : Prop where
  rising : s.owned.handles.Pairwise (· < ·)
  fresh : ∀ h ∈ s.owned.handles, h < s.owned.next
  owners : (s.bq.queue.flatMap Txn.handles).Sublist s.owned.handles

/-- Every bit of S.fault that 60_exceptions.md R260 does not assign reads 0. -/
def State.FaultBitsOk (s : State) : Prop := s.fault &&& ~~~faultAssigned = 0

/-- Under REJECT_AT_ENQUEUE no queued transaction is oversize, and the block is not halted (43_bus_queue.md R208). -/
structure State.RejectOk (s : State) : Prop where
  policy : s.cfg.capacityPolicy = .rejectAtEnqueue
  fits : ∀ t ∈ s.bq.queue, t.units ≤ s.cfg.maxXfer
  running : s.halted = false

/-- PRI consumes only words that are there (20_memory.md R71). -/
def State.PointerOk (s : State) : Prop := s.cmd.cp ≤ s.cmd.stream.length

end Sys2Proof.Machine
end

