-- ==== Sys2Proof/Certificates/Slice0/Obligations.lean ====
section
/-! DEFINITION. The statements for the provers, from the numbered rules of spec/, and the words they are stated in. -/

namespace Sys2Proof.Claims

open Sys2Proof.Machine

/-! ## Changes of a state, as the rules write them -/

/-- The command pointer `n` words on (30_encoding.md R84). -/
def consumed (n : Nat) (s : State) : State := { s with cmd := { s.cmd with cp := s.cmd.cp + n } }

/-- These events emitted by agent `ag`, in this order (00_scope.md R12). -/
def traced (ag : Agent) (evs : List Event) (s : State) : State :=
  { s with trace := s.trace ++ evs.map (fun e => ⟨ag, e⟩) }

/-- The response `v` made (20_memory.md R72): its RESP event is `traced` apart. -/
def responded (v : Word) (s : State) : State := { s with cmd := { s.cmd with resp := s.cmd.resp ++ [v] } }

/-- Pin `p` driven so (10_state.md R22). -/
def driven (p : Pin) (d : Drive) (s : State) : State :=
  { s with pins := { s.pins with drive := s.pins.drive.set p.id d } }

/-- Bit `n` of S.fault set (60_exceptions.md R261). -/
def faulted (n : Nat) (s : State) : State := { s with fault := s.fault ||| (1#32 <<< n) }

/-! ## The opcode table's masks and matches (30_encoding.md R87 to R93) -/

/-- (mask, match) of each row of spec/opcode_table.json. -/
def opcodeRows : List (Word × Word) :=
  [(0xFFFFFFFF, 0x01000000), (0xFF00FFFF, 0x02000000), (0xFF00FFFF, 0x10000000), (0xFF00FFFF, 0x11000000),
   (0xFF00FFFF, 0x12000000), (0xFFFFFFFF, 0x20000000), (0xFF00FEFF, 0x21000000), (0xFFFFFFFF, 0x22000000),
   (0xFFFFFFFF, 0x23000000), (0xFFFFFFFF, 0x24000000), (0xFFFFFFFF, 0x25000000), (0xFFFFFFFF, 0x26000000),
   (0xFFF80000, 0x30000000), (0xFFFFFFFF, 0x40000000), (0xFF0000FF, 0x41000000)]

/-- The header word {OP, A, 0x00, 0x00} of a pin command (30_encoding.md R89). -/
def pinWord (op a : Byte) : Word := op ++ a ++ (0 : BitVec 16)

/-! ## The keyboard wire (42_keyboard.md R162, R170) -/

/-- The closed form of WireByte: {c[6:0], c[7] OR rel}. -/
def wire (c : Byte) (rel : Bool) : Byte := c.extractLsb' 0 7 ++ BitVec.ofBool (c.getLsbD 7 || rel)

/-- The events of one frame of wire byte `w` (R170), 1 + 8 * 6 + 2 of them. -/
def frameEvents (activeLow : Bool) (w : Byte) : List Event :=
  Event.frame w ::
    ([7, 6, 5, 4, 3, 2, 1, 0].flatMap (fun i =>
      [Event.pin .kdat (if w.getLsbD i = activeLow then .asserted else .released), Event.wait .pri 20,
       Event.pin .kclk .asserted, Event.wait .pri 20, Event.pin .kclk .released, Event.wait .pri 50])) ++
    [Event.pin .kdat .released, Event.wait .pri 5000]

/-- The state after one frame of wire byte `w` (R170). -/
def framed (w : Byte) (s : State) : State :=
  driven .kdat .released (driven .kclk .released (traced .pri (frameEvents s.cfg.kdatActiveLow w)
    { s with kb := { s.kb with lastFrame := w, frameCount := s.kb.frameCount + 1 } }))

/-- The code is neither the sentinel nor caps-lock nor of the modifier trio (R171). -/
structure PlainKey (cfg : Params) (code : Byte) : Prop where
  known : code ≠ cfg.scUnknown
  notCaps : code ≠ cfg.scCapslock
  notCtrl : code ≠ cfg.scCtrl
  notLspecial : code ≠ cfg.scLspecial
  notRspecial : code ≠ cfg.scRspecial

/-- The keyboard after the modifier trio's update (R164). -/
def trioAfter (cfg : Params) (code : Byte) (rel : Bool) (k : Kb) : Kb :=
  { k with ctrl := if code = cfg.scCtrl then !rel else k.ctrl,
           lsp := if code = cfg.scLspecial then !rel else k.lsp,
           rsp := if code = cfg.scRspecial then !rel else k.rsp }

/-- The reset line after the chord is evaluated (R165). -/
def chordAfter (s : State) : State :=
  if (s.kb.ctrl && s.kb.lsp && s.kb.rsp) = true ∧ s.kb.rst = false then
    traced .pri [.pin .krst .asserted] (driven .krst .asserted { s with kb := { s.kb with rst := true } })
  else if (s.kb.ctrl && s.kb.lsp && s.kb.rsp) = false ∧ s.kb.rst = true then
    traced .pri [.pin .krst .released] (driven .krst .released { s with kb := { s.kb with rst := false } })
  else s

/-- The keys of `own`, by position, that are nonzero, do not occur in `other` and do not occur earlier in `own`
(R182, R183). -/
def newKeys (own other : List Byte) : List Byte :=
  (List.range own.length).filterMap (fun j =>
    if own.getD j 0 ≠ 0 ∧ own.getD j 0 ∉ other ∧ own.getD j 0 ∉ own.take j then some (own.getD j 0) else none)

/-- USB2SC(k) (00_scope.md R7). -/
def translated (cfg : Params) (k : Byte) : Byte := (cfg.usb2scTable.lookup k).getD cfg.scUnknown

/-- The KB_SEND commands a report stands for (R181 to R183): modifier bits 0 to 7 that changed, then the keys no longer
held, then the keys newly held. -/
def reportSends (cfg : Params) (fe : Fe) (mod : Byte) (keys : Keys) : List Instr :=
  ([0, 1, 2, 3, 4, 5, 6, 7].filterMap (fun i =>
    if mod.getLsbD i = fe.prevMod.getLsbD i then none
    else some (Instr.kbSend (cfg.modSc.toList.getD i 0) (!mod.getLsbD i)))) ++
  (newKeys (keyList fe.prevKeys) (keyList keys)).map (fun k => Instr.kbSend (translated cfg k) true) ++
  (newKeys (keyList keys) (keyList fe.prevKeys)).map (fun k => Instr.kbSend (translated cfg k) false)

/-- The state `t` is reached from `s` by these commands, one after the other. -/
inductive Runs : List Instr → State → State → Prop where
  | done (s : State) : Runs [] s s
  | next {i : Instr} {rest : List Instr} {s u t : State} (hi : exec i s = .next u) (hr : Runs rest u t) :
      Runs (i :: rest) s t

/-! ## The encoder (41_quadrature.md) -/

/-- The lines of an axis set to the row of a phase, line A first (R134). -/
def axisDriven (ax : Axis) (a q : Drive) (s : State) : State :=
  traced .enc [.pin ax.lineA a, .pin ax.lineQ q] (driven ax.lineQ q (driven ax.lineA a s))

/-- The number of lines of an axis in which two rows of the table differ. -/
def linesChanged (p q : BitVec 2) : Nat :=
  (if (phaseLines p).1 = (phaseLines q).1 then 0 else 1) + (if (phaseLines p).2 = (phaseLines q).2 then 0 else 1)

/-- The encoder's state after `n` of its own steps. -/
def encSteps (n : Nat) (s : State) : State := encStep^[n] s

/-- The number of PIN events of a line so far. -/
def pinEvents (p : Pin) (s : State) : Nat :=
  (s.trace.filter (fun e => match e.event with | .pin q _ => q == p | _ => false)).length

/-- A phase moved `n` steps in the sign of `c`, modulo 4. -/
def phaseMoved (ph : BitVec 2) (c : Byte) (n : Nat) : BitVec 2 := ph + BitVec.ofInt 2 (sign c * n)

/-! ## The bus (43_bus_queue.md, 44_transfer_engine.md) -/

/-- The state after a dispatch of `t` that does not halt (R210), started by agent `ag`. -/
def dispatched (ag : Agent) (t : Txn) (s : State) : State :=
  traced ag ((if t.r = 0 then [] else [Event.dmaStart .rx t.r.toNat]) ++
      [Event.dmaStart .tx (t.wdata.length + t.r.toNat), Event.busStart (buildUnits t) t.r.toNat])
    { s with
      bq := { s.bq with abortF := false, stopF := false, readingF := false, writingF := false,
                        cmdbuf := buildUnits t, inflight := true, dispatchCount := s.bq.dispatchCount + 1 }
      dma := { tx := ⟨true, BitVec.ofNat 16 (t.wdata.length + t.r.toNat),
                      some ⟨.memoryToPort, 16, .transmitRequest, true, false⟩, none⟩,
               rx := if t.r = 0 then s.dma.rx
                     else ⟨true, BitVec.ofNat 16 t.r.toNat, some ⟨.portToMemory, 8, .receiveRequest, true, false⟩, t.rbuf⟩ } }

/-- The state after a dispatch of `t` that halts the block (R212). -/
def haltedBy (ag : Agent) (t : Txn) (s : State) : State :=
  traced ag [.log (.capacity (t.wdata.length + t.r.toNat)), .halt] (faulted 31 (faulted 0 s))

/-- The state after bus initialisation that found the bus free (R221, R222). -/
def configured (ag : Agent) (s : State) : State :=
  { traced ag [.pin .scl .released, .pin .sda .released, .busCfg s.cfg.busClkHz s.cfg.busTargetAddr]
      (driven .sda .released (driven .scl .released s)) with
    pins := { drive := (s.pins.drive.set 10 .released).set 11 .released, funcScl := .busctrl, funcSda := .busctrl,
              pullScl := true, pullSda := true }
    bc := { s.bc with irqEn := true }
    bq := { s.bq with ready := true } }

/-- The events of `k` recovery clock cycles (R221). -/
def recoveryEvents (half : Nat) : Nat → List Event
  | 0 => []
  | k + 1 => [.pin .scl .asserted, .wait .pri half, .pin .scl .released, .wait .pri half] ++ recoveryEvents half k

/-- The state after bus initialisation by agent `ag` that found the bus stuck and made `k` recovery cycles (R221,
R222). -/
def recovered (ag : Agent) (k : Nat) (freed : Bool) (s : State) : State :=
  { traced ag ([.pin .scl .released, .pin .sda .released, .log .busStuck] ++ recoveryEvents s.cfg.tRecoveryHalf k ++
        (if freed then [] else [.log .recoveryFailed]) ++ [.busCfg s.cfg.busClkHz s.cfg.busTargetAddr])
      (if freed then faulted 2 s else faulted 3 (faulted 2 s)) with
    pins := { drive := (s.pins.drive.set 10 .released).set 11 .released, funcScl := .busctrl, funcSda := .busctrl,
              pullScl := true, pullSda := true }
    bc := { s.bc with irqEn := true }
    bq := { s.bq with ready := true } }

/-- The state after the handler's status read (R214): the transfer is over, the status cleared, the two named flags any
value. -/
def statusRead (s : State) : State :=
  { s with
    bc := { s.bc with stAbort := false, stStop := false, stOther := false }
    bq := { s.bq with inflight := false, abortF := s.bc.stAbort, stopF := s.bc.stStop,
                      readingF := Config.freeFlag s.draws, writingF := Config.freeFlag (s.draws + 1) }
    draws := s.draws + 2 }

/-- The state after the head `t` is popped and freed (R216). -/
def popped (t : Txn) (rest : List Txn) (s : State) : State :=
  { s with
    bq := { s.bq with queue := rest, depth := s.bq.depth - 1 }
    owned := (s.owned.freeOpt t.wbuf).freeOpt t.rbuf }

/-- The buffers of `t` are gone, and every other buffer keeps its size and its bytes, of which there are at most 255
(20_memory.md R73, R216). -/
structure Freed (t : Txn) (s u : State) : Prop where
  gone : ∀ h ∈ t.handles, h ∉ u.owned.handles
  sizes : ∀ h, h ∉ t.handles → u.owned.sizeOf? h = s.owned.sizeOf? h
  bytes : ∀ h, h ∉ t.handles → ∀ k < 256, u.owned.read h k = s.owned.read h k

/-- The state after the next transaction, if any, is dispatched by ISR (R217); the mask is what it was. -/
def nextDispatched (rest : List Txn) (s : State) : State :=
  match rest with
  | [] => s
  | t :: _ => dispatched .isr t s

/-- The state after the channels that are busy are aborted, TX first (R215). -/
def channelsAborted (s : State) : State :=
  { traced .isr ((if s.dma.tx.busy then [.dmaAbort .tx] else []) ++ (if s.dma.rx.busy then [.dmaAbort .rx] else [])) s with
    dma := { tx := { s.dma.tx with busy := false }, rx := { s.dma.rx with busy := false } } }

/-- The state after the fault path's first lines (R215). -/
def faultCounted (s : State) : State :=
  traced .isr [.log (.busFault s.bq.abortF s.bq.stopF)]
    (faulted 1 { s with bq := { s.bq with faultCount := s.bq.faultCount + 1 } })

/-- The next transaction fits a single transfer (R211). -/
def nextFits (cfg : Params) : List Txn → Prop
  | [] => True
  | t :: _ => t.wdata.length + t.r.toNat ≤ cfg.maxXfer

/-- ENV raises {st_stop}, and the handler runs (R225). -/
def completeOnce (s : State) : State := completionHandler (raiseStatus false true false s)

/-- The events of dispatching these transactions one after the other (R210). -/
def dispatchEvents (ts : List Txn) : List Event :=
  ts.flatMap (fun t => (if t.r = 0 then [] else [Event.dmaStart .rx t.r.toNat]) ++
    [Event.dmaStart .tx (t.wdata.length + t.r.toNat), Event.busStart (buildUnits t) t.r.toNat])

/-- The words of a BQ_ENQUEUE with `w` write bytes: 1 + ceil(w / 4) (30_encoding.md R84). -/
def enqueueLength (w : Nat) : Nat := 1 + (w + 3) / 4

/-- BQ_ENQUEUE is accepted: ready, not empty, not rejected for its size, and there is room (R203, R204, R205, R208). -/
structure Accepted (s : State) (w r : Nat) : Prop where
  ready : s.bq.ready = true
  nonempty : w + r ≠ 0
  size : s.cfg.capacityPolicy = .haltAtDispatch ∨ w + r ≤ s.cfg.maxXfer
  room : ∀ m, s.cfg.qmax = some m → s.bq.depth.toNat < m

/-! ## Holds of PRI -/

/-- A word PRI needs is absent: a header, or a word of the payload (20_memory.md R71). -/
def Waiting (s : State) : Prop :=
  decode s.fetchWindow = .error .absent ∨ ∃ need have_, decode s.fetchWindow = .error (.payloadAbsent need have_)

/-! ## Whole runs of a command -/

/-- The events of PRI and ISR. -/
def mainTrace (s : State) : List TraceEntry := s.trace.filter (fun e => e.agent != .enc)

/-- The events of PRI. -/
def priTrace (s : State) : List TraceEntry := s.trace.filter (fun e => e.agent == .pri)

/-- The entries of one frame of wire byte `w`, all PRI's (R170). -/
def frameEntries (activeLow : Bool) (w : Byte) : List TraceEntry := (frameEvents activeLow w).map (fun e => ⟨.pri, e⟩)

/-- Every FRAME event begins a whole frame, with no other entry inside it (42_keyboard.md R169). -/
def WholeFrames (activeLow : Bool) (tr : List TraceEntry) : Prop :=
  ∀ (before after : List TraceEntry) (ag : Agent) (w : Byte), tr = before ++ ⟨ag, .frame w⟩ :: after →
    frameEntries activeLow w <+: ⟨ag, .frame w⟩ :: after

/-- The microseconds PRI has waited at least. -/
def priWaits (s : State) : Nat :=
  ((priTrace s).map (fun e => match e.event with | .wait _ us => us | _ => 0)).sum

/-- The same state with nothing scheduled and nothing pending. -/
def quieted (s : State) : State :=
  { s with tape := [], bc := { s.bc with stAbort := false, stStop := false, stOther := false } }

/-- The number of responses a command makes (20_memory.md R72). -/
def answers : Instr → Nat
  | .rdreg _ => 1
  | .kbIsCaps => 1
  | .pinSample pin => if pin.toNat ≤ 11 then 1 else 0
  | .nop | .pinAssert _ | .pinRelease _ | .kbInit | .kbSend _ _ | .kbAssertReset | .kbReleaseReset | .kbService
  | .kbReport _ _ _ | .msReport _ _ _ | .bqInit | .bqEnqueue _ _ => 0

end Sys2Proof.Claims

open Sys2Proof Sys2Proof.Machine Sys2Proof.Claims

/-! ## Encoding -/

/-- Decode and encode agree for every well-formed command, with every operand at every value, whatever follows. -/
def Obligations.DecodeInvertsEncode : Prop :=
  ∀ (i : Instr) (rest : List Word), i.wellFormed = true → decode (encode i ++ rest) = .ok i

/-- R83, R84, with the masks of R87 to R93: a header word is illegal exactly when it matches no row of the opcode table,
and the decoder rejects exactly those, whatever follows them. -/
def Obligations.HeaderIsIllegalIffNoRowMatches : Prop :=
  (∀ w : Word, isIllegal w = true ↔ ∀ row ∈ opcodeRows, w &&& row.1 ≠ row.2) ∧
  (∀ (w : Word) (pay : List Word),
    isIllegal w = true ↔ decode (w :: pay) = .error (.unassigned w) ∨ decode (w :: pay) = .error (.reservedBit w))

/-- R84: when the stream ends inside a command, the decoder waits for the missing words. -/
def Obligations.CutCommandIsAwaited : Prop :=
  ∀ (i : Instr) (k : Nat), i.wellFormed = true → k < i.words →
    decode ((encode i).take k) = .error .absent ∨
      ∃ need have_, decode ((encode i).take k) = .error (.payloadAbsent need have_)

/-- Words written out from R82 to R93 decode to the commands they stand for. -/
def Obligations.WrittenWordsDecode : Prop :=
  decode [0x01000000] = .ok .nop ∧
  decode [0x020B0000] = .ok (.rdreg 0x0B) ∧
  decode [0x100A0000] = .ok (.pinAssert 10) ∧
  decode [0x21600100] = .ok (.kbSend 0x60 true) ∧
  decode [0x26000000, 0x0504FF02, 0x09080706] = .ok (.kbReport 0x02 0xFF ⟨4, 5, 6, 7, 8, 9⟩) ∧
  decode [0x3005FB05] = .ok (.msReport 5 0xFB 0x05) ∧
  decode [0x41050200, 0x04030201, 0xAABBCC05] = .ok (.bqEnqueue 2 [1, 2, 3, 4, 5])

/-! ## The step -/

/-- R254: a step runs the command at the command pointer; `exec` holds the advance of the pointer too (log 28). -/
def Obligations.StepRunsTheDecodedCommand : Prop :=
  ∀ (s : State) (i : Instr), paramsLegal s.cfg = true → s.halted = false → decode s.fetchWindow = .ok i →
    step s = exec i s

/-- R252: an illegal word sets F_BAD_CMD, is logged, and one word is consumed. -/
def Obligations.StepSkipsAnIllegalWord : Prop :=
  ∀ (s : State) (w : Word) (rest : List Word), paramsLegal s.cfg = true → s.Settled → s.fetchWindow = w :: rest →
    (∀ row ∈ opcodeRows, w &&& row.1 ≠ row.2) →
    step s = .next (consumed 1 (traced .pri [.log (.badCmd w)] (faulted 6 s)))

/-- R71: PRI holds with no step while a word it needs is absent; nothing of PRI's own changes. That the machine's step
is then a next state is the model's choice (log 2). The six lines of 40_pin_driver.md R116 are PRI's. -/
def Obligations.HoldTakesNoPriStep : Prop :=
  ∀ (s : State), paramsLegal s.cfg = true → s.halted = false → s.NoReset → Waiting s →
    ∃ t, step s = .next t ∧ t.cmd.cp = s.cmd.cp ∧ t.cmd.resp = s.cmd.resp ∧ t.kb = s.kb ∧ t.fe = s.fe ∧
      priTrace t = priTrace s ∧
      ∀ p ∈ [Pin.kclk, .kdat, .krst, .mb1, .mb2, .mb3], t.pins.drive[p.id] = s.pins.drive[p.id]

/-- R253: a halted block consumes no word, makes no response and emits nothing; only ENC and ENV may still act, in the
turns the schedule gives them (log 12). -/
def Obligations.HaltedBlockTakesNoStep : Prop :=
  ∀ (s t : State), s.halted = true → s.NoReset → step s = .next t →
    t.cmd.cp = s.cmd.cp ∧ t.cmd.resp = s.cmd.resp ∧ t.kb = s.kb ∧ t.fe = s.fe ∧ t.bq = s.bq ∧ t.masked = s.masked ∧
      t.fault = s.fault ∧ mainTrace t = mainTrace s

/-- R8: a parameter set that breaks a constraint is refused, by `step` (log 19); this hardware's set is not. -/
def Obligations.IllegalParametersAreRefused : Prop :=
  (∀ s : State,
    (¬ [s.cfg.scUnknown, s.cfg.scCapslock, s.cfg.scCtrl, s.cfg.scLspecial, s.cfg.scRspecial, s.cfg.scPowerup,
        s.cfg.scPowerdown].Nodup ∨ s.cfg.encDivisor = 0 ∨ s.cfg.maxXfer = 0 ∨ s.cfg.qmax = some 0 ∨
      s.cfg.scCapslock.getLsbD 7 = true ∨ s.cfg.scCtrl.getLsbD 7 = true ∨ s.cfg.scLspecial.getLsbD 7 = true ∨
      s.cfg.scRspecial.getLsbD 7 = true ∨ s.cfg.scPowerup.getLsbD 7 = false ∨ s.cfg.scPowerdown.getLsbD 7 = false) →
    step s = .refused .illegalParameters) ∧
  paramsLegal State.reset.cfg = true

/-- R60: every field of the record S after reset. -/
def Obligations.ResetValues : Prop :=
  State.reset.pins = ⟨Vector.replicate 12 .released, .gpio, .gpio, false, false⟩ ∧
  State.reset.kb = ⟨false, false, false, false, false, false, 0x00, 0⟩ ∧
  State.reset.fe = ⟨0x00, ⟨0x00, 0x00, 0x00, 0x00, 0x00, 0x00⟩⟩ ∧
  State.reset.mv = ⟨0, 0, false⟩ ∧
  State.reset.enc = ⟨.clr, 0, 0, 0, 0⟩ ∧
  State.reset.bq = ⟨[], 0, false, false, false, false, false, false, [], 0, 0⟩ ∧
  State.reset.bc = ⟨false, false, false, false⟩ ∧
  (State.reset.dma.tx.busy = false ∧ State.reset.dma.rx.busy = false ∧ State.reset.dma.tx.len = 0 ∧
    State.reset.dma.rx.len = 0) ∧
  State.reset.masked = false ∧ State.reset.fault = 0x00000000 ∧ State.reset.halted = false ∧
  State.reset.cmd.cp = 0 ∧ State.reset.cmd.resp = []

/-- R290: the reset event, in any state and at any point of a command, is the reset state but for what is not the
block's: the parameters, ENV's levels, the observed trace, the draws and the schedule; the command in progress is cut
off. What is kept is the model's choice (log 13). -/
def Obligations.ResetEventRestoresReset : Prop :=
  ∀ s : State,
    { envStep .reset s with cfg := State.reset.cfg, ext := State.reset.ext, trace := [], draws := 0, tape := [],
                            cut := false } = State.reset ∧
    (envStep .reset s).cfg = s.cfg ∧ (envStep .reset s).trace = s.trace ∧ (envStep .reset s).tape = s.tape

/-- The parameters are fixed for a run (10_state.md R20). -/
def Obligations.ParametersAreFixed : Prop :=
  ∀ s t : State, step s = .next t → t.cfg = s.cfg

/-! ## Control and pin commands -/

/-- R250, R175: the words of NOP and KB_SERVICE, and that both change the command pointer and nothing else. -/
def Obligations.NopAndServiceOnlyAdvance : Prop :=
  (∀ pay : List Word, decode (0x01000000 :: pay) = .ok .nop ∧ decode (0x24000000 :: pay) = .ok .kbService) ∧
  ∀ s : State, s.Settled → exec .nop s = .next (consumed 1 s) ∧ exec .kbService s = .next (consumed 1 s)

/-- R251: RDREG responds with the register view, for every index, and changes no other state. -/
def Obligations.RdregResponds : Prop :=
  ∀ (s : State) (i : Byte), s.Settled →
    exec (.rdreg i) s = .next (consumed 1 (traced .pri [.resp (regView s i)] (responded (regView s i) s)))

/-- R46 to R59: the fields of the register view, with the codes of R31. -/
def Obligations.RegisterViewFields : Prop :=
  ∀ s : State,
    (∀ k : Nat, (regView s 0x00).getLsbD k =
      [s.kb.caps, s.kb.ctrl, s.kb.lsp, s.kb.rsp, s.kb.rst, s.kb.initDone].getD k false) ∧
    (regView s 0x01).toNat = s.kb.lastFrame.toNat ∧
    regView s 0x02 = s.kb.frameCount ∧
    (regView s 0x03).toNat = s.fe.prevMod.toNat ∧
    (regView s 0x04).toNat = s.enc.phx.toNat + 4 * s.enc.phy.toNat + 16 *
      (match s.enc.state with | .clr => 0 | .takex => 1 | .takey => 2 | .run => 3 | .check => 4) ∧
    (regView s 0x05).toNat = s.enc.remx.toNat + 256 * s.enc.remy.toNat ∧
    (regView s 0x06).toNat = s.mv.dx.toNat + 256 * s.mv.dy.toNat + 65536 * s.mv.flag.toNat ∧
    (∀ k : Nat, (regView s 0x07).getLsbD k =
      [s.bq.ready, s.bq.inflight, s.bq.abortF, s.bq.stopF, s.bq.readingF, s.bq.writingF, s.bc.irqEn, s.masked,
       s.dma.tx.busy, s.dma.rx.busy, s.bc.stAbort, s.bc.stStop, s.bc.stOther].getD k false) ∧
    regView s 0x08 = s.bq.depth ∧
    regView s 0x09 = s.bq.dispatchCount ∧
    regView s 0x0A = s.bq.faultCount ∧
    regView s 0x0B = s.fault ∧
    (∀ p : Fin 12, (regView s 0x0C).getLsbD p.val = (s.pins.drive[p] == .asserted)) ∧
    (∀ k : Nat, 12 ≤ k → k < 16 → (regView s 0x0C).getLsbD k = false) ∧
    (∀ k : Nat, 16 ≤ k → (regView s 0x0C).getLsbD k =
      [s.pins.funcScl == .busctrl, s.pins.funcSda == .busctrl, s.pins.pullScl, s.pins.pullSda].getD (k - 16) false) ∧
    (∀ i : Byte, 0x0C < i.toNat → regView s i = 0)

/-- R113, R114: PIN_ASSERT and PIN_RELEASE of pins 0 to 9. -/
def Obligations.PinCommandsDriveTheirPin : Prop :=
  ∀ (s : State) (id : Byte) (p : Pin), s.Settled → id.toNat ≤ 9 → p.id.val = id.toNat →
    exec (.pinAssert id) s = .next (consumed 1 (traced .pri [.pin p .asserted] (driven p .asserted s))) ∧
    exec (.pinRelease id) s = .next (consumed 1 (traced .pri [.pin p .released] (driven p .released s)))

/-- R113 to R115, R252: the ids each pin command refuses execute ILLEGAL, with the header word in the log. -/
def Obligations.PinCommandsRefuseOtherIds : Prop :=
  ∀ (s : State) (id : Byte), s.Settled →
    (10 ≤ id.toNat →
      exec (.pinAssert id) s = .next (consumed 1 (traced .pri
        [.log (.badCmd (pinWord 0x10 id))] (faulted 6 s))) ∧
      exec (.pinRelease id) s = .next (consumed 1 (traced .pri
        [.log (.badCmd (pinWord 0x11 id))] (faulted 6 s)))) ∧
    (12 ≤ id.toNat →
      exec (.pinSample id) s = .next (consumed 1 (traced .pri
        [.log (.badCmd (pinWord 0x12 id))] (faulted 6 s))))

/-- R112, R115: PIN_SAMPLE answers 0 for a pin the block drives low, and else the external level (log 6). -/
def Obligations.PinSampleAnswersTheLevel : Prop :=
  ∀ (s : State) (id : Byte) (p : Pin), s.Settled → p.id.val = id.toNat →
    exec (.pinSample id) s = .next (
      let gpio := (p = .scl → s.pins.funcScl = .gpio) ∧ (p = .sda → s.pins.funcSda = .gpio)
      let v : Word := if gpio ∧ s.pins.drive[p.id] = .asserted then 0 else if s.ext[p.id] = .high then 1 else 0
      consumed 1 (traced .pri [.resp v] (responded v s)))

/-! ## Keyboard -/

/-- R162: the closed form of WireByte and its three consequences. -/
def Obligations.WireByteClosedForm : Prop :=
  (∀ (c : Byte) (rel : Bool), wireByte c rel = wire c rel) ∧
  (∀ c : Byte, c.toNat ≤ 0x7F → wireByte c true = wireByte c false ||| 0x01 ∧ (wireByte c false).getLsbD 0 = false) ∧
  (∀ c : Byte, 0x80 ≤ c.toNat → wireByte c true = wireByte c false ∧ (wireByte c false).getLsbD 0 = true) ∧
  wireByte 0x80 false = 0x01 ∧ wireByte 0x00 true = 0x01

/-- R171, R172: KB_SEND of a key that is neither the sentinel nor caps-lock nor of the trio sends one frame. -/
def Obligations.KbSendSendsOneFrame : Prop :=
  ∀ (s : State) (code : Byte) (rel : Bool), s.Settled → PlainKey s.cfg code →
    exec (.kbSend code rel) s = .next (consumed 1 (framed (wire code rel) s))

/-- R171 step 1: the sentinel is refused, in both directions, with the fault bit and the log alone. -/
def Obligations.KbSendRefusesTheSentinel : Prop :=
  ∀ (s : State) (rel : Bool), s.Settled →
    exec (.kbSend s.cfg.scUnknown rel) s =
      .next (consumed 1 (traced .pri [.log (.scRefused s.cfg.scUnknown)] (faulted 4 s)))

/-- R163: a caps-lock press flips the toggle and goes out with the toggle's previous state as its direction; a
caps-lock release does nothing. -/
def Obligations.CapsLockToggles : Prop :=
  ∀ s : State, s.Settled → paramsLegal s.cfg = true →
    exec (.kbSend s.cfg.scCapslock false) s =
      .next (consumed 1 (framed (wire s.cfg.scCapslock s.kb.caps) { s with kb := { s.kb with caps := !s.kb.caps } })) ∧
    exec (.kbSend s.cfg.scCapslock true) s = .next (consumed 1 s)

/-- R164, R165: a trio key updates its boolean, the chord then asserts or releases the reset line, once, and the frame
goes out after that. -/
def Obligations.TrioKeyDrivesTheResetLine : Prop :=
  ∀ (s : State) (code : Byte) (rel : Bool), s.Settled → paramsLegal s.cfg = true →
    (code = s.cfg.scCtrl ∨ code = s.cfg.scLspecial ∨ code = s.cfg.scRspecial) →
    exec (.kbSend code rel) s =
      .next (consumed 1 (framed (wire code rel) (chordAfter { s with kb := trioAfter s.cfg code rel s.kb })))

/-- R174: KB_INIT idles the two lines, waits 1 s, announces power-up, waits 200 ms, announces power-down. -/
def Obligations.KbInitAnnounces : Prop :=
  ∀ s : State, s.Settled → paramsLegal s.cfg = true →
    exec .kbInit s =
      .next (consumed 1 (
        let s1 := traced .pri [.pin .kclk .released, .pin .kdat .released, .wait .pri 1000000]
          (driven .kdat .released (driven .kclk .released s))
        let s2 := framed (wire s.cfg.scPowerup false) s1
        let s3 := framed (wire s.cfg.scPowerdown false) (traced .pri [.wait .pri 200000] s2)
        { s3 with kb := { s3.kb with initDone := true } }))

/-- R176, R177: the reset commands drive KRST and record it, whatever was recorded before. -/
def Obligations.ResetCommandsDriveKrst : Prop :=
  ∀ s : State, s.Settled →
    exec .kbAssertReset s = .next (consumed 1 (traced .pri [.pin .krst .asserted]
      (driven .krst .asserted { s with kb := { s.kb with rst := true } }))) ∧
    exec .kbReleaseReset s = .next (consumed 1 (traced .pri [.pin .krst .released]
      (driven .krst .released { s with kb := { s.kb with rst := false } })))

/-- R178: the word of KB_IS_CAPS, and that it answers the toggle. -/
def Obligations.KbIsCapsAnswersTheToggle : Prop :=
  (∀ pay : List Word, decode (0x25000000 :: pay) = .ok .kbIsCaps) ∧
  ∀ s : State, s.Settled →
    exec .kbIsCaps s = .next (
      let v : Word := if s.kb.caps then 0x00000001 else 0x00000000
      consumed 1 (traced .pri [.resp v] (responded v s)))

/-- R181 to R185: KB_REPORT does what the KB_SEND commands of its differences do, in their order, stores the report,
and consumes its own three words. -/
def Obligations.KbReportSendsTheDifferences : Prop :=
  ∀ (s : State) (mod res : Byte) (keys : Keys), s.Settled →
    ∃ t, Runs (reportSends s.cfg s.fe mod keys) s t ∧
      exec (.kbReport mod res keys) s =
        .next { t with fe := ⟨mod, keys⟩, cmd := { s.cmd with cp := s.cmd.cp + 3 } }

/-- R169, R180: under every schedule and for every command, each frame the command sends stands whole among the events of
PRI and ISR: the completion handler never splits one. KB_SEND of any code that is neither refused nor dropped (R171)
sends one; that of a caps-lock press goes out with the toggle as its direction (R163). -/
def Obligations.FrameIsNeverSplit : Prop :=
  ∀ (i : Instr) (s t : State), s.cut = false → s.NoReset → exec i s = .next t → t.halted = false →
    (∃ new : List TraceEntry, mainTrace t = mainTrace s ++ new ∧ WholeFrames s.cfg.kdatActiveLow new) ∧
    (∀ (code : Byte) (rel : Bool), i = .kbSend code rel → code ≠ s.cfg.scUnknown →
        ¬ (code = s.cfg.scCapslock ∧ rel = true) →
      ∃ before after : List TraceEntry, mainTrace t = mainTrace s ++ before ++
        frameEntries s.cfg.kdatActiveLow (wire code (if code = s.cfg.scCapslock then s.kb.caps else rel)) ++ after)

/-- R313: under every schedule KB_INIT keeps PRI waiting for 1 211 440 us, and KB_SEND of a plain key for 5720 us. -/
def Obligations.KeyboardWaitsAddUp : Prop :=
  ∀ s t : State, s.cut = false → s.NoReset → paramsLegal s.cfg = true → t.halted = false →
    (exec .kbInit s = .next t → priWaits t = priWaits s + 1211440) ∧
    (∀ (code : Byte) (rel : Bool), PlainKey s.cfg code → exec (.kbSend code rel) s = .next t →
      priWaits t = priWaits s + 5720)

/-- R62, R116, R273: what the other agents do during a command never changes what the command does to the keyboard's
state. -/
def Obligations.ScheduleCannotChangeTheKeyboard : Prop :=
  ∀ (i : Instr) (s t u : State), s.cut = false → s.NoReset → exec i s = .next t → exec i (quieted s) = .next u →
    t.halted = false → u.halted = false → t.kb = u.kb ∧ t.fe = u.fe

/-! ## Mouse and encoder -/

/-- R131 to R133: MS_REPORT drives the three button lines and, for a nonzero motion, overwrites the vector. -/
def Obligations.MsReportAppliesButtonsAndMotion : Prop :=
  ∀ (s : State) (b : BitVec 3) (dx dy : Byte), s.Settled →
    exec (.msReport b dx dy) s = .next (consumed 1 (
      let lvl := fun i : Nat => if b.getLsbD i then Drive.asserted else Drive.released
      let s1 := traced .pri [.pin .mb1 (lvl 0), .pin .mb2 (lvl 1), .pin .mb3 (lvl 2)]
        (driven .mb3 (lvl 2) (driven .mb2 (lvl 1) (driven .mb1 (lvl 0) s)))
      if dx = 0 ∧ dy = 0 then s1 else { s1 with mv := ⟨dx, dy, true⟩ }))

/-- R135 to R137, R141: the encoder clears the flag, takes and clears dx, takes and clears dy, one field a step; after an
iteration a set flag makes it start again and a clear one lets it go on. Nothing else changes. -/
def Obligations.EncoderHandoffSteps : Prop :=
  ∀ s : State,
    (s.enc.state = .clr → encStep s =
      { s with mv := { s.mv with flag := false }, enc := { s.enc with state := .takex } }) ∧
    (s.enc.state = .takex → encStep s =
      { s with mv := { s.mv with dx := 0 }, enc := { s.enc with state := .takey, remx := s.mv.dx } }) ∧
    (s.enc.state = .takey → encStep s =
      { s with mv := { s.mv with dy := 0 }, enc := { s.enc with state := .run, remy := s.mv.dy } }) ∧
    (s.enc.state = .check → encStep s =
      { s with enc := { s.enc with state := if s.mv.flag then .clr else .run } })

/-- R138 to R140: one iteration of the encoder, each axis by itself: a nonzero remainder that the divisor divides moves
the phase by one and drives both lines; every nonzero remainder comes one nearer to zero; then 300 us. -/
def Obligations.EncoderIteration : Prop :=
  ∀ s : State, s.enc.state = .run →
    (s.enc.remx = 0 → s.enc.remy = 0 → encStep s = { s with enc := { s.enc with state := .clr } }) ∧
    ((s.enc.remx ≠ 0 ∨ s.enc.remy ≠ 0) →
      let moves := fun c : Byte => c ≠ 0 ∧ (s.cfg.encDivisor : Int) ∣ c.toInt
      let ph := fun (p : BitVec 2) (c : Byte) => if c.toInt < 0 then p - 1 else p + 1
      let nearer := fun c : Byte => if c.toInt < 0 then c + 1 else if c.toInt = 0 then c else c - 1
      let sx := if moves s.enc.remx then
          axisDriven .x (phaseLines (ph s.enc.phx s.enc.remx)).1 (phaseLines (ph s.enc.phx s.enc.remx)).2 s else s
      let sy := if moves s.enc.remy then
          axisDriven .y (phaseLines (ph s.enc.phy s.enc.remy)).1 (phaseLines (ph s.enc.phy s.enc.remy)).2 sx else sx
      encStep s = { traced .enc [.wait .enc 300] sy with
        enc := { state := .check, remx := nearer s.enc.remx, remy := nearer s.enc.remy,
                 phx := if moves s.enc.remx then ph s.enc.phx s.enc.remx else s.enc.phx,
                 phy := if moves s.enc.remy then ph s.enc.phy s.enc.remy else s.enc.phy } })

/-- R134, R139, 10_state.md R61: the rows of the phase table; adjacent phases differ in exactly one line; no step of the
encoder moves a phase by more than one, and none moves it outside an iteration. -/
def Obligations.PhaseNeverSkips : Prop :=
  phaseLines 0 = (.released, .released) ∧ phaseLines 1 = (.released, .asserted) ∧
  phaseLines 2 = (.asserted, .asserted) ∧ phaseLines 3 = (.asserted, .released) ∧
  (∀ p : BitVec 2, linesChanged p (p + 1) = 1 ∧ linesChanged p (p - 1) = 1) ∧
  ∀ s : State,
    ((encStep s).enc.phx = s.enc.phx ∨ (encStep s).enc.phx = s.enc.phx + 1 ∨ (encStep s).enc.phx = s.enc.phx - 1) ∧
    ((encStep s).enc.phy = s.enc.phy ∨ (encStep s).enc.phy = s.enc.phy + 1 ∨ (encStep s).enc.phy = s.enc.phy - 1) ∧
    (s.enc.state ≠ .run → (encStep s).enc.phx = s.enc.phx ∧ (encStep s).enc.phy = s.enc.phy)

/-- R142: a vector (x, y) with no fresh motion runs to its end in max(|x|, |y|) iterations of two steps each; the phases
have then moved floor(|x| / D) and floor(|y| / D) steps, each with one PIN event on either line of its axis, and ENC has
waited 300 us for each iteration. -/
def Obligations.VectorRunsToCompletion : Prop :=
  ∀ s : State, s.enc.state = .run → s.mv.flag = false → 1 ≤ s.cfg.encDivisor →
    let x := s.enc.remx.toInt.natAbs
    let y := s.enc.remy.toInt.natAbs
    let t := encSteps (2 * max x y) s
    t.enc = { state := .run, remx := 0, remy := 0,
              phx := phaseMoved s.enc.phx s.enc.remx (x / s.cfg.encDivisor),
              phy := phaseMoved s.enc.phy s.enc.remy (y / s.cfg.encDivisor) } ∧
    t.mv = s.mv ∧
    (pinEvents .mxa t = pinEvents .mxa s + x / s.cfg.encDivisor ∧
      pinEvents .mxq t = pinEvents .mxq s + x / s.cfg.encDivisor ∧
      pinEvents .mya t = pinEvents .mya s + y / s.cfg.encDivisor ∧
      pinEvents .myq t = pinEvents .myq s + y / s.cfg.encDivisor) ∧
    (t.trace.filter (fun e => e.event == .wait .enc 300)).length =
      (s.trace.filter (fun e => e.event == .wait .enc 300)).length + max x y

/-- R133, 70_reset_and_hazards.md R304 (b): when ENC takes both fields between the vector's stores and the flag's store,
the flag is set over an empty vector, and ENC's next check abandons the motion it took. -/
def Obligations.HandoffMayLoseMotion : Prop :=
  ∀ (s : State) (dx dy : Byte), ¬ (dx = 0 ∧ dy = 0) → s.cut = false → s.halted = false → s.pending = false →
    s.enc.state = .takex → s.tape = [.main, .main, .main, .main, .main, .enc, .enc] →
    ∃ t, exec (.msReport 0 dx dy) s = .next t ∧ t.mv = ⟨0, 0, true⟩ ∧
      t.enc = { s.enc with state := .run, remx := dx, remy := dy } ∧
      (encSteps 2 t).enc.state = .clr ∧ (encSteps 4 t).enc.remx = 0 ∧ (encSteps 5 t).enc.remy = 0

/-! ## Bus initialisation -/

/-- R221, R222, R224: BQ_INIT with no transaction queued and both lines HIGH. -/
def Obligations.BqInitConfigures : Prop :=
  ∀ s : State, s.Settled → s.bq.depth = 0 → s.ext[10] = .high → s.ext[11] = .high →
    exec .bqInit s = .next (consumed 1 (configured .pri s))

/-- R221: a stuck bus is toggled until SDA is HIGH, at most 9 cycles, and configuration follows whatever the outcome:
with the levels held (1 cycle, or 9 and failure), and with SDA let go by ENV so that the sample of cycle `k` is the first
to read HIGH. The schedule of the last clause counts atomic steps (log 1): the sample of cycle `k` is number 9 + 5 * k. -/
def Obligations.BqInitRecovers : Prop :=
  (∀ s : State, s.Settled → s.bq.depth = 0 →
    (s.ext[10] = .low → s.ext[11] = .high → exec .bqInit s = .next (consumed 1 (recovered .pri 1 true s))) ∧
    (s.ext[11] = .low → exec .bqInit s = .next (consumed 1 (recovered .pri 9 false s)))) ∧
  (∀ (s : State) (n k : Nat), s.cut = false → s.halted = false → s.pending = false → s.bq.depth = 0 →
    s.ext[11] = .low → 1 ≤ k → k ≤ 9 → 4 + 5 * k ≤ n → n ≤ 8 + 5 * k →
    s.tape = List.replicate n .main ++ [.env (.level .sda .high)] →
    exec .bqInit s =
      .next (consumed 1 (recovered .pri k true { s with tape := [], ext := s.ext.set 11 .high })))

/-! ## Enqueue and dispatch -/

/-- R203, R205, R208, R224: BQ_INIT while transactions are queued, and BQ_ENQUEUE before initialisation, or of nothing, or
over-size under REJECT_AT_ENQUEUE, raise their fault, consume their whole length, and do nothing else. -/
def Obligations.BusCommandsAreRefused : Prop :=
  ∀ (s : State) (r : Byte) (bytes : List Byte), s.Settled →
    (s.bq.depth ≠ 0 → exec .bqInit s = .next (consumed 1 (traced .pri [.log (.badCmd 0x40)] (faulted 6 s)))) ∧
    ((s.bq.ready = false ∨ bytes.length + r.toNat = 0) →
      exec (.bqEnqueue r bytes) s =
        .next (consumed (enqueueLength bytes.length) (traced .pri [.log (.badCmd 0x41)] (faulted 6 s)))) ∧
    (s.bq.ready = true → bytes.length + r.toNat ≠ 0 → s.cfg.capacityPolicy = .rejectAtEnqueue →
        s.cfg.maxXfer < bytes.length + r.toNat →
      exec (.bqEnqueue r bytes) s =
        .next (consumed (enqueueLength bytes.length)
          (traced .pri [.log (.capacity (bytes.length + r.toNat))] (faulted 0 s))))

/-- R204: BQ_ENQUEUE holds while the depth has reached QMAX: PRI takes no step, the command stays at the command
pointer, and the step is ENC's (log 2, log 10). -/
def Obligations.EnqueueHoldsWhenFull : Prop :=
  ∀ (s : State) (r : Byte) (bytes : List Byte) (m : Nat), s.Settled → s.bq.ready = true →
    bytes.length + r.toNat ≠ 0 → (s.cfg.capacityPolicy = .haltAtDispatch ∨ bytes.length + r.toNat ≤ s.cfg.maxXfer) →
    s.cfg.qmax = some m → m ≤ s.bq.depth.toNat →
    exec (.bqEnqueue r bytes) s = .next (encStep s)

/-- R202, R206: while transactions are queued, BQ_ENQUEUE only copies its payload and appends. -/
def Obligations.EnqueueAppends : Prop :=
  ∀ (s : State) (r : Byte) (bytes : List Byte), s.Settled → Accepted s bytes.length r.toNat → s.bq.queue ≠ [] →
    exec (.bqEnqueue r bytes) s =
      .next (consumed (enqueueLength bytes.length)
        { s with bq := { s.bq with queue := s.bq.queue ++ [(makeTxn .pri bytes r s).1], depth := s.bq.depth + 1 }
                 owned := (makeTxn .pri bytes r s).2.owned })

/-- R206, R210: on an empty queue, BQ_ENQUEUE dispatches its transaction at once. -/
def Obligations.EnqueueDispatches : Prop :=
  ∀ (s : State) (r : Byte) (bytes : List Byte), s.Settled → Accepted s bytes.length r.toNat → s.bq.queue = [] →
    bytes.length + r.toNat ≤ s.cfg.maxXfer →
    exec (.bqEnqueue r bytes) s =
      .next (consumed (enqueueLength bytes.length) (dispatched .pri (makeTxn .pri bytes r s).1
        { s with bq := { s.bq with queue := [(makeTxn .pri bytes r s).1], depth := s.bq.depth + 1 }
                 owned := (makeTxn .pri bytes r s).2.owned }))

/-- R211, R212, 45_control.md R254: on an empty queue, an over-size BQ_ENQUEUE halts the block: the transaction stays at
the head, the interrupt stays masked, and the command pointer is past the command. -/
def Obligations.OversizeEnqueueHalts : Prop :=
  ∀ (s : State) (r : Byte) (bytes : List Byte), s.Settled → Accepted s bytes.length r.toNat → s.bq.queue = [] →
    s.cfg.maxXfer < bytes.length + r.toNat →
    exec (.bqEnqueue r bytes) s =
      .next (consumed (enqueueLength bytes.length) (haltedBy .pri (makeTxn .pri bytes r s).1
        { s with bq := { s.bq with queue := [(makeTxn .pri bytes r s).1], depth := s.bq.depth + 1 }
                 owned := (makeTxn .pri bytes r s).2.owned
                 masked := true }))

/-- R202, 20_memory.md R73: MakeTxn copies the payload into a fresh buffer of its length, allocates another fresh buffer
to read into, leaves every byte of every other buffer as it was, and changes nothing but owned storage. -/
def Obligations.MakeTxnCopiesThePayload : Prop :=
  ∀ (s : State) (bytes : List Byte) (r : Byte), s.Settled → bytes.length ≤ 255 →
    (∀ h ∈ s.owned.handles, h < s.owned.next) →
    let t := (makeTxn .pri bytes r s).1
    let o := (makeTxn .pri bytes r s).2.owned
    (makeTxn .pri bytes r s).2 = { s with owned := o } ∧
    t.wdata = bytes ∧ t.r = r ∧ (t.wbuf = none ↔ bytes = []) ∧ (t.rbuf = none ↔ r = 0) ∧
    (∀ h, t.wbuf = some h → h ∉ s.owned.handles ∧ o.sizeOf? h = some bytes.length ∧
      ∀ k (hk : k < bytes.length), o.read h k = some bytes[k]) ∧
    (∀ h, t.rbuf = some h → h ∉ s.owned.handles ∧ t.wbuf ≠ some h ∧ o.sizeOf? h = some r.toNat) ∧
    (∀ h, h ∈ s.owned.handles → o.sizeOf? h = s.owned.sizeOf? h) ∧
    (∀ a : Nat, (∀ h, t.wbuf = some h → ¬ (byteAddr h 0 ≤ a ∧ a < byteAddr h bytes.length)) →
      readCell a o.cells = readCell a s.owned.cells)

/-- R209, 30_encoding.md R94: the units of a transaction: one for each byte, with the data byte low, read units marked,
restart on unit 0 and on the first read unit, stop on the last, and no other bit set. The places of the three bits are
those the spec states from general knowledge (log 20). -/
def Obligations.UnitsCarryTheirFlags : Prop :=
  ∀ t : Txn, 0 < t.wdata.length + t.r.toNat →
    (buildUnits t).length = t.wdata.length + t.r.toNat ∧
    ∀ (k : Nat) (u : CmdUnit), (buildUnits t)[k]? = some u →
      u.extractLsb' 0 8 = t.wdata.getD k 0 ∧
      u.getLsbD 8 = decide (t.wdata.length ≤ k) ∧
      u.getLsbD 9 = decide (k + 1 = t.wdata.length + t.r.toNat) ∧
      u.getLsbD 10 = (decide (k = 0) || decide (k = t.wdata.length)) ∧
      u.extractLsb' 11 5 = 0

/-! ## Completion -/

/-- R214, R216, R217, R220, R266: a completion with stop and no abort, while PRI holds for a header or in a payload: the
status is cleared, the head is popped and its buffers freed, no other buffer touched, and the next transaction is
dispatched. -/
def Obligations.CompletionFreesAndDispatchesNext : Prop :=
  ∀ (s : State) (t : Txn) (rest : List Txn), paramsLegal s.cfg = true → s.Completing → Waiting s →
    s.bq.queue = t :: rest → s.bc.stStop = true → s.bc.stAbort = false → nextFits s.cfg rest →
    let u := nextDispatched rest (popped t rest (statusRead s))
    step s = .next u ∧ Freed t s u

/-- R215, R220: a completion with abort, or without stop: the fault is counted and logged, the busy channels are aborted,
the bus is initialised, with the recovery of R221 where it is found stuck, and then the head is freed and the next
transaction dispatched as after a success. The context PRI in the WAIT events of that recovery, which ISR emits, is the
model's reading (log 17); the two named flags are free values (log 7). -/
def Obligations.BusFaultIsSkipped : Prop :=
  ∀ (s : State) (t : Txn) (rest : List Txn), paramsLegal s.cfg = true → s.Completing → Waiting s →
    s.bq.queue = t :: rest → (s.bc.stAbort = true ∨ s.bc.stStop = false) → nextFits s.cfg rest →
    let after := fun busInit : State → State =>
      nextDispatched rest (popped t rest (busInit (channelsAborted (faultCounted (statusRead s)))))
    (s.ext[10] = .high → s.ext[11] = .high →
      step s = .next (after (configured .isr)) ∧ Freed t s (after (configured .isr))) ∧
    (s.ext[10] = .low → s.ext[11] = .high →
      step s = .next (after (recovered .isr 1 true)) ∧ Freed t s (after (recovered .isr 1 true))) ∧
    (s.ext[11] = .low →
      step s = .next (after (recovered .isr 9 false)) ∧ Freed t s (after (recovered .isr 9 false)))

/-- R217, R212: an over-size transaction that reaches the head halts the block inside the handler; the interrupt stays
masked. The command pointer stays too, which is the model's reading (log 11); the two named flags are free values
(log 7). -/
def Obligations.OversizeNextHaltsInHandler : Prop :=
  ∀ (s : State) (t u : Txn) (rest : List Txn), paramsLegal s.cfg = true → s.Completing → Waiting s →
    s.bq.queue = t :: u :: rest → s.bc.stStop = true → s.bc.stAbort = false →
    s.cfg.maxXfer < u.wdata.length + u.r.toNat →
    step s = .next (haltedBy .isr u { popped t (u :: rest) (statusRead s) with masked := true })

/-- R219: a completion with the queue empty clears the status, raises F_SPURIOUS_IRQ and does nothing else. The two
named flags are free values in the model's form (log 7). -/
def Obligations.SpuriousCompletion : Prop :=
  ∀ s : State, paramsLegal s.cfg = true → s.Completing → Waiting s → s.bq.queue = [] →
    step s = .next (traced .isr [.log .spuriousIrq] (faulted 5 (statusRead s)))

/-- R225: with no more enqueues and a stop for each, every queued transaction completes: the queue empties, each
transaction behind the head is dispatched once, in queue order, and no fault is raised. -/
def Obligations.QueueDrainsInOrder : Prop :=
  ∀ (s : State) (t : Txn) (rest : List Txn), s.tape = [] → s.cut = false → s.halted = false →
    s.bq.queue = t :: rest → s.bc.stAbort = false →
    (∀ u ∈ rest, u.wdata.length + u.r.toNat ≤ s.cfg.maxXfer) →
    let d := completeOnce^[rest.length + 1] s
    d.bq.queue = [] ∧ d.bq.depth = s.bq.depth - BitVec.ofNat 32 (rest.length + 1) ∧
      d.bq.dispatchCount = s.bq.dispatchCount + BitVec.ofNat 32 rest.length ∧ d.bq.inflight = false ∧
      d.fault = s.fault ∧ d.trace = s.trace ++ (dispatchEvents rest).map (fun e => ⟨.isr, e⟩)

/-- R266, R269: whatever the schedule does, PRI never takes an atomic step while the handler's entry condition holds:
a pending interrupt goes first. -/
def Obligations.InterruptGoesFirst : Prop :=
  ∀ s : State, (boundary s).live = true → (boundary s).irqReady = false

/-- R271: the handler, under every schedule, leaves the mask as it found it. -/
def Obligations.HandlerRestoresTheMask : Prop :=
  ∀ s : State, s.live = true → (completionHandler s).live = true → (completionHandler s).masked = s.masked

/-! ## Invariants of every step, under every schedule -/

/-- R61 items 5 and 1, R212: the bookkeeping of the bus queue. -/
def Obligations.StepKeepsQueueOk : Prop :=
  ∀ s t : State, s.QueueOk → step s = .next t → t.QueueOk

/-- Memory keeps its canonical form, which is the model's (log 8). -/
def Obligations.StepKeepsMemoryOk : Prop :=
  ∀ s t : State, s.MemoryOk → step s = .next t → t.MemoryOk

/-- R73, R201: each queued transaction owns its own live buffers. -/
def Obligations.StepKeepsOwnershipOk : Prop :=
  ∀ s t : State, s.OwnershipOk → step s = .next t → t.OwnershipOk

/-- R260: every unassigned bit of S.fault reads 0. -/
def Obligations.StepKeepsFaultBitsOk : Prop :=
  ∀ s t : State, s.FaultBitsOk → step s = .next t → t.FaultBitsOk

/-- R208: under REJECT_AT_ENQUEUE no queued transaction is over-size and the block never halts. -/
def Obligations.RejectPolicyNeverHalts : Prop :=
  ∀ s t : State, s.RejectOk → step s = .next t → t.RejectOk

/-- The invariants hold after reset. -/
def Obligations.ResetHasTheInvariants : Prop :=
  State.reset.QueueOk ∧ State.reset.OwnershipOk ∧ State.reset.FaultBitsOk ∧ State.reset.MemoryOk

/-- R61 item 7, R260: a fault bit that is set stays set, unless the block is reset. -/
def Obligations.FaultBitsAreSticky : Prop :=
  ∀ (s t : State) (k : Nat), s.NoReset → step s = .next t → s.fault.getLsbD k = true → t.fault.getLsbD k = true

/-- R72: PIN_SAMPLE, KB_IS_CAPS and RDREG make one response each and no other command makes any, under every schedule;
earlier responses stay. -/
def Obligations.EachCommandMakesItsResponses : Prop :=
  ∀ (i : Instr) (s t : State), s.cut = false → s.NoReset → exec i s = .next t → t.halted = false →
    ∃ new : List Word, t.cmd.resp = s.cmd.resp ++ new ∧ new.length = answers i
end

