-- ==== Sys2Proof/Laws/State.lean ====
section
/-! SUPPORT. What each update of State does to each field: one lemma per field per update, true by rfl. -/

namespace Sys2Proof.Machine

variable (s : State)

/-! emit -/

@[simp] theorem emit_cfg (ag : Agent) (e : Event) : (emit ag e s).cfg = s.cfg := rfl
@[simp] theorem emit_pins (ag : Agent) (e : Event) : (emit ag e s).pins = s.pins := rfl
@[simp] theorem emit_kb (ag : Agent) (e : Event) : (emit ag e s).kb = s.kb := rfl
@[simp] theorem emit_fe (ag : Agent) (e : Event) : (emit ag e s).fe = s.fe := rfl
@[simp] theorem emit_mv (ag : Agent) (e : Event) : (emit ag e s).mv = s.mv := rfl
@[simp] theorem emit_enc (ag : Agent) (e : Event) : (emit ag e s).enc = s.enc := rfl
@[simp] theorem emit_bq (ag : Agent) (e : Event) : (emit ag e s).bq = s.bq := rfl
@[simp] theorem emit_bc (ag : Agent) (e : Event) : (emit ag e s).bc = s.bc := rfl
@[simp] theorem emit_dma (ag : Agent) (e : Event) : (emit ag e s).dma = s.dma := rfl
@[simp] theorem emit_masked (ag : Agent) (e : Event) : (emit ag e s).masked = s.masked := rfl
@[simp] theorem emit_fault (ag : Agent) (e : Event) : (emit ag e s).fault = s.fault := rfl
@[simp] theorem emit_cmd (ag : Agent) (e : Event) : (emit ag e s).cmd = s.cmd := rfl
@[simp] theorem emit_owned (ag : Agent) (e : Event) : (emit ag e s).owned = s.owned := rfl
@[simp] theorem emit_ext (ag : Agent) (e : Event) : (emit ag e s).ext = s.ext := rfl
@[simp] theorem emit_trace (ag : Agent) (e : Event) : (emit ag e s).trace = s.trace ++ [⟨ag, e⟩] := rfl
@[simp] theorem emit_draws (ag : Agent) (e : Event) : (emit ag e s).draws = s.draws := rfl
@[simp] theorem emit_tape (ag : Agent) (e : Event) : (emit ag e s).tape = s.tape := rfl
@[simp] theorem emit_cut (ag : Agent) (e : Event) : (emit ag e s).cut = s.cut := rfl

/-! wait -/

@[simp] theorem wait_cfg (ag : Agent) (us : Nat) : (wait ag us s).cfg = s.cfg := rfl
@[simp] theorem wait_pins (ag : Agent) (us : Nat) : (wait ag us s).pins = s.pins := rfl
@[simp] theorem wait_kb (ag : Agent) (us : Nat) : (wait ag us s).kb = s.kb := rfl
@[simp] theorem wait_fe (ag : Agent) (us : Nat) : (wait ag us s).fe = s.fe := rfl
@[simp] theorem wait_mv (ag : Agent) (us : Nat) : (wait ag us s).mv = s.mv := rfl
@[simp] theorem wait_enc (ag : Agent) (us : Nat) : (wait ag us s).enc = s.enc := rfl
@[simp] theorem wait_bq (ag : Agent) (us : Nat) : (wait ag us s).bq = s.bq := rfl
@[simp] theorem wait_bc (ag : Agent) (us : Nat) : (wait ag us s).bc = s.bc := rfl
@[simp] theorem wait_dma (ag : Agent) (us : Nat) : (wait ag us s).dma = s.dma := rfl
@[simp] theorem wait_masked (ag : Agent) (us : Nat) : (wait ag us s).masked = s.masked := rfl
@[simp] theorem wait_fault (ag : Agent) (us : Nat) : (wait ag us s).fault = s.fault := rfl
@[simp] theorem wait_cmd (ag : Agent) (us : Nat) : (wait ag us s).cmd = s.cmd := rfl
@[simp] theorem wait_owned (ag : Agent) (us : Nat) : (wait ag us s).owned = s.owned := rfl
@[simp] theorem wait_ext (ag : Agent) (us : Nat) : (wait ag us s).ext = s.ext := rfl
@[simp] theorem wait_trace (ag : Agent) (us : Nat) :
    (wait ag us s).trace = s.trace ++ [⟨ag, .wait ag.context us⟩] := rfl
@[simp] theorem wait_draws (ag : Agent) (us : Nat) : (wait ag us s).draws = s.draws := rfl
@[simp] theorem wait_tape (ag : Agent) (us : Nat) : (wait ag us s).tape = s.tape := rfl
@[simp] theorem wait_cut (ag : Agent) (us : Nat) : (wait ag us s).cut = s.cut := rfl

/-! respond -/

@[simp] theorem respond_cfg (v : Word) : (respond v s).cfg = s.cfg := rfl
@[simp] theorem respond_pins (v : Word) : (respond v s).pins = s.pins := rfl
@[simp] theorem respond_kb (v : Word) : (respond v s).kb = s.kb := rfl
@[simp] theorem respond_fe (v : Word) : (respond v s).fe = s.fe := rfl
@[simp] theorem respond_mv (v : Word) : (respond v s).mv = s.mv := rfl
@[simp] theorem respond_enc (v : Word) : (respond v s).enc = s.enc := rfl
@[simp] theorem respond_bq (v : Word) : (respond v s).bq = s.bq := rfl
@[simp] theorem respond_bc (v : Word) : (respond v s).bc = s.bc := rfl
@[simp] theorem respond_dma (v : Word) : (respond v s).dma = s.dma := rfl
@[simp] theorem respond_masked (v : Word) : (respond v s).masked = s.masked := rfl
@[simp] theorem respond_fault (v : Word) : (respond v s).fault = s.fault := rfl
@[simp] theorem respond_cmd (v : Word) : (respond v s).cmd = { s.cmd with resp := s.cmd.resp ++ [v] } := rfl
@[simp] theorem respond_owned (v : Word) : (respond v s).owned = s.owned := rfl
@[simp] theorem respond_ext (v : Word) : (respond v s).ext = s.ext := rfl
@[simp] theorem respond_trace (v : Word) : (respond v s).trace = s.trace ++ [⟨.pri, .resp v⟩] := rfl
@[simp] theorem respond_draws (v : Word) : (respond v s).draws = s.draws := rfl
@[simp] theorem respond_tape (v : Word) : (respond v s).tape = s.tape := rfl
@[simp] theorem respond_cut (v : Word) : (respond v s).cut = s.cut := rfl

/-! drivePin -/

@[simp] theorem drivePin_cfg (ag : Agent) (p : Pin) (d : Drive) : (drivePin ag p d s).cfg = s.cfg := rfl
@[simp] theorem drivePin_pins (ag : Agent) (p : Pin) (d : Drive) : (drivePin ag p d s).pins = s.pins.setDrive p d := rfl
@[simp] theorem drivePin_kb (ag : Agent) (p : Pin) (d : Drive) : (drivePin ag p d s).kb = s.kb := rfl
@[simp] theorem drivePin_fe (ag : Agent) (p : Pin) (d : Drive) : (drivePin ag p d s).fe = s.fe := rfl
@[simp] theorem drivePin_mv (ag : Agent) (p : Pin) (d : Drive) : (drivePin ag p d s).mv = s.mv := rfl
@[simp] theorem drivePin_enc (ag : Agent) (p : Pin) (d : Drive) : (drivePin ag p d s).enc = s.enc := rfl
@[simp] theorem drivePin_bq (ag : Agent) (p : Pin) (d : Drive) : (drivePin ag p d s).bq = s.bq := rfl
@[simp] theorem drivePin_bc (ag : Agent) (p : Pin) (d : Drive) : (drivePin ag p d s).bc = s.bc := rfl
@[simp] theorem drivePin_dma (ag : Agent) (p : Pin) (d : Drive) : (drivePin ag p d s).dma = s.dma := rfl
@[simp] theorem drivePin_masked (ag : Agent) (p : Pin) (d : Drive) : (drivePin ag p d s).masked = s.masked := rfl
@[simp] theorem drivePin_fault (ag : Agent) (p : Pin) (d : Drive) : (drivePin ag p d s).fault = s.fault := rfl
@[simp] theorem drivePin_cmd (ag : Agent) (p : Pin) (d : Drive) : (drivePin ag p d s).cmd = s.cmd := rfl
@[simp] theorem drivePin_owned (ag : Agent) (p : Pin) (d : Drive) : (drivePin ag p d s).owned = s.owned := rfl
@[simp] theorem drivePin_ext (ag : Agent) (p : Pin) (d : Drive) : (drivePin ag p d s).ext = s.ext := rfl
@[simp] theorem drivePin_trace (ag : Agent) (p : Pin) (d : Drive) :
    (drivePin ag p d s).trace = s.trace ++ [⟨ag, .pin p d⟩] := rfl
@[simp] theorem drivePin_draws (ag : Agent) (p : Pin) (d : Drive) : (drivePin ag p d s).draws = s.draws := rfl
@[simp] theorem drivePin_tape (ag : Agent) (p : Pin) (d : Drive) : (drivePin ag p d s).tape = s.tape := rfl
@[simp] theorem drivePin_cut (ag : Agent) (p : Pin) (d : Drive) : (drivePin ag p d s).cut = s.cut := rfl

/-! assertPin -/

@[simp] theorem assertPin_cfg (ag : Agent) (p : Pin) : (assertPin ag p s).cfg = s.cfg := rfl
@[simp] theorem assertPin_pins (ag : Agent) (p : Pin) : (assertPin ag p s).pins = s.pins.setDrive p .asserted := rfl
@[simp] theorem assertPin_kb (ag : Agent) (p : Pin) : (assertPin ag p s).kb = s.kb := rfl
@[simp] theorem assertPin_fe (ag : Agent) (p : Pin) : (assertPin ag p s).fe = s.fe := rfl
@[simp] theorem assertPin_mv (ag : Agent) (p : Pin) : (assertPin ag p s).mv = s.mv := rfl
@[simp] theorem assertPin_enc (ag : Agent) (p : Pin) : (assertPin ag p s).enc = s.enc := rfl
@[simp] theorem assertPin_bq (ag : Agent) (p : Pin) : (assertPin ag p s).bq = s.bq := rfl
@[simp] theorem assertPin_bc (ag : Agent) (p : Pin) : (assertPin ag p s).bc = s.bc := rfl
@[simp] theorem assertPin_dma (ag : Agent) (p : Pin) : (assertPin ag p s).dma = s.dma := rfl
@[simp] theorem assertPin_masked (ag : Agent) (p : Pin) : (assertPin ag p s).masked = s.masked := rfl
@[simp] theorem assertPin_fault (ag : Agent) (p : Pin) : (assertPin ag p s).fault = s.fault := rfl
@[simp] theorem assertPin_cmd (ag : Agent) (p : Pin) : (assertPin ag p s).cmd = s.cmd := rfl
@[simp] theorem assertPin_owned (ag : Agent) (p : Pin) : (assertPin ag p s).owned = s.owned := rfl
@[simp] theorem assertPin_ext (ag : Agent) (p : Pin) : (assertPin ag p s).ext = s.ext := rfl
@[simp] theorem assertPin_trace (ag : Agent) (p : Pin) :
    (assertPin ag p s).trace = s.trace ++ [⟨ag, .pin p .asserted⟩] := rfl
@[simp] theorem assertPin_draws (ag : Agent) (p : Pin) : (assertPin ag p s).draws = s.draws := rfl
@[simp] theorem assertPin_tape (ag : Agent) (p : Pin) : (assertPin ag p s).tape = s.tape := rfl
@[simp] theorem assertPin_cut (ag : Agent) (p : Pin) : (assertPin ag p s).cut = s.cut := rfl

/-! releasePin -/

@[simp] theorem releasePin_cfg (ag : Agent) (p : Pin) : (releasePin ag p s).cfg = s.cfg := rfl
@[simp] theorem releasePin_pins (ag : Agent) (p : Pin) : (releasePin ag p s).pins = s.pins.setDrive p .released := rfl
@[simp] theorem releasePin_kb (ag : Agent) (p : Pin) : (releasePin ag p s).kb = s.kb := rfl
@[simp] theorem releasePin_fe (ag : Agent) (p : Pin) : (releasePin ag p s).fe = s.fe := rfl
@[simp] theorem releasePin_mv (ag : Agent) (p : Pin) : (releasePin ag p s).mv = s.mv := rfl
@[simp] theorem releasePin_enc (ag : Agent) (p : Pin) : (releasePin ag p s).enc = s.enc := rfl
@[simp] theorem releasePin_bq (ag : Agent) (p : Pin) : (releasePin ag p s).bq = s.bq := rfl
@[simp] theorem releasePin_bc (ag : Agent) (p : Pin) : (releasePin ag p s).bc = s.bc := rfl
@[simp] theorem releasePin_dma (ag : Agent) (p : Pin) : (releasePin ag p s).dma = s.dma := rfl
@[simp] theorem releasePin_masked (ag : Agent) (p : Pin) : (releasePin ag p s).masked = s.masked := rfl
@[simp] theorem releasePin_fault (ag : Agent) (p : Pin) : (releasePin ag p s).fault = s.fault := rfl
@[simp] theorem releasePin_cmd (ag : Agent) (p : Pin) : (releasePin ag p s).cmd = s.cmd := rfl
@[simp] theorem releasePin_owned (ag : Agent) (p : Pin) : (releasePin ag p s).owned = s.owned := rfl
@[simp] theorem releasePin_ext (ag : Agent) (p : Pin) : (releasePin ag p s).ext = s.ext := rfl
@[simp] theorem releasePin_trace (ag : Agent) (p : Pin) :
    (releasePin ag p s).trace = s.trace ++ [⟨ag, .pin p .released⟩] := rfl
@[simp] theorem releasePin_draws (ag : Agent) (p : Pin) : (releasePin ag p s).draws = s.draws := rfl
@[simp] theorem releasePin_tape (ag : Agent) (p : Pin) : (releasePin ag p s).tape = s.tape := rfl
@[simp] theorem releasePin_cut (ag : Agent) (p : Pin) : (releasePin ag p s).cut = s.cut := rfl

/-! raise -/

@[simp] theorem raise_cfg (b : FaultBit) : (raise b s).cfg = s.cfg := rfl
@[simp] theorem raise_pins (b : FaultBit) : (raise b s).pins = s.pins := rfl
@[simp] theorem raise_kb (b : FaultBit) : (raise b s).kb = s.kb := rfl
@[simp] theorem raise_fe (b : FaultBit) : (raise b s).fe = s.fe := rfl
@[simp] theorem raise_mv (b : FaultBit) : (raise b s).mv = s.mv := rfl
@[simp] theorem raise_enc (b : FaultBit) : (raise b s).enc = s.enc := rfl
@[simp] theorem raise_bq (b : FaultBit) : (raise b s).bq = s.bq := rfl
@[simp] theorem raise_bc (b : FaultBit) : (raise b s).bc = s.bc := rfl
@[simp] theorem raise_dma (b : FaultBit) : (raise b s).dma = s.dma := rfl
@[simp] theorem raise_masked (b : FaultBit) : (raise b s).masked = s.masked := rfl
@[simp] theorem raise_fault (b : FaultBit) : (raise b s).fault = s.fault ||| b.mask := rfl
@[simp] theorem raise_cmd (b : FaultBit) : (raise b s).cmd = s.cmd := rfl
@[simp] theorem raise_owned (b : FaultBit) : (raise b s).owned = s.owned := rfl
@[simp] theorem raise_ext (b : FaultBit) : (raise b s).ext = s.ext := rfl
@[simp] theorem raise_trace (b : FaultBit) : (raise b s).trace = s.trace := rfl
@[simp] theorem raise_draws (b : FaultBit) : (raise b s).draws = s.draws := rfl
@[simp] theorem raise_tape (b : FaultBit) : (raise b s).tape = s.tape := rfl
@[simp] theorem raise_cut (b : FaultBit) : (raise b s).cut = s.cut := rfl

/-! setMasked -/

@[simp] theorem setMasked_cfg (m : Bool) : (setMasked m s).cfg = s.cfg := rfl
@[simp] theorem setMasked_pins (m : Bool) : (setMasked m s).pins = s.pins := rfl
@[simp] theorem setMasked_kb (m : Bool) : (setMasked m s).kb = s.kb := rfl
@[simp] theorem setMasked_fe (m : Bool) : (setMasked m s).fe = s.fe := rfl
@[simp] theorem setMasked_mv (m : Bool) : (setMasked m s).mv = s.mv := rfl
@[simp] theorem setMasked_enc (m : Bool) : (setMasked m s).enc = s.enc := rfl
@[simp] theorem setMasked_bq (m : Bool) : (setMasked m s).bq = s.bq := rfl
@[simp] theorem setMasked_bc (m : Bool) : (setMasked m s).bc = s.bc := rfl
@[simp] theorem setMasked_dma (m : Bool) : (setMasked m s).dma = s.dma := rfl
@[simp] theorem setMasked_masked (m : Bool) : (setMasked m s).masked = m := rfl
@[simp] theorem setMasked_fault (m : Bool) : (setMasked m s).fault = s.fault := rfl
@[simp] theorem setMasked_cmd (m : Bool) : (setMasked m s).cmd = s.cmd := rfl
@[simp] theorem setMasked_owned (m : Bool) : (setMasked m s).owned = s.owned := rfl
@[simp] theorem setMasked_ext (m : Bool) : (setMasked m s).ext = s.ext := rfl
@[simp] theorem setMasked_trace (m : Bool) : (setMasked m s).trace = s.trace := rfl
@[simp] theorem setMasked_draws (m : Bool) : (setMasked m s).draws = s.draws := rfl
@[simp] theorem setMasked_tape (m : Bool) : (setMasked m s).tape = s.tape := rfl
@[simp] theorem setMasked_cut (m : Bool) : (setMasked m s).cut = s.cut := rfl

/-! memAlloc -/

@[simp] theorem memAlloc_cfg (n : Nat) : (memAlloc n s).cfg = s.cfg := rfl
@[simp] theorem memAlloc_pins (n : Nat) : (memAlloc n s).pins = s.pins := rfl
@[simp] theorem memAlloc_kb (n : Nat) : (memAlloc n s).kb = s.kb := rfl
@[simp] theorem memAlloc_fe (n : Nat) : (memAlloc n s).fe = s.fe := rfl
@[simp] theorem memAlloc_mv (n : Nat) : (memAlloc n s).mv = s.mv := rfl
@[simp] theorem memAlloc_enc (n : Nat) : (memAlloc n s).enc = s.enc := rfl
@[simp] theorem memAlloc_bq (n : Nat) : (memAlloc n s).bq = s.bq := rfl
@[simp] theorem memAlloc_bc (n : Nat) : (memAlloc n s).bc = s.bc := rfl
@[simp] theorem memAlloc_dma (n : Nat) : (memAlloc n s).dma = s.dma := rfl
@[simp] theorem memAlloc_masked (n : Nat) : (memAlloc n s).masked = s.masked := rfl
@[simp] theorem memAlloc_fault (n : Nat) : (memAlloc n s).fault = s.fault := rfl
@[simp] theorem memAlloc_cmd (n : Nat) : (memAlloc n s).cmd = s.cmd := rfl
@[simp] theorem memAlloc_owned (n : Nat) : (memAlloc n s).owned = (s.owned.alloc n).2 := rfl
@[simp] theorem memAlloc_ext (n : Nat) : (memAlloc n s).ext = s.ext := rfl
@[simp] theorem memAlloc_trace (n : Nat) : (memAlloc n s).trace = s.trace := rfl
@[simp] theorem memAlloc_draws (n : Nat) : (memAlloc n s).draws = s.draws := rfl
@[simp] theorem memAlloc_tape (n : Nat) : (memAlloc n s).tape = s.tape := rfl
@[simp] theorem memAlloc_cut (n : Nat) : (memAlloc n s).cut = s.cut := rfl

/-! memWrite -/

@[simp] theorem memWrite_cfg (h i : Nat) (v : Byte) : (memWrite h i v s).cfg = s.cfg := rfl
@[simp] theorem memWrite_pins (h i : Nat) (v : Byte) : (memWrite h i v s).pins = s.pins := rfl
@[simp] theorem memWrite_kb (h i : Nat) (v : Byte) : (memWrite h i v s).kb = s.kb := rfl
@[simp] theorem memWrite_fe (h i : Nat) (v : Byte) : (memWrite h i v s).fe = s.fe := rfl
@[simp] theorem memWrite_mv (h i : Nat) (v : Byte) : (memWrite h i v s).mv = s.mv := rfl
@[simp] theorem memWrite_enc (h i : Nat) (v : Byte) : (memWrite h i v s).enc = s.enc := rfl
@[simp] theorem memWrite_bq (h i : Nat) (v : Byte) : (memWrite h i v s).bq = s.bq := rfl
@[simp] theorem memWrite_bc (h i : Nat) (v : Byte) : (memWrite h i v s).bc = s.bc := rfl
@[simp] theorem memWrite_dma (h i : Nat) (v : Byte) : (memWrite h i v s).dma = s.dma := rfl
@[simp] theorem memWrite_masked (h i : Nat) (v : Byte) : (memWrite h i v s).masked = s.masked := rfl
@[simp] theorem memWrite_fault (h i : Nat) (v : Byte) : (memWrite h i v s).fault = s.fault := rfl
@[simp] theorem memWrite_cmd (h i : Nat) (v : Byte) : (memWrite h i v s).cmd = s.cmd := rfl
@[simp] theorem memWrite_owned (h i : Nat) (v : Byte) : (memWrite h i v s).owned = s.owned.write h i v := rfl
@[simp] theorem memWrite_ext (h i : Nat) (v : Byte) : (memWrite h i v s).ext = s.ext := rfl
@[simp] theorem memWrite_trace (h i : Nat) (v : Byte) : (memWrite h i v s).trace = s.trace := rfl
@[simp] theorem memWrite_draws (h i : Nat) (v : Byte) : (memWrite h i v s).draws = s.draws := rfl
@[simp] theorem memWrite_tape (h i : Nat) (v : Byte) : (memWrite h i v s).tape = s.tape := rfl
@[simp] theorem memWrite_cut (h i : Nat) (v : Byte) : (memWrite h i v s).cut = s.cut := rfl

/-! setEncState -/

@[simp] theorem setEncState_cfg (e : EncState) : (setEncState e s).cfg = s.cfg := rfl
@[simp] theorem setEncState_pins (e : EncState) : (setEncState e s).pins = s.pins := rfl
@[simp] theorem setEncState_kb (e : EncState) : (setEncState e s).kb = s.kb := rfl
@[simp] theorem setEncState_fe (e : EncState) : (setEncState e s).fe = s.fe := rfl
@[simp] theorem setEncState_mv (e : EncState) : (setEncState e s).mv = s.mv := rfl
@[simp] theorem setEncState_enc (e : EncState) : (setEncState e s).enc = { s.enc with state := e } := rfl
@[simp] theorem setEncState_bq (e : EncState) : (setEncState e s).bq = s.bq := rfl
@[simp] theorem setEncState_bc (e : EncState) : (setEncState e s).bc = s.bc := rfl
@[simp] theorem setEncState_dma (e : EncState) : (setEncState e s).dma = s.dma := rfl
@[simp] theorem setEncState_masked (e : EncState) : (setEncState e s).masked = s.masked := rfl
@[simp] theorem setEncState_fault (e : EncState) : (setEncState e s).fault = s.fault := rfl
@[simp] theorem setEncState_cmd (e : EncState) : (setEncState e s).cmd = s.cmd := rfl
@[simp] theorem setEncState_owned (e : EncState) : (setEncState e s).owned = s.owned := rfl
@[simp] theorem setEncState_ext (e : EncState) : (setEncState e s).ext = s.ext := rfl
@[simp] theorem setEncState_trace (e : EncState) : (setEncState e s).trace = s.trace := rfl
@[simp] theorem setEncState_draws (e : EncState) : (setEncState e s).draws = s.draws := rfl
@[simp] theorem setEncState_tape (e : EncState) : (setEncState e s).tape = s.tape := rfl
@[simp] theorem setEncState_cut (e : EncState) : (setEncState e s).cut = s.cut := rfl

/-! axisDecrement -/

@[simp] theorem axisDecrement_cfg (ax : Axis) : (axisDecrement ax s).cfg = s.cfg := rfl
@[simp] theorem axisDecrement_pins (ax : Axis) : (axisDecrement ax s).pins = s.pins := rfl
@[simp] theorem axisDecrement_kb (ax : Axis) : (axisDecrement ax s).kb = s.kb := rfl
@[simp] theorem axisDecrement_fe (ax : Axis) : (axisDecrement ax s).fe = s.fe := rfl
@[simp] theorem axisDecrement_mv (ax : Axis) : (axisDecrement ax s).mv = s.mv := rfl
@[simp] theorem axisDecrement_enc (ax : Axis) :
    (axisDecrement ax s).enc = s.enc.setRem (towardZero (s.enc.rem ax)) ax := rfl
@[simp] theorem axisDecrement_bq (ax : Axis) : (axisDecrement ax s).bq = s.bq := rfl
@[simp] theorem axisDecrement_bc (ax : Axis) : (axisDecrement ax s).bc = s.bc := rfl
@[simp] theorem axisDecrement_dma (ax : Axis) : (axisDecrement ax s).dma = s.dma := rfl
@[simp] theorem axisDecrement_masked (ax : Axis) : (axisDecrement ax s).masked = s.masked := rfl
@[simp] theorem axisDecrement_fault (ax : Axis) : (axisDecrement ax s).fault = s.fault := rfl
@[simp] theorem axisDecrement_cmd (ax : Axis) : (axisDecrement ax s).cmd = s.cmd := rfl
@[simp] theorem axisDecrement_owned (ax : Axis) : (axisDecrement ax s).owned = s.owned := rfl
@[simp] theorem axisDecrement_ext (ax : Axis) : (axisDecrement ax s).ext = s.ext := rfl
@[simp] theorem axisDecrement_trace (ax : Axis) : (axisDecrement ax s).trace = s.trace := rfl
@[simp] theorem axisDecrement_draws (ax : Axis) : (axisDecrement ax s).draws = s.draws := rfl
@[simp] theorem axisDecrement_tape (ax : Axis) : (axisDecrement ax s).tape = s.tape := rfl
@[simp] theorem axisDecrement_cut (ax : Axis) : (axisDecrement ax s).cut = s.cut := rfl

/-! raiseStatus -/

@[simp] theorem raiseStatus_cfg (a b c : Bool) : (raiseStatus a b c s).cfg = s.cfg := rfl
@[simp] theorem raiseStatus_pins (a b c : Bool) : (raiseStatus a b c s).pins = s.pins := rfl
@[simp] theorem raiseStatus_kb (a b c : Bool) : (raiseStatus a b c s).kb = s.kb := rfl
@[simp] theorem raiseStatus_fe (a b c : Bool) : (raiseStatus a b c s).fe = s.fe := rfl
@[simp] theorem raiseStatus_mv (a b c : Bool) : (raiseStatus a b c s).mv = s.mv := rfl
@[simp] theorem raiseStatus_enc (a b c : Bool) : (raiseStatus a b c s).enc = s.enc := rfl
@[simp] theorem raiseStatus_bq (a b c : Bool) : (raiseStatus a b c s).bq = s.bq := rfl
@[simp] theorem raiseStatus_bc (a b c : Bool) :
    (raiseStatus a b c s).bc =
      { s.bc with stAbort := s.bc.stAbort || a, stStop := s.bc.stStop || b, stOther := s.bc.stOther || c } := rfl
@[simp] theorem raiseStatus_dma (a b c : Bool) : (raiseStatus a b c s).dma = s.dma := rfl
@[simp] theorem raiseStatus_masked (a b c : Bool) : (raiseStatus a b c s).masked = s.masked := rfl
@[simp] theorem raiseStatus_fault (a b c : Bool) : (raiseStatus a b c s).fault = s.fault := rfl
@[simp] theorem raiseStatus_cmd (a b c : Bool) : (raiseStatus a b c s).cmd = s.cmd := rfl
@[simp] theorem raiseStatus_owned (a b c : Bool) : (raiseStatus a b c s).owned = s.owned := rfl
@[simp] theorem raiseStatus_ext (a b c : Bool) : (raiseStatus a b c s).ext = s.ext := rfl
@[simp] theorem raiseStatus_trace (a b c : Bool) : (raiseStatus a b c s).trace = s.trace := rfl
@[simp] theorem raiseStatus_draws (a b c : Bool) : (raiseStatus a b c s).draws = s.draws := rfl
@[simp] theorem raiseStatus_tape (a b c : Bool) : (raiseStatus a b c s).tape = s.tape := rfl
@[simp] theorem raiseStatus_cut (a b c : Bool) : (raiseStatus a b c s).cut = s.cut := rfl

/-! dmaStart -/

@[simp] theorem dmaStart_cfg (ag : Agent) (ch : Channel) (buf : Option Nat) (n : Nat) :
    (dmaStart ag ch buf n s).cfg = s.cfg := rfl
@[simp] theorem dmaStart_pins (ag : Agent) (ch : Channel) (buf : Option Nat) (n : Nat) :
    (dmaStart ag ch buf n s).pins = s.pins := rfl
@[simp] theorem dmaStart_kb (ag : Agent) (ch : Channel) (buf : Option Nat) (n : Nat) :
    (dmaStart ag ch buf n s).kb = s.kb := rfl
@[simp] theorem dmaStart_fe (ag : Agent) (ch : Channel) (buf : Option Nat) (n : Nat) :
    (dmaStart ag ch buf n s).fe = s.fe := rfl
@[simp] theorem dmaStart_mv (ag : Agent) (ch : Channel) (buf : Option Nat) (n : Nat) :
    (dmaStart ag ch buf n s).mv = s.mv := rfl
@[simp] theorem dmaStart_enc (ag : Agent) (ch : Channel) (buf : Option Nat) (n : Nat) :
    (dmaStart ag ch buf n s).enc = s.enc := rfl
@[simp] theorem dmaStart_bq (ag : Agent) (ch : Channel) (buf : Option Nat) (n : Nat) :
    (dmaStart ag ch buf n s).bq = s.bq := rfl
@[simp] theorem dmaStart_bc (ag : Agent) (ch : Channel) (buf : Option Nat) (n : Nat) :
    (dmaStart ag ch buf n s).bc = s.bc := rfl
@[simp] theorem dmaStart_dma (ag : Agent) (ch : Channel) (buf : Option Nat) (n : Nat) :
    (dmaStart ag ch buf n s).dma =
      s.dma.set { busy := true, len := BitVec.ofNat 16 n, setup := some (chanSetup ch), buf := buf } ch := rfl
@[simp] theorem dmaStart_masked (ag : Agent) (ch : Channel) (buf : Option Nat) (n : Nat) :
    (dmaStart ag ch buf n s).masked = s.masked := rfl
@[simp] theorem dmaStart_fault (ag : Agent) (ch : Channel) (buf : Option Nat) (n : Nat) :
    (dmaStart ag ch buf n s).fault = s.fault := rfl
@[simp] theorem dmaStart_cmd (ag : Agent) (ch : Channel) (buf : Option Nat) (n : Nat) :
    (dmaStart ag ch buf n s).cmd = s.cmd := rfl
@[simp] theorem dmaStart_owned (ag : Agent) (ch : Channel) (buf : Option Nat) (n : Nat) :
    (dmaStart ag ch buf n s).owned = s.owned := rfl
@[simp] theorem dmaStart_ext (ag : Agent) (ch : Channel) (buf : Option Nat) (n : Nat) :
    (dmaStart ag ch buf n s).ext = s.ext := rfl
@[simp] theorem dmaStart_trace (ag : Agent) (ch : Channel) (buf : Option Nat) (n : Nat) :
    (dmaStart ag ch buf n s).trace = s.trace ++ [⟨ag, .dmaStart ch n⟩] := rfl
@[simp] theorem dmaStart_draws (ag : Agent) (ch : Channel) (buf : Option Nat) (n : Nat) :
    (dmaStart ag ch buf n s).draws = s.draws := rfl
@[simp] theorem dmaStart_tape (ag : Agent) (ch : Channel) (buf : Option Nat) (n : Nat) :
    (dmaStart ag ch buf n s).tape = s.tape := rfl
@[simp] theorem dmaStart_cut (ag : Agent) (ch : Channel) (buf : Option Nat) (n : Nat) :
    (dmaStart ag ch buf n s).cut = s.cut := rfl

/-! dmaAbort -/

@[simp] theorem dmaAbort_cfg (ag : Agent) (ch : Channel) : (dmaAbort ag ch s).cfg = s.cfg := rfl
@[simp] theorem dmaAbort_pins (ag : Agent) (ch : Channel) : (dmaAbort ag ch s).pins = s.pins := rfl
@[simp] theorem dmaAbort_kb (ag : Agent) (ch : Channel) : (dmaAbort ag ch s).kb = s.kb := rfl
@[simp] theorem dmaAbort_fe (ag : Agent) (ch : Channel) : (dmaAbort ag ch s).fe = s.fe := rfl
@[simp] theorem dmaAbort_mv (ag : Agent) (ch : Channel) : (dmaAbort ag ch s).mv = s.mv := rfl
@[simp] theorem dmaAbort_enc (ag : Agent) (ch : Channel) : (dmaAbort ag ch s).enc = s.enc := rfl
@[simp] theorem dmaAbort_bq (ag : Agent) (ch : Channel) : (dmaAbort ag ch s).bq = s.bq := rfl
@[simp] theorem dmaAbort_bc (ag : Agent) (ch : Channel) : (dmaAbort ag ch s).bc = s.bc := rfl
@[simp] theorem dmaAbort_dma (ag : Agent) (ch : Channel) :
    (dmaAbort ag ch s).dma = s.dma.set { s.dma.get ch with busy := false } ch := rfl
@[simp] theorem dmaAbort_masked (ag : Agent) (ch : Channel) : (dmaAbort ag ch s).masked = s.masked := rfl
@[simp] theorem dmaAbort_fault (ag : Agent) (ch : Channel) : (dmaAbort ag ch s).fault = s.fault := rfl
@[simp] theorem dmaAbort_cmd (ag : Agent) (ch : Channel) : (dmaAbort ag ch s).cmd = s.cmd := rfl
@[simp] theorem dmaAbort_owned (ag : Agent) (ch : Channel) : (dmaAbort ag ch s).owned = s.owned := rfl
@[simp] theorem dmaAbort_ext (ag : Agent) (ch : Channel) : (dmaAbort ag ch s).ext = s.ext := rfl
@[simp] theorem dmaAbort_trace (ag : Agent) (ch : Channel) :
    (dmaAbort ag ch s).trace = s.trace ++ [⟨ag, .dmaAbort ch⟩] := rfl
@[simp] theorem dmaAbort_draws (ag : Agent) (ch : Channel) : (dmaAbort ag ch s).draws = s.draws := rfl
@[simp] theorem dmaAbort_tape (ag : Agent) (ch : Channel) : (dmaAbort ag ch s).tape = s.tape := rfl
@[simp] theorem dmaAbort_cut (ag : Agent) (ch : Channel) : (dmaAbort ag ch s).cut = s.cut := rfl

/-! prepareDispatch -/

@[simp] theorem prepareDispatch_cfg (t : Txn) : (prepareDispatch t s).cfg = s.cfg := rfl
@[simp] theorem prepareDispatch_pins (t : Txn) : (prepareDispatch t s).pins = s.pins := rfl
@[simp] theorem prepareDispatch_kb (t : Txn) : (prepareDispatch t s).kb = s.kb := rfl
@[simp] theorem prepareDispatch_fe (t : Txn) : (prepareDispatch t s).fe = s.fe := rfl
@[simp] theorem prepareDispatch_mv (t : Txn) : (prepareDispatch t s).mv = s.mv := rfl
@[simp] theorem prepareDispatch_enc (t : Txn) : (prepareDispatch t s).enc = s.enc := rfl
@[simp] theorem prepareDispatch_bq (t : Txn) :
    (prepareDispatch t s).bq =
      { s.bq with abortF := false, stopF := false, readingF := false, writingF := false,
                  cmdbuf := buildUnits t } := rfl
@[simp] theorem prepareDispatch_bc (t : Txn) : (prepareDispatch t s).bc = s.bc := rfl
@[simp] theorem prepareDispatch_dma (t : Txn) : (prepareDispatch t s).dma = s.dma := rfl
@[simp] theorem prepareDispatch_masked (t : Txn) : (prepareDispatch t s).masked = s.masked := rfl
@[simp] theorem prepareDispatch_fault (t : Txn) : (prepareDispatch t s).fault = s.fault := rfl
@[simp] theorem prepareDispatch_cmd (t : Txn) : (prepareDispatch t s).cmd = s.cmd := rfl
@[simp] theorem prepareDispatch_owned (t : Txn) : (prepareDispatch t s).owned = s.owned := rfl
@[simp] theorem prepareDispatch_ext (t : Txn) : (prepareDispatch t s).ext = s.ext := rfl
@[simp] theorem prepareDispatch_trace (t : Txn) : (prepareDispatch t s).trace = s.trace := rfl
@[simp] theorem prepareDispatch_draws (t : Txn) : (prepareDispatch t s).draws = s.draws := rfl
@[simp] theorem prepareDispatch_tape (t : Txn) : (prepareDispatch t s).tape = s.tape := rfl
@[simp] theorem prepareDispatch_cut (t : Txn) : (prepareDispatch t s).cut = s.cut := rfl

/-! markInflight -/

@[simp] theorem markInflight_cfg : (markInflight s).cfg = s.cfg := rfl
@[simp] theorem markInflight_pins : (markInflight s).pins = s.pins := rfl
@[simp] theorem markInflight_kb : (markInflight s).kb = s.kb := rfl
@[simp] theorem markInflight_fe : (markInflight s).fe = s.fe := rfl
@[simp] theorem markInflight_mv : (markInflight s).mv = s.mv := rfl
@[simp] theorem markInflight_enc : (markInflight s).enc = s.enc := rfl
@[simp] theorem markInflight_bq : (markInflight s).bq =
    { s.bq with inflight := true, dispatchCount := s.bq.dispatchCount + 1 } := rfl
@[simp] theorem markInflight_bc : (markInflight s).bc = s.bc := rfl
@[simp] theorem markInflight_dma : (markInflight s).dma = s.dma := rfl
@[simp] theorem markInflight_masked : (markInflight s).masked = s.masked := rfl
@[simp] theorem markInflight_fault : (markInflight s).fault = s.fault := rfl
@[simp] theorem markInflight_cmd : (markInflight s).cmd = s.cmd := rfl
@[simp] theorem markInflight_owned : (markInflight s).owned = s.owned := rfl
@[simp] theorem markInflight_ext : (markInflight s).ext = s.ext := rfl
@[simp] theorem markInflight_trace : (markInflight s).trace = s.trace := rfl
@[simp] theorem markInflight_draws : (markInflight s).draws = s.draws := rfl
@[simp] theorem markInflight_tape : (markInflight s).tape = s.tape := rfl
@[simp] theorem markInflight_cut : (markInflight s).cut = s.cut := rfl

/-! setFuncScl -/

@[simp] theorem setFuncScl_cfg (f : PinFunc) : (setFuncScl f s).cfg = s.cfg := rfl
@[simp] theorem setFuncScl_pins (f : PinFunc) : (setFuncScl f s).pins = { s.pins with funcScl := f } := rfl
@[simp] theorem setFuncScl_kb (f : PinFunc) : (setFuncScl f s).kb = s.kb := rfl
@[simp] theorem setFuncScl_fe (f : PinFunc) : (setFuncScl f s).fe = s.fe := rfl
@[simp] theorem setFuncScl_mv (f : PinFunc) : (setFuncScl f s).mv = s.mv := rfl
@[simp] theorem setFuncScl_enc (f : PinFunc) : (setFuncScl f s).enc = s.enc := rfl
@[simp] theorem setFuncScl_bq (f : PinFunc) : (setFuncScl f s).bq = s.bq := rfl
@[simp] theorem setFuncScl_bc (f : PinFunc) : (setFuncScl f s).bc = s.bc := rfl
@[simp] theorem setFuncScl_dma (f : PinFunc) : (setFuncScl f s).dma = s.dma := rfl
@[simp] theorem setFuncScl_masked (f : PinFunc) : (setFuncScl f s).masked = s.masked := rfl
@[simp] theorem setFuncScl_fault (f : PinFunc) : (setFuncScl f s).fault = s.fault := rfl
@[simp] theorem setFuncScl_cmd (f : PinFunc) : (setFuncScl f s).cmd = s.cmd := rfl
@[simp] theorem setFuncScl_owned (f : PinFunc) : (setFuncScl f s).owned = s.owned := rfl
@[simp] theorem setFuncScl_ext (f : PinFunc) : (setFuncScl f s).ext = s.ext := rfl
@[simp] theorem setFuncScl_trace (f : PinFunc) : (setFuncScl f s).trace = s.trace := rfl
@[simp] theorem setFuncScl_draws (f : PinFunc) : (setFuncScl f s).draws = s.draws := rfl
@[simp] theorem setFuncScl_tape (f : PinFunc) : (setFuncScl f s).tape = s.tape := rfl
@[simp] theorem setFuncScl_cut (f : PinFunc) : (setFuncScl f s).cut = s.cut := rfl

/-! setFuncSda -/

@[simp] theorem setFuncSda_cfg (f : PinFunc) : (setFuncSda f s).cfg = s.cfg := rfl
@[simp] theorem setFuncSda_pins (f : PinFunc) : (setFuncSda f s).pins = { s.pins with funcSda := f } := rfl
@[simp] theorem setFuncSda_kb (f : PinFunc) : (setFuncSda f s).kb = s.kb := rfl
@[simp] theorem setFuncSda_fe (f : PinFunc) : (setFuncSda f s).fe = s.fe := rfl
@[simp] theorem setFuncSda_mv (f : PinFunc) : (setFuncSda f s).mv = s.mv := rfl
@[simp] theorem setFuncSda_enc (f : PinFunc) : (setFuncSda f s).enc = s.enc := rfl
@[simp] theorem setFuncSda_bq (f : PinFunc) : (setFuncSda f s).bq = s.bq := rfl
@[simp] theorem setFuncSda_bc (f : PinFunc) : (setFuncSda f s).bc = s.bc := rfl
@[simp] theorem setFuncSda_dma (f : PinFunc) : (setFuncSda f s).dma = s.dma := rfl
@[simp] theorem setFuncSda_masked (f : PinFunc) : (setFuncSda f s).masked = s.masked := rfl
@[simp] theorem setFuncSda_fault (f : PinFunc) : (setFuncSda f s).fault = s.fault := rfl
@[simp] theorem setFuncSda_cmd (f : PinFunc) : (setFuncSda f s).cmd = s.cmd := rfl
@[simp] theorem setFuncSda_owned (f : PinFunc) : (setFuncSda f s).owned = s.owned := rfl
@[simp] theorem setFuncSda_ext (f : PinFunc) : (setFuncSda f s).ext = s.ext := rfl
@[simp] theorem setFuncSda_trace (f : PinFunc) : (setFuncSda f s).trace = s.trace := rfl
@[simp] theorem setFuncSda_draws (f : PinFunc) : (setFuncSda f s).draws = s.draws := rfl
@[simp] theorem setFuncSda_tape (f : PinFunc) : (setFuncSda f s).tape = s.tape := rfl
@[simp] theorem setFuncSda_cut (f : PinFunc) : (setFuncSda f s).cut = s.cut := rfl

/-! setPullScl -/

@[simp] theorem setPullScl_cfg (on : Bool) : (setPullScl on s).cfg = s.cfg := rfl
@[simp] theorem setPullScl_pins (on : Bool) : (setPullScl on s).pins = { s.pins with pullScl := on } := rfl
@[simp] theorem setPullScl_kb (on : Bool) : (setPullScl on s).kb = s.kb := rfl
@[simp] theorem setPullScl_fe (on : Bool) : (setPullScl on s).fe = s.fe := rfl
@[simp] theorem setPullScl_mv (on : Bool) : (setPullScl on s).mv = s.mv := rfl
@[simp] theorem setPullScl_enc (on : Bool) : (setPullScl on s).enc = s.enc := rfl
@[simp] theorem setPullScl_bq (on : Bool) : (setPullScl on s).bq = s.bq := rfl
@[simp] theorem setPullScl_bc (on : Bool) : (setPullScl on s).bc = s.bc := rfl
@[simp] theorem setPullScl_dma (on : Bool) : (setPullScl on s).dma = s.dma := rfl
@[simp] theorem setPullScl_masked (on : Bool) : (setPullScl on s).masked = s.masked := rfl
@[simp] theorem setPullScl_fault (on : Bool) : (setPullScl on s).fault = s.fault := rfl
@[simp] theorem setPullScl_cmd (on : Bool) : (setPullScl on s).cmd = s.cmd := rfl
@[simp] theorem setPullScl_owned (on : Bool) : (setPullScl on s).owned = s.owned := rfl
@[simp] theorem setPullScl_ext (on : Bool) : (setPullScl on s).ext = s.ext := rfl
@[simp] theorem setPullScl_trace (on : Bool) : (setPullScl on s).trace = s.trace := rfl
@[simp] theorem setPullScl_draws (on : Bool) : (setPullScl on s).draws = s.draws := rfl
@[simp] theorem setPullScl_tape (on : Bool) : (setPullScl on s).tape = s.tape := rfl
@[simp] theorem setPullScl_cut (on : Bool) : (setPullScl on s).cut = s.cut := rfl

/-! setPullSda -/

@[simp] theorem setPullSda_cfg (on : Bool) : (setPullSda on s).cfg = s.cfg := rfl
@[simp] theorem setPullSda_pins (on : Bool) : (setPullSda on s).pins = { s.pins with pullSda := on } := rfl
@[simp] theorem setPullSda_kb (on : Bool) : (setPullSda on s).kb = s.kb := rfl
@[simp] theorem setPullSda_fe (on : Bool) : (setPullSda on s).fe = s.fe := rfl
@[simp] theorem setPullSda_mv (on : Bool) : (setPullSda on s).mv = s.mv := rfl
@[simp] theorem setPullSda_enc (on : Bool) : (setPullSda on s).enc = s.enc := rfl
@[simp] theorem setPullSda_bq (on : Bool) : (setPullSda on s).bq = s.bq := rfl
@[simp] theorem setPullSda_bc (on : Bool) : (setPullSda on s).bc = s.bc := rfl
@[simp] theorem setPullSda_dma (on : Bool) : (setPullSda on s).dma = s.dma := rfl
@[simp] theorem setPullSda_masked (on : Bool) : (setPullSda on s).masked = s.masked := rfl
@[simp] theorem setPullSda_fault (on : Bool) : (setPullSda on s).fault = s.fault := rfl
@[simp] theorem setPullSda_cmd (on : Bool) : (setPullSda on s).cmd = s.cmd := rfl
@[simp] theorem setPullSda_owned (on : Bool) : (setPullSda on s).owned = s.owned := rfl
@[simp] theorem setPullSda_ext (on : Bool) : (setPullSda on s).ext = s.ext := rfl
@[simp] theorem setPullSda_trace (on : Bool) : (setPullSda on s).trace = s.trace := rfl
@[simp] theorem setPullSda_draws (on : Bool) : (setPullSda on s).draws = s.draws := rfl
@[simp] theorem setPullSda_tape (on : Bool) : (setPullSda on s).tape = s.tape := rfl
@[simp] theorem setPullSda_cut (on : Bool) : (setPullSda on s).cut = s.cut := rfl

/-! readStatus -/

@[simp] theorem readStatus_cfg : (readStatus s).cfg = s.cfg := rfl
@[simp] theorem readStatus_pins : (readStatus s).pins = s.pins := rfl
@[simp] theorem readStatus_kb : (readStatus s).kb = s.kb := rfl
@[simp] theorem readStatus_fe : (readStatus s).fe = s.fe := rfl
@[simp] theorem readStatus_mv : (readStatus s).mv = s.mv := rfl
@[simp] theorem readStatus_enc : (readStatus s).enc = s.enc := rfl
@[simp] theorem readStatus_bq : (readStatus s).bq =
    { s.bq with abortF := s.bc.stAbort, stopF := s.bc.stStop, readingF := Config.freeFlag s.draws,
                writingF := Config.freeFlag (s.draws + 1) } := rfl
@[simp] theorem readStatus_bc : (readStatus s).bc =
    { s.bc with stAbort := false, stStop := false, stOther := false } := rfl
@[simp] theorem readStatus_dma : (readStatus s).dma = s.dma := rfl
@[simp] theorem readStatus_masked : (readStatus s).masked = s.masked := rfl
@[simp] theorem readStatus_fault : (readStatus s).fault = s.fault := rfl
@[simp] theorem readStatus_cmd : (readStatus s).cmd = s.cmd := rfl
@[simp] theorem readStatus_owned : (readStatus s).owned = s.owned := rfl
@[simp] theorem readStatus_ext : (readStatus s).ext = s.ext := rfl
@[simp] theorem readStatus_trace : (readStatus s).trace = s.trace := rfl
@[simp] theorem readStatus_draws : (readStatus s).draws = s.draws + 2 := rfl
@[simp] theorem readStatus_tape : (readStatus s).tape = s.tape := rfl
@[simp] theorem readStatus_cut : (readStatus s).cut = s.cut := rfl

/-! advance -/

@[simp] theorem advance_cfg (n : Nat) : (advance n s).cfg = s.cfg := rfl
@[simp] theorem advance_pins (n : Nat) : (advance n s).pins = s.pins := rfl
@[simp] theorem advance_kb (n : Nat) : (advance n s).kb = s.kb := rfl
@[simp] theorem advance_fe (n : Nat) : (advance n s).fe = s.fe := rfl
@[simp] theorem advance_mv (n : Nat) : (advance n s).mv = s.mv := rfl
@[simp] theorem advance_enc (n : Nat) : (advance n s).enc = s.enc := rfl
@[simp] theorem advance_bq (n : Nat) : (advance n s).bq = s.bq := rfl
@[simp] theorem advance_bc (n : Nat) : (advance n s).bc = s.bc := rfl
@[simp] theorem advance_dma (n : Nat) : (advance n s).dma = s.dma := rfl
@[simp] theorem advance_masked (n : Nat) : (advance n s).masked = s.masked := rfl
@[simp] theorem advance_fault (n : Nat) : (advance n s).fault = s.fault := rfl
@[simp] theorem advance_cmd (n : Nat) : (advance n s).cmd = { s.cmd with cp := s.cmd.cp + n } := rfl
@[simp] theorem advance_owned (n : Nat) : (advance n s).owned = s.owned := rfl
@[simp] theorem advance_ext (n : Nat) : (advance n s).ext = s.ext := rfl
@[simp] theorem advance_trace (n : Nat) : (advance n s).trace = s.trace := rfl
@[simp] theorem advance_draws (n : Nat) : (advance n s).draws = s.draws := rfl
@[simp] theorem advance_tape (n : Nat) : (advance n s).tape = s.tape := rfl
@[simp] theorem advance_cut (n : Nat) : (advance n s).cut = s.cut := rfl

/-! pushTxn -/

@[simp] theorem pushTxn_cfg (t : Txn) : (pushTxn t s).cfg = s.cfg := rfl
@[simp] theorem pushTxn_pins (t : Txn) : (pushTxn t s).pins = s.pins := rfl
@[simp] theorem pushTxn_kb (t : Txn) : (pushTxn t s).kb = s.kb := rfl
@[simp] theorem pushTxn_fe (t : Txn) : (pushTxn t s).fe = s.fe := rfl
@[simp] theorem pushTxn_mv (t : Txn) : (pushTxn t s).mv = s.mv := rfl
@[simp] theorem pushTxn_enc (t : Txn) : (pushTxn t s).enc = s.enc := rfl
@[simp] theorem pushTxn_bq (t : Txn) : (pushTxn t s).bq =
    { s.bq with queue := s.bq.queue ++ [t], depth := s.bq.depth + 1 } := rfl
@[simp] theorem pushTxn_bc (t : Txn) : (pushTxn t s).bc = s.bc := rfl
@[simp] theorem pushTxn_dma (t : Txn) : (pushTxn t s).dma = s.dma := rfl
@[simp] theorem pushTxn_masked (t : Txn) : (pushTxn t s).masked = s.masked := rfl
@[simp] theorem pushTxn_fault (t : Txn) : (pushTxn t s).fault = s.fault := rfl
@[simp] theorem pushTxn_cmd (t : Txn) : (pushTxn t s).cmd = s.cmd := rfl
@[simp] theorem pushTxn_owned (t : Txn) : (pushTxn t s).owned = s.owned := rfl
@[simp] theorem pushTxn_ext (t : Txn) : (pushTxn t s).ext = s.ext := rfl
@[simp] theorem pushTxn_trace (t : Txn) : (pushTxn t s).trace = s.trace := rfl
@[simp] theorem pushTxn_draws (t : Txn) : (pushTxn t s).draws = s.draws := rfl
@[simp] theorem pushTxn_tape (t : Txn) : (pushTxn t s).tape = s.tape := rfl
@[simp] theorem pushTxn_cut (t : Txn) : (pushTxn t s).cut = s.cut := rfl

/-! startFrame -/

@[simp] theorem startFrame_cfg (w : Byte) : (startFrame w s).cfg = s.cfg := rfl
@[simp] theorem startFrame_pins (w : Byte) : (startFrame w s).pins = s.pins := rfl
@[simp] theorem startFrame_kb (w : Byte) :
    (startFrame w s).kb = { s.kb with lastFrame := w, frameCount := s.kb.frameCount + 1 } := rfl
@[simp] theorem startFrame_fe (w : Byte) : (startFrame w s).fe = s.fe := rfl
@[simp] theorem startFrame_mv (w : Byte) : (startFrame w s).mv = s.mv := rfl
@[simp] theorem startFrame_enc (w : Byte) : (startFrame w s).enc = s.enc := rfl
@[simp] theorem startFrame_bq (w : Byte) : (startFrame w s).bq = s.bq := rfl
@[simp] theorem startFrame_bc (w : Byte) : (startFrame w s).bc = s.bc := rfl
@[simp] theorem startFrame_dma (w : Byte) : (startFrame w s).dma = s.dma := rfl
@[simp] theorem startFrame_masked (w : Byte) : (startFrame w s).masked = s.masked := rfl
@[simp] theorem startFrame_fault (w : Byte) : (startFrame w s).fault = s.fault := rfl
@[simp] theorem startFrame_cmd (w : Byte) : (startFrame w s).cmd = s.cmd := rfl
@[simp] theorem startFrame_owned (w : Byte) : (startFrame w s).owned = s.owned := rfl
@[simp] theorem startFrame_ext (w : Byte) : (startFrame w s).ext = s.ext := rfl
@[simp] theorem startFrame_trace (w : Byte) : (startFrame w s).trace = s.trace ++ [⟨.pri, .frame w⟩] := rfl
@[simp] theorem startFrame_draws (w : Byte) : (startFrame w s).draws = s.draws := rfl
@[simp] theorem startFrame_tape (w : Byte) : (startFrame w s).tape = s.tape := rfl
@[simp] theorem startFrame_cut (w : Byte) : (startFrame w s).cut = s.cut := rfl

/-! setRst -/

@[simp] theorem setRst_cfg (b : Bool) : (setRst b s).cfg = s.cfg := rfl
@[simp] theorem setRst_pins (b : Bool) : (setRst b s).pins = s.pins := rfl
@[simp] theorem setRst_kb (b : Bool) : (setRst b s).kb = { s.kb with rst := b } := rfl
@[simp] theorem setRst_fe (b : Bool) : (setRst b s).fe = s.fe := rfl
@[simp] theorem setRst_mv (b : Bool) : (setRst b s).mv = s.mv := rfl
@[simp] theorem setRst_enc (b : Bool) : (setRst b s).enc = s.enc := rfl
@[simp] theorem setRst_bq (b : Bool) : (setRst b s).bq = s.bq := rfl
@[simp] theorem setRst_bc (b : Bool) : (setRst b s).bc = s.bc := rfl
@[simp] theorem setRst_dma (b : Bool) : (setRst b s).dma = s.dma := rfl
@[simp] theorem setRst_masked (b : Bool) : (setRst b s).masked = s.masked := rfl
@[simp] theorem setRst_fault (b : Bool) : (setRst b s).fault = s.fault := rfl
@[simp] theorem setRst_cmd (b : Bool) : (setRst b s).cmd = s.cmd := rfl
@[simp] theorem setRst_owned (b : Bool) : (setRst b s).owned = s.owned := rfl
@[simp] theorem setRst_ext (b : Bool) : (setRst b s).ext = s.ext := rfl
@[simp] theorem setRst_trace (b : Bool) : (setRst b s).trace = s.trace := rfl
@[simp] theorem setRst_draws (b : Bool) : (setRst b s).draws = s.draws := rfl
@[simp] theorem setRst_tape (b : Bool) : (setRst b s).tape = s.tape := rfl
@[simp] theorem setRst_cut (b : Bool) : (setRst b s).cut = s.cut := rfl

/-! trioUpdate -/

@[simp] theorem trioUpdate_cfg (code : Byte) (rel : Bool) : (trioUpdate code rel s).cfg = s.cfg := rfl
@[simp] theorem trioUpdate_pins (code : Byte) (rel : Bool) : (trioUpdate code rel s).pins = s.pins := rfl
@[simp] theorem trioUpdate_kb (code : Byte) (rel : Bool) :
    (trioUpdate code rel s).kb =
      { s.kb with ctrl := if code = s.cfg.scCtrl then !rel else s.kb.ctrl,
                  lsp := if code = s.cfg.scLspecial then !rel else s.kb.lsp,
                  rsp := if code = s.cfg.scRspecial then !rel else s.kb.rsp } := rfl
@[simp] theorem trioUpdate_fe (code : Byte) (rel : Bool) : (trioUpdate code rel s).fe = s.fe := rfl
@[simp] theorem trioUpdate_mv (code : Byte) (rel : Bool) : (trioUpdate code rel s).mv = s.mv := rfl
@[simp] theorem trioUpdate_enc (code : Byte) (rel : Bool) : (trioUpdate code rel s).enc = s.enc := rfl
@[simp] theorem trioUpdate_bq (code : Byte) (rel : Bool) : (trioUpdate code rel s).bq = s.bq := rfl
@[simp] theorem trioUpdate_bc (code : Byte) (rel : Bool) : (trioUpdate code rel s).bc = s.bc := rfl
@[simp] theorem trioUpdate_dma (code : Byte) (rel : Bool) : (trioUpdate code rel s).dma = s.dma := rfl
@[simp] theorem trioUpdate_masked (code : Byte) (rel : Bool) : (trioUpdate code rel s).masked = s.masked := rfl
@[simp] theorem trioUpdate_fault (code : Byte) (rel : Bool) : (trioUpdate code rel s).fault = s.fault := rfl
@[simp] theorem trioUpdate_cmd (code : Byte) (rel : Bool) : (trioUpdate code rel s).cmd = s.cmd := rfl
@[simp] theorem trioUpdate_owned (code : Byte) (rel : Bool) : (trioUpdate code rel s).owned = s.owned := rfl
@[simp] theorem trioUpdate_ext (code : Byte) (rel : Bool) : (trioUpdate code rel s).ext = s.ext := rfl
@[simp] theorem trioUpdate_trace (code : Byte) (rel : Bool) : (trioUpdate code rel s).trace = s.trace := rfl
@[simp] theorem trioUpdate_draws (code : Byte) (rel : Bool) : (trioUpdate code rel s).draws = s.draws := rfl
@[simp] theorem trioUpdate_tape (code : Byte) (rel : Bool) : (trioUpdate code rel s).tape = s.tape := rfl
@[simp] theorem trioUpdate_cut (code : Byte) (rel : Bool) : (trioUpdate code rel s).cut = s.cut := rfl

/-! flipCaps -/

@[simp] theorem flipCaps_cfg : (flipCaps s).cfg = s.cfg := rfl
@[simp] theorem flipCaps_pins : (flipCaps s).pins = s.pins := rfl
@[simp] theorem flipCaps_kb : (flipCaps s).kb = { s.kb with caps := !s.kb.caps } := rfl
@[simp] theorem flipCaps_fe : (flipCaps s).fe = s.fe := rfl
@[simp] theorem flipCaps_mv : (flipCaps s).mv = s.mv := rfl
@[simp] theorem flipCaps_enc : (flipCaps s).enc = s.enc := rfl
@[simp] theorem flipCaps_bq : (flipCaps s).bq = s.bq := rfl
@[simp] theorem flipCaps_bc : (flipCaps s).bc = s.bc := rfl
@[simp] theorem flipCaps_dma : (flipCaps s).dma = s.dma := rfl
@[simp] theorem flipCaps_masked : (flipCaps s).masked = s.masked := rfl
@[simp] theorem flipCaps_fault : (flipCaps s).fault = s.fault := rfl
@[simp] theorem flipCaps_cmd : (flipCaps s).cmd = s.cmd := rfl
@[simp] theorem flipCaps_owned : (flipCaps s).owned = s.owned := rfl
@[simp] theorem flipCaps_ext : (flipCaps s).ext = s.ext := rfl
@[simp] theorem flipCaps_trace : (flipCaps s).trace = s.trace := rfl
@[simp] theorem flipCaps_draws : (flipCaps s).draws = s.draws := rfl
@[simp] theorem flipCaps_tape : (flipCaps s).tape = s.tape := rfl
@[simp] theorem flipCaps_cut : (flipCaps s).cut = s.cut := rfl

/-! setInitDone -/

@[simp] theorem setInitDone_cfg : (setInitDone s).cfg = s.cfg := rfl
@[simp] theorem setInitDone_pins : (setInitDone s).pins = s.pins := rfl
@[simp] theorem setInitDone_kb : (setInitDone s).kb = { s.kb with initDone := true } := rfl
@[simp] theorem setInitDone_fe : (setInitDone s).fe = s.fe := rfl
@[simp] theorem setInitDone_mv : (setInitDone s).mv = s.mv := rfl
@[simp] theorem setInitDone_enc : (setInitDone s).enc = s.enc := rfl
@[simp] theorem setInitDone_bq : (setInitDone s).bq = s.bq := rfl
@[simp] theorem setInitDone_bc : (setInitDone s).bc = s.bc := rfl
@[simp] theorem setInitDone_dma : (setInitDone s).dma = s.dma := rfl
@[simp] theorem setInitDone_masked : (setInitDone s).masked = s.masked := rfl
@[simp] theorem setInitDone_fault : (setInitDone s).fault = s.fault := rfl
@[simp] theorem setInitDone_cmd : (setInitDone s).cmd = s.cmd := rfl
@[simp] theorem setInitDone_owned : (setInitDone s).owned = s.owned := rfl
@[simp] theorem setInitDone_ext : (setInitDone s).ext = s.ext := rfl
@[simp] theorem setInitDone_trace : (setInitDone s).trace = s.trace := rfl
@[simp] theorem setInitDone_draws : (setInitDone s).draws = s.draws := rfl
@[simp] theorem setInitDone_tape : (setInitDone s).tape = s.tape := rfl
@[simp] theorem setInitDone_cut : (setInitDone s).cut = s.cut := rfl

/-! setPrevMod -/

@[simp] theorem setPrevMod_cfg (m : Byte) : (setPrevMod m s).cfg = s.cfg := rfl
@[simp] theorem setPrevMod_pins (m : Byte) : (setPrevMod m s).pins = s.pins := rfl
@[simp] theorem setPrevMod_kb (m : Byte) : (setPrevMod m s).kb = s.kb := rfl
@[simp] theorem setPrevMod_fe (m : Byte) : (setPrevMod m s).fe = { s.fe with prevMod := m } := rfl
@[simp] theorem setPrevMod_mv (m : Byte) : (setPrevMod m s).mv = s.mv := rfl
@[simp] theorem setPrevMod_enc (m : Byte) : (setPrevMod m s).enc = s.enc := rfl
@[simp] theorem setPrevMod_bq (m : Byte) : (setPrevMod m s).bq = s.bq := rfl
@[simp] theorem setPrevMod_bc (m : Byte) : (setPrevMod m s).bc = s.bc := rfl
@[simp] theorem setPrevMod_dma (m : Byte) : (setPrevMod m s).dma = s.dma := rfl
@[simp] theorem setPrevMod_masked (m : Byte) : (setPrevMod m s).masked = s.masked := rfl
@[simp] theorem setPrevMod_fault (m : Byte) : (setPrevMod m s).fault = s.fault := rfl
@[simp] theorem setPrevMod_cmd (m : Byte) : (setPrevMod m s).cmd = s.cmd := rfl
@[simp] theorem setPrevMod_owned (m : Byte) : (setPrevMod m s).owned = s.owned := rfl
@[simp] theorem setPrevMod_ext (m : Byte) : (setPrevMod m s).ext = s.ext := rfl
@[simp] theorem setPrevMod_trace (m : Byte) : (setPrevMod m s).trace = s.trace := rfl
@[simp] theorem setPrevMod_draws (m : Byte) : (setPrevMod m s).draws = s.draws := rfl
@[simp] theorem setPrevMod_tape (m : Byte) : (setPrevMod m s).tape = s.tape := rfl
@[simp] theorem setPrevMod_cut (m : Byte) : (setPrevMod m s).cut = s.cut := rfl

/-! setPrevKeys -/

@[simp] theorem setPrevKeys_cfg (k : Keys) : (setPrevKeys k s).cfg = s.cfg := rfl
@[simp] theorem setPrevKeys_pins (k : Keys) : (setPrevKeys k s).pins = s.pins := rfl
@[simp] theorem setPrevKeys_kb (k : Keys) : (setPrevKeys k s).kb = s.kb := rfl
@[simp] theorem setPrevKeys_fe (k : Keys) : (setPrevKeys k s).fe = { s.fe with prevKeys := k } := rfl
@[simp] theorem setPrevKeys_mv (k : Keys) : (setPrevKeys k s).mv = s.mv := rfl
@[simp] theorem setPrevKeys_enc (k : Keys) : (setPrevKeys k s).enc = s.enc := rfl
@[simp] theorem setPrevKeys_bq (k : Keys) : (setPrevKeys k s).bq = s.bq := rfl
@[simp] theorem setPrevKeys_bc (k : Keys) : (setPrevKeys k s).bc = s.bc := rfl
@[simp] theorem setPrevKeys_dma (k : Keys) : (setPrevKeys k s).dma = s.dma := rfl
@[simp] theorem setPrevKeys_masked (k : Keys) : (setPrevKeys k s).masked = s.masked := rfl
@[simp] theorem setPrevKeys_fault (k : Keys) : (setPrevKeys k s).fault = s.fault := rfl
@[simp] theorem setPrevKeys_cmd (k : Keys) : (setPrevKeys k s).cmd = s.cmd := rfl
@[simp] theorem setPrevKeys_owned (k : Keys) : (setPrevKeys k s).owned = s.owned := rfl
@[simp] theorem setPrevKeys_ext (k : Keys) : (setPrevKeys k s).ext = s.ext := rfl
@[simp] theorem setPrevKeys_trace (k : Keys) : (setPrevKeys k s).trace = s.trace := rfl
@[simp] theorem setPrevKeys_draws (k : Keys) : (setPrevKeys k s).draws = s.draws := rfl
@[simp] theorem setPrevKeys_tape (k : Keys) : (setPrevKeys k s).tape = s.tape := rfl
@[simp] theorem setPrevKeys_cut (k : Keys) : (setPrevKeys k s).cut = s.cut := rfl

/-! driveButton -/

@[simp] theorem driveButton_cfg (p : Pin) (b : Bool) : (driveButton p b s).cfg = s.cfg := rfl
@[simp] theorem driveButton_pins (p : Pin) (b : Bool) :
    (driveButton p b s).pins = s.pins.setDrive p (if b then .asserted else .released) := rfl
@[simp] theorem driveButton_kb (p : Pin) (b : Bool) : (driveButton p b s).kb = s.kb := rfl
@[simp] theorem driveButton_fe (p : Pin) (b : Bool) : (driveButton p b s).fe = s.fe := rfl
@[simp] theorem driveButton_mv (p : Pin) (b : Bool) : (driveButton p b s).mv = s.mv := rfl
@[simp] theorem driveButton_enc (p : Pin) (b : Bool) : (driveButton p b s).enc = s.enc := rfl
@[simp] theorem driveButton_bq (p : Pin) (b : Bool) : (driveButton p b s).bq = s.bq := rfl
@[simp] theorem driveButton_bc (p : Pin) (b : Bool) : (driveButton p b s).bc = s.bc := rfl
@[simp] theorem driveButton_dma (p : Pin) (b : Bool) : (driveButton p b s).dma = s.dma := rfl
@[simp] theorem driveButton_masked (p : Pin) (b : Bool) : (driveButton p b s).masked = s.masked := rfl
@[simp] theorem driveButton_fault (p : Pin) (b : Bool) : (driveButton p b s).fault = s.fault := rfl
@[simp] theorem driveButton_cmd (p : Pin) (b : Bool) : (driveButton p b s).cmd = s.cmd := rfl
@[simp] theorem driveButton_owned (p : Pin) (b : Bool) : (driveButton p b s).owned = s.owned := rfl
@[simp] theorem driveButton_ext (p : Pin) (b : Bool) : (driveButton p b s).ext = s.ext := rfl
@[simp] theorem driveButton_trace (p : Pin) (b : Bool) :
    (driveButton p b s).trace = s.trace ++ [⟨.pri, .pin p (if b then .asserted else .released)⟩] := rfl
@[simp] theorem driveButton_draws (p : Pin) (b : Bool) : (driveButton p b s).draws = s.draws := rfl
@[simp] theorem driveButton_tape (p : Pin) (b : Bool) : (driveButton p b s).tape = s.tape := rfl
@[simp] theorem driveButton_cut (p : Pin) (b : Bool) : (driveButton p b s).cut = s.cut := rfl

end Sys2Proof.Machine
end

