-- ==== Sys2Proof/Laws/Agents.lean ====
section
/-! SUPPORT. What the interleaving of the agents can do, said once: a predicate that single steps keep is kept by turns,
by atomic steps, by critical sections and by the interrupt; and in a quiet state an atomic step is its action alone. -/

namespace Sys2Proof.Machine

/-! ## Predicates that turns keep -/

/-- A step of ENC changes its own state, the Motion Vector, the pins and the trace, and nothing else (41_quadrature.md
R130). -/
theorem encStep_frame (s : State) :
    encStep s = { s with enc := (encStep s).enc, mv := (encStep s).mv, pins := (encStep s).pins,
                         trace := (encStep s).trace } := by
  have h : ∀ (ax : Axis) (u : State), axisAdvance ax u =
      { u with pins := (axisAdvance ax u).pins, enc := (axisAdvance ax u).enc, trace := (axisAdvance ax u).trace } := by
    intro ax u
    unfold axisAdvance
    split <;> rfl
  unfold encStep
  split
  · rfl
  · rfl
  · rfl
  · split
    · rfl
    · unfold encIteration axisDecrement
      rw [h .y, h .x]
      rfl
  · split <;> rfl

/-- The events of a step of ENC are ENC's own. -/
theorem encStep_trace (s : State) : ∃ evs : List Event,
    (encStep s).trace = s.trace ++ evs.map (fun e => ⟨.enc, e⟩) := by
  have h : ∀ (ax : Axis) (u : State),
      ∃ evs : List Event, (axisAdvance ax u).trace = u.trace ++ evs.map (fun e => ⟨.enc, e⟩) := by
    intro ax u
    unfold axisAdvance
    split
    · exact ⟨[_, _], by simp only [driveAxis, drivePin, emit, List.append_assoc]; rfl⟩
    · exact ⟨[], by simp⟩
  unfold encStep
  split
  · exact ⟨[], by simp [setEncState]⟩
  · exact ⟨[], by simp [setEncState]⟩
  · exact ⟨[], by simp [setEncState]⟩
  · split
    · exact ⟨[], by simp [setEncState]⟩
    · obtain ⟨e1, h1⟩ := h .x s
      obtain ⟨e2, h2⟩ := h .y (axisDecrement .x (axisAdvance .x s))
      refine ⟨e1 ++ e2 ++ [.wait .enc Config.tEncStep], ?_⟩
      show (axisAdvance .y (axisDecrement .x (axisAdvance .x s))).trace ++ [_] = _
      rw [h2]
      show ((axisAdvance .x s).trace ++ _) ++ [_] = _
      rw [h1]
      simp [Agent.context]
  · split <;> exact ⟨[], by simp [setEncState]⟩

/-- The schedule is not touched by a step of ENC. -/
@[simp] theorem encStep_tape (s : State) : (encStep s).tape = s.tape := by rw [encStep_frame]

/-- The schedule is not touched by a step of ENV. -/
@[simp] theorem envStep_tape (e : EnvEvent) (s : State) : (envStep e s).tape = s.tape := by
  cases e with
  | endRx bytes => simp only [envStep]; split <;> rfl
  | _ => rfl

/-- Single steps of ENC and of the ENV events the schedule holds, and moving on in the schedule, keep `P`. -/
structure TurnStable (P : State → Prop) : Prop where
  enc : ∀ s, P s → P (encStep s)
  env : ∀ e s, P s → Turn.env e ∈ s.tape → P (envStep e s)
  tape : ∀ s ts, P s → ts <:+ s.tape → P { s with tape := ts }

theorem TurnStable.runTurns {P : State → Prop} (h : TurnStable P) (ts : List Turn) (s : State) (hsub : ts <:+ s.tape)
    (hs : P s) : P (runTurns ts s) := by
  induction ts generalizing s with
  | nil => exact h.tape s [] hs (List.nil_suffix)
  | cons t rest ih =>
    have hrest : rest <:+ s.tape := (List.suffix_cons t rest).trans hsub
    cases t with
    | main => exact h.tape s rest hs hrest
    | enc => exact ih _ (by rw [encStep_tape]; exact hrest) (h.enc s hs)
    | env e => exact ih _ (by rw [envStep_tape]; exact hrest) (h.env e s hs (hsub.subset List.mem_cons_self))

theorem TurnStable.turns {P : State → Prop} (h : TurnStable P) {s : State} (hs : P s) : P (turns s) :=
  h.runTurns s.tape s (List.suffix_refl _) hs

theorem TurnStable.isrPre {P : State → Prop} (h : TurnStable P) {s : State} (hs : P s) : P (Actor.isr.pre s) := by
  show P (if s.live then Machine.turns s else s)
  split
  · exact h.turns hs
  · exact hs

theorem TurnStable.interruptReturn {P : State → Prop} (h : TurnStable P) {s : State} (hs : P s) :
    P (interruptReturn s) := by
  unfold Machine.interruptReturn
  split
  · exact h.turns hs
  · exact hs

/-! ## Atomic steps -/

/-- Everything an atomic step can do: the action, or nothing when the block has halted or been cut off. -/
theorem act_cases (A : Actor) (a : State → State) (s : State) :
    ((A.pre s).live = true ∧ A.act a s = a (A.pre s)) ∨ ((A.pre s).live = false ∧ A.act a s = A.pre s) := by
  unfold Actor.act
  cases h : (A.pre s).live <;> simp

/-- An atomic step takes `P` to `Q`. -/
theorem act_takes {A : Actor} {a : State → State} {P Q : State → Prop} {s : State}
    (hpre : P s → P (A.pre s)) (ha : ∀ t, P t → t.live = true → Q (a t)) (hdead : ∀ t, P t → t.live = false → Q t)
    (hs : P s) : Q (A.act a s) := by
  rcases act_cases A a s with ⟨hl, h⟩ | ⟨hl, h⟩ <;> rw [h]
  · exact ha _ (hpre hs) hl
  · exact hdead _ (hpre hs) hl

theorem act_keeps {A : Actor} {a : State → State} {P : State → Prop} {s : State}
    (hpre : P s → P (A.pre s)) (ha : ∀ t, P t → P (a t)) (hs : P s) : P (A.act a s) :=
  act_takes hpre (fun t ht _ => ha t ht) (fun _ ht _ => ht) hs

@[simp] theorem Actor.run_nil (A : Actor) (s : State) : A.run [] s = s := rfl

@[simp] theorem Actor.run_cons (A : Actor) (a : State → State) (as : List (State → State)) (s : State) :
    A.run (a :: as) s = A.run as (A.act a s) := rfl

theorem Actor.run_append (A : Actor) (as bs : List (State → State)) (s : State) :
    A.run (as ++ bs) s = A.run bs (A.run as s) := by
  induction as generalizing s with
  | nil => rfl
  | cons a as ih => exact ih _

theorem run_keeps {A : Actor} {P : State → Prop} (hpre : ∀ s, P s → P (A.pre s)) {as : List (State → State)}
    (ha : ∀ a ∈ as, ∀ t, P t → P (a t)) {s : State} (hs : P s) : P (A.run as s) := by
  induction as generalizing s with
  | nil => exact hs
  | cons a as ih =>
    exact ih (fun b hb => ha b (List.mem_cons_of_mem _ hb))
      (act_keeps (hpre s) (ha a List.mem_cons_self) hs)

/-! ## Predicates that every step of the bus engine keeps -/

/-- The event FRAME, which only the keyboard's frames emit (42_keyboard.md R170). -/
def Event.isFrame : Event → Bool
  | .frame _ => true
  | .pin _ _ | .wait _ _ | .resp _ | .busCfg _ _ | .dmaStart _ _ | .dmaAbort _ | .busStart _ _ | .log _ | .halt => false

/-- `P` is kept by turns and by every atomic action of the bus engine, run by agent `ag`. -/
structure BusStable (ag : Agent) (P : State → Prop) : Prop extends TurnStable P where
  /-- events of the agent but FRAME -/
  emit : ∀ e : Event, e.isFrame = false → ∀ s, P s → P (emit ag e s)
  /-- the bus lines -/
  scl : ∀ d s, P s → P (drivePin ag .scl d s)
  sda : ∀ d s, P s → P (drivePin ag .sda d s)
  funcScl : ∀ f s, P s → P (setFuncScl f s)
  funcSda : ∀ f s, P s → P (setFuncSda f s)
  pullScl : ∀ b s, P s → P (setPullScl b s)
  pullSda : ∀ b s, P s → P (setPullSda b s)
  irqEn : ∀ s, P s → P { s with bc := { s.bc with irqEn := true } }
  ready : ∀ s, P s → P { s with bq := { s.bq with ready := true } }
  raise : ∀ b s, P s → P (raise b s)
  mask : ∀ m s, P s → P (setMasked m s)
  prepare : ∀ t s, P s → P (prepareDispatch t s)
  dmaStart : ∀ ch buf n s, P s → P (dmaStart ag ch buf n s)
  dmaAbort : ∀ ch s, P s → P (dmaAbort ag ch s)
  markInflight : ∀ s, P s → P (markInflight s)
  notInflight : ∀ s, P s → P { s with bq := { s.bq with inflight := false } }
  readStatus : ∀ s, P s → P (readStatus s)
  countFault : ∀ s, P s → P { s with bq := { s.bq with faultCount := s.bq.faultCount + 1 } }
  pop : ∀ s, P s → P (popAndFree s)

namespace BusStable

variable {P : State → Prop} {A : Actor}

theorem raiseLog (h : BusStable A.agent P) (hpre : ∀ s, P s → P (A.pre s)) (b : FaultBit) (k : LogKind) {s : State}
    (hs : P s) : P (A.raiseLog b k s) := by
  refine run_keeps hpre ?_ hs
  intro a ha u hu
  simp only [List.mem_cons, List.not_mem_nil, or_false] at ha
  rcases ha with rfl | rfl
  · exact h.raise _ _ hu
  · exact h.emit _ rfl _ hu

theorem dispatch (h : BusStable A.agent P) (hpre : ∀ s, P s → P (A.pre s)) {last : State → State}
    (hlast : ∀ s, P s → P (last s)) (t : Txn) {s : State} (hs : P s) : P (dispatch A last t s) := by
  unfold Machine.dispatch
  split
  · refine run_keeps hpre ?_ hs
    intro a ha u hu
    simp only [List.mem_cons, List.not_mem_nil, or_false] at ha
    rcases ha with rfl | rfl | rfl
    · exact h.raise _ _ hu
    · exact h.emit _ rfl _ hu
    · exact hlast _ (h.emit _ rfl _ (h.raise _ _ hu))
  · refine run_keeps hpre ?_ hs
    intro a ha u hu
    simp only [dispatchSteps, List.mem_append, List.mem_cons, List.not_mem_nil, or_false] at ha
    rcases ha with (rfl | ha) | rfl | rfl | rfl
    · exact h.prepare _ _ hu
    · split at ha
      · simp only [List.mem_cons, List.not_mem_nil, or_false] at ha
        subst ha
        exact h.dmaStart _ _ _ _ hu
      · simp at ha
    · exact h.dmaStart _ _ _ _ hu
    · exact h.emit _ rfl _ hu
    · exact h.markInflight _ hu

theorem toggleClock (h : BusStable A.agent P) (hpre : ∀ s, P s → P (A.pre s)) (k : Nat) {s : State} (hs : P s) :
    P (toggleClock A k s).2 := by
  induction k generalizing s with
  | zero => exact hs
  | succ k ih =>
    have hc : P (A.pre (A.run (recoveryCycle A.agent) s)) := by
      refine hpre _ (run_keeps hpre ?_ hs)
      intro a ha u hu
      simp only [recoveryCycle, List.mem_cons, List.not_mem_nil, or_false] at ha
      rcases ha with rfl | rfl | rfl | rfl
      · exact h.scl _ _ hu
      · exact h.emit _ rfl _ hu
      · exact h.scl _ _ hu
      · exact h.emit _ rfl _ hu
    simp only [Machine.toggleClock]
    split
    · exact hc
    · exact ih hc

theorem probeAndRecover (h : BusStable A.agent P) (hpre : ∀ s, P s → P (A.pre s)) {s : State} (hs : P s) :
    P (probeAndRecover A s) := by
  have h1 : P (A.pre (A.pre (A.run (floatSteps A.agent) s))) := by
    refine hpre _ (hpre _ (run_keeps hpre ?_ hs))
    intro a ha u hu
    simp only [floatSteps, List.mem_cons, List.not_mem_nil, or_false] at ha
    rcases ha with rfl | rfl | rfl | rfl
    · exact h.funcScl _ _ hu
    · exact h.funcSda _ _ hu
    · exact h.scl _ _ hu
    · exact h.sda _ _ hu
  simp only [Machine.probeAndRecover]
  split
  · have h2 := h.toggleClock hpre Config.recoveryMaxCycles
      (h.raiseLog hpre .busStuck .busStuck h1)
    simp only [Machine.recover]
    split
    · exact h2
    · exact h.raiseLog hpre _ _ h2
  · exact h1

theorem busInit (h : BusStable A.agent P) (hpre : ∀ s, P s → P (A.pre s)) {s : State} (hs : P s) :
    P (busInit A s) := by
  refine run_keeps hpre ?_ (h.probeAndRecover hpre hs)
  intro a ha u hu
  simp only [configureSteps, List.mem_cons, List.not_mem_nil, or_false] at ha
  rcases ha with rfl | rfl | rfl | rfl | rfl | rfl | rfl
  · exact h.emit _ rfl _ hu
  · exact h.funcScl _ _ hu
  · exact h.funcSda _ _ hu
  · exact h.pullScl _ _ hu
  · exact h.pullSda _ _ hu
  · exact h.irqEn _ hu
  · exact h.ready _ hu

theorem abortIfBusy (h : BusStable A.agent P) (hpre : ∀ s, P s → P (A.pre s)) (ch : Channel) {s : State} (hs : P s) :
    P (abortIfBusy A ch s) := by
  unfold Machine.abortIfBusy
  split
  · exact act_keeps (hpre _) (h.dmaAbort _) (hpre _ hs)
  · exact hpre _ hs

theorem faultPath (h : BusStable A.agent P) (hpre : ∀ s, P s → P (A.pre s)) {s : State} (hs : P s) :
    P (faultPath A s) := by
  refine h.busInit hpre (h.abortIfBusy hpre _ (h.abortIfBusy hpre _ (run_keeps hpre ?_ hs)))
  intro a ha u hu
  simp only [busFaultSteps, List.mem_cons, List.not_mem_nil, or_false] at ha
  rcases ha with rfl | rfl | rfl
  · exact h.raise _ _ hu
  · exact h.countFault _ hu
  · exact h.emit _ rfl _ hu

theorem dispatchNext (h : BusStable A.agent P) (hpre : ∀ s, P s → P (A.pre s)) {s : State} (hs : P s) :
    P (dispatchNext A s) := by
  unfold Machine.dispatchNext
  split
  · exact hs
  · exact act_keeps (hpre _) (h.mask _) (h.dispatch hpre (fun _ hu => hu) _ (act_keeps (hpre _) (h.mask _) hs))

/-- The first two atomic steps of the completion handler: the transfer is over and the status is read. -/
def statusSteps : List (State → State) :=
  [fun s => { s with bq := { s.bq with inflight := false } }, Machine.readStatus]

/-- What holds once the status is read holds when the handler returns. -/
theorem completionTail (h : BusStable .isr P) {s : State} (h1 : P (Actor.isr.run statusSteps s)) :
    P (completionHandler s) := by
  have hpre : ∀ s, P s → P (Actor.isr.pre s) := fun _ hu => h.toTurnStable.isrPre hu
  simp only [statusSteps] at h1
  simp only [Machine.completionHandler]
  split
  · exact BusStable.raiseLog (A := .isr) h hpre _ _ h1
  · refine BusStable.dispatchNext (A := .isr) h hpre (act_keeps (hpre _) h.pop ?_)
    split
    · exact BusStable.faultPath (A := .isr) h hpre h1
    · exact h1

/-- The completion handler keeps `P`. -/
theorem completionHandler (h : BusStable .isr P) {s : State} (hs : P s) : P (completionHandler s) := by
  refine h.completionTail (run_keeps (fun _ hu => h.toTurnStable.isrPre hu) ?_ hs)
  intro a ha u hu
  simp only [statusSteps, List.mem_cons, List.not_mem_nil, or_false] at ha
  rcases ha with rfl | rfl
  · exact h.notInflight _ hu
  · exact h.readStatus _ hu

theorem takeInterrupt (h : BusStable .isr P) (n : Nat) {s : State} (hs : P s) : P (takeInterrupt n s) := by
  induction n generalizing s with
  | zero => exact hs
  | succ n ih =>
    unfold Machine.takeInterrupt
    split
    · exact ih (h.toTurnStable.interruptReturn (h.completionHandler hs))
    · exact hs

/-- What comes before an atomic step of PRI keeps `P`. -/
theorem boundary (h : BusStable .isr P) {s : State} (hs : P s) : P (boundary s) := by
  unfold Machine.boundary
  split
  · exact h.takeInterrupt _ (h.toTurnStable.turns hs)
  · exact hs

end BusStable

/-! ## Quiet states -/

theorem State.Settled.live {s : State} (h : s.Settled) : s.live = true := by
  simp [State.live, h.cut, h.halted]

theorem State.Settled.not_ready {s : State} (h : s.Settled) : s.irqReady = false := by
  simp [State.irqReady, h.pending]

theorem turns_of_empty {s : State} (h : s.tape = []) : turns s = s := by
  cases s; simp_all [turns, runTurns]

/-- In a quiet state nothing comes before an atomic step of PRI. -/
theorem boundary_of_settled {s : State} (h : s.Settled) : boundary s = s := by
  unfold boundary
  rw [if_pos h.live, turns_of_empty h.tape]
  unfold takeInterrupt
  simp [h.not_ready]

theorem pri_pre_of_settled {s : State} (h : s.Settled) : Actor.pri.pre s = s := boundary_of_settled h

/-- In a quiet state an atomic step of PRI is its action. -/
theorem act_of_settled {s : State} (h : s.Settled) (a : State → State) : Actor.pri.act a s = a s := by
  unfold Actor.act
  rw [pri_pre_of_settled h, if_pos h.live]

/-- Quietness depends on four fields only. -/
theorem State.Settled.congr {s t : State} (h : s.Settled) (htape : t.tape = s.tape) (hcut : t.cut = s.cut)
    (hfault : t.halted = s.halted) (hpend : t.pending = s.pending) : t.Settled :=
  ⟨htape.trans h.tape, hcut.trans h.cut, hfault.trans h.halted, hpend.trans h.pending⟩

/-- In a quiet state a run of atomic steps that stay quiet is its actions, one after the other. -/
theorem run_of_settled {as : List (State → State)} (ha : ∀ a ∈ as, ∀ t : State, t.Settled → (a t).Settled) {s : State}
    (h : s.Settled) : Actor.pri.run as s = as.foldl (fun t a => a t) s ∧ (as.foldl (fun t a => a t) s).Settled := by
  induction as generalizing s with
  | nil => exact ⟨rfl, h⟩
  | cons a as ih =>
    rw [Actor.run_cons, act_of_settled h]
    exact ih (fun b hb => ha b (List.mem_cons_of_mem _ hb)) (ha a List.mem_cons_self s h)

/-- The end of a command in a quiet state. -/
theorem endCommand_of_settled {s : State} (h : s.Settled) (n : Nat) : endCommand n s = advance n s := by
  unfold endCommand
  rw [act_of_settled h]
  have hc : (advance n s).cut = false := h.cut
  cases hs : advance n s
  simp_all

/-- With no turn scheduled, an atomic step of ISR is its action, while the block lives. -/
theorem isr_act_of_empty {s : State} (ht : s.tape = []) (hl : s.live = true) (a : State → State) :
    Actor.isr.act a s = a s := by
  have hp : Actor.isr.pre s = s := by
    show (if s.live then turns s else s) = s
    rw [if_pos hl, turns_of_empty ht]
  unfold Actor.act
  rw [hp, if_pos hl]

end Sys2Proof.Machine
end

