-- ==== Sys2Proof/Laws/Encoder.lean ====
section
/-! SUPPORT. What one iteration of the encoder does, said once (41_quadrature.md R134 to R140). -/

namespace Sys2Proof.Laws

open Sys2Proof.Machine Sys2Proof.Claims

/-- The test of R139: the remainder is nonzero and the divisor divides it. -/
theorem advances_eq (D : Nat) (c : Byte) : advances D c = true ↔ (c ≠ 0 ∧ (D : Int) ∣ c.toInt) := by
  simp only [advances, Int.dvd_iff_emod_eq_zero, Bool.and_eq_true, bne_iff_ne, decide_eq_true_iff]

/-- The next phase of a nonzero remainder (R139). -/
theorem nextPhase_eq (p : BitVec 2) (c : Byte) (h : c ≠ 0) : nextPhase p c = if c.toInt < 0 then p - 1 else p + 1 := by
  have h2 : ∀ c : Byte, c ≠ 0 → sign c = if c.toInt < 0 then -1 else 1 := by decide +kernel
  unfold nextPhase
  rw [h2 c h]
  split
  · revert p; decide
  · rfl

/-- One nearer to zero (R140). -/
theorem toward_eq (c : Byte) : towardZero c = if c.toInt < 0 then c + 1 else if c.toInt = 0 then c else c - 1 := by
  have h : ∀ c : Byte, towardZero c =
      if c.toInt < 0 then c + 1 else if c.toInt = 0 then c else c - 1 := by decide +kernel
  exact h c

/-- One nearer to zero, as an integer. -/
theorem toward_toInt (c : Byte) : (towardZero c).toInt = c.toInt - sign c := by
  have h : ∀ c : Byte, (towardZero c).toInt = c.toInt - sign c := by decide +kernel
  exact h c

/-- The magnitude falls by one, and stays at zero. -/
theorem toward_natAbs (c : Byte) : (towardZero c).toInt.natAbs = c.toInt.natAbs - 1 := by
  have h : ∀ c : Byte, (towardZero c).toInt.natAbs = c.toInt.natAbs - 1 := by decide +kernel
  exact h c

/-- Everything one iteration does (R138): each axis by itself, X driven before Y. -/
theorem encIteration_eq (s : State) :
    encIteration s =
      (let mx := advances s.cfg.encDivisor s.enc.remx
       let my := advances s.cfg.encDivisor s.enc.remy
       let px := if mx then nextPhase s.enc.phx s.enc.remx else s.enc.phx
       let py := if my then nextPhase s.enc.phy s.enc.remy else s.enc.phy
       let sx := if mx then driveAxis .x px s else s
       let sy := if my then driveAxis .y py sx else sx
       wait .enc Config.tEncStep { sy with enc := ⟨s.enc.state, towardZero s.enc.remx, towardZero s.enc.remy, px, py⟩ }) := by
  unfold encIteration
  cases hx : advances s.cfg.encDivisor s.enc.remx <;> cases hy : advances s.cfg.encDivisor s.enc.remy
  · have e1 : axisAdvance .x s = s := by unfold axisAdvance; rw [if_neg (by exact ne_true_of_eq_false hx)]
    rw [e1]
    have e2 : axisAdvance .y (axisDecrement .x s) = axisDecrement .x s := by
      unfold axisAdvance; rw [if_neg (by exact ne_true_of_eq_false hy)]
    rw [e2]; rfl
  · have e1 : axisAdvance .x s = s := by unfold axisAdvance; rw [if_neg (by exact ne_true_of_eq_false hx)]
    rw [e1]
    unfold axisAdvance; rw [if_pos (by exact hy)]; rfl
  · have e1 : axisAdvance .x s = driveAxis .x (nextPhase s.enc.phx s.enc.remx)
        { s with enc := { s.enc with phx := nextPhase s.enc.phx s.enc.remx } } := by
      unfold axisAdvance; rw [if_pos (by exact hx)]; rfl
    rw [e1]
    unfold axisAdvance; rw [if_neg (by exact ne_true_of_eq_false hy)]; rfl
  · have e1 : axisAdvance .x s = driveAxis .x (nextPhase s.enc.phx s.enc.remx)
        { s with enc := { s.enc with phx := nextPhase s.enc.phx s.enc.remx } } := by
      unfold axisAdvance; rw [if_pos (by exact hx)]; rfl
    rw [e1]
    unfold axisAdvance; rw [if_pos (by exact hy)]; rfl

/-- DriveAxis in the words of the claims (R134). -/
theorem driveAxis_eq (ax : Axis) (ph : BitVec 2) (s : State) :
    driveAxis ax ph s = axisDriven ax (phaseLines ph).1 (phaseLines ph).2 s := by
  simp [driveAxis, axisDriven, drivePin, emit, traced, driven, Pins.setDrive]

end Sys2Proof.Laws
end

