-- ==== Sys2Proof/Laws/Encoding.lean ====
section
/-! SUPPORT. Fields, payload bytes and opcodes: what packing and unpacking give. -/

namespace Sys2Proof.Laws

/-- The packed payload has a word for every four bytes begun (R85). -/
theorem packBytes_length (bytes : List Byte) : (packBytes bytes).length = (bytes.length + 3) / 4 := by
  induction bytes using packBytes.induct with
  | case1 => rfl
  | case2 => simp [packBytes]
  | case3 => simp [packBytes]
  | case4 => simp [packBytes]
  | case5 b0 b1 b2 b3 rest ih => simp only [packBytes, List.length_cons, ih]; omega

theorem append8_toNat {n : Nat} (x : BitVec n) (b : Byte) : (x ++ b).toNat = 256 * x.toNat + b.toNat := by
  rw [BitVec.toNat_append, ← Nat.shiftLeft_add_eq_or_of_lt b.isLt, Nat.shiftLeft_eq]; omega

/-- A payload word as a number: byte 0 lowest (30_encoding.md R85). -/
theorem packWord_toNat (b0 b1 b2 b3 : Byte) :
    (packWord b0 b1 b2 b3).toNat = b0.toNat + 256 * b1.toNat + 65536 * b2.toNat + 16777216 * b3.toNat := by
  unfold packWord
  rw [append8_toNat, append8_toNat, append8_toNat]; omega

/-- The bytes of a payload word are the bytes it was packed from. -/
theorem packWord_bytes (b0 b1 b2 b3 : Byte) :
    (packWord b0 b1 b2 b3).extractLsb' 0 8 = b0 ∧ (packWord b0 b1 b2 b3).extractLsb' 8 8 = b1 ∧
    (packWord b0 b1 b2 b3).extractLsb' 16 8 = b2 ∧ (packWord b0 b1 b2 b3).extractLsb' 24 8 = b3 := by
  have h0 := b0.isLt; have h1 := b1.isLt; have h2 := b2.isLt; have h3 := b3.isLt
  refine ⟨?_, ?_, ?_, ?_⟩ <;> apply BitVec.eq_of_toNat_eq <;>
    simp only [BitVec.extractLsb'_toNat, packWord_toNat, Nat.shiftRight_eq_div_pow] <;> omega

/-- The fields of a header word are the fields it was built from (R81). -/
theorem headerWord_fields (op a b c : Byte) :
    fieldOp (headerWord op a b c) = op ∧ fieldA (headerWord op a b c) = a ∧ fieldB (headerWord op a b c) = b ∧
    fieldC (headerWord op a b c) = c := by
  have h := packWord_bytes c b a op
  exact ⟨h.2.2.2, h.2.2.1, h.2.1, h.1⟩

/-- A word is built from its own fields. -/
theorem header_eq (w : Word) : w = headerWord (fieldOp w) (fieldA w) (fieldB w) (fieldC w) := by
  apply BitVec.eq_of_toNat_eq
  have := packWord_toNat (fieldC w) (fieldB w) (fieldA w) (fieldOp w)
  show _ = (packWord (fieldC w) (fieldB w) (fieldA w) (fieldOp w)).toNat
  rw [this]
  have hw := w.isLt
  simp only [fieldC, fieldB, fieldA, fieldOp, BitVec.extractLsb'_toNat, Nat.shiftRight_eq_div_pow]
  omega

/-- The first four payload bytes come from the first payload word. -/
theorem payloadByte_low (b0 b1 b2 b3 : Byte) (rest : List Word) :
    payloadByte (packWord b0 b1 b2 b3 :: rest) 0 = b0 ∧ payloadByte (packWord b0 b1 b2 b3 :: rest) 1 = b1 ∧
    payloadByte (packWord b0 b1 b2 b3 :: rest) 2 = b2 ∧ payloadByte (packWord b0 b1 b2 b3 :: rest) 3 = b3 :=
  packWord_bytes b0 b1 b2 b3

/-- Later payload bytes come from later payload words. -/
theorem payloadByte_high (w : Word) (rest : List Word) (k : Nat) :
    payloadByte (w :: rest) (k + 4) = payloadByte rest k := by
  simp [payloadByte, show (k + 4) / 4 = k / 4 + 1 by omega]

/-- A payload byte read from packed bytes, whatever follows them. -/
theorem payloadByte_packBytes (bytes : List Byte) (rest : List Word) (k : Nat) (hk : k < bytes.length) :
    payloadByte (packBytes bytes ++ rest) k = bytes[k] := by
  induction bytes using packBytes.induct generalizing k with
  | case1 => simp at hk
  | case2 b0 => simp at hk; subst hk; exact (payloadByte_low b0 0 0 0 rest).1
  | case3 b0 b1 =>
    have h := payloadByte_low b0 b1 0 0 rest
    match k, hk with
    | 0, _ => exact h.1
    | 1, _ => exact h.2.1
  | case4 b0 b1 b2 =>
    have h := payloadByte_low b0 b1 b2 0 rest
    match k, hk with
    | 0, _ => exact h.1
    | 1, _ => exact h.2.1
    | 2, _ => exact h.2.2.1
  | case5 b0 b1 b2 b3 tl ih =>
    have h := payloadByte_low b0 b1 b2 b3 (packBytes tl ++ rest)
    match k, hk with
    | 0, _ => exact h.1
    | 1, _ => exact h.2.1
    | 2, _ => exact h.2.2.1
    | 3, _ => exact h.2.2.2
    | k + 4, hk =>
      show payloadByte (packWord b0 b1 b2 b3 :: (packBytes tl ++ rest)) (k + 4) = _
      rw [payloadByte_high, ih k (by simpa using hk)]
      rfl

/-- Packing and unpacking a payload gives it back. -/
theorem payloadBytes_packBytes (bytes : List Byte) (rest : List Word) :
    payloadBytes (packBytes bytes ++ rest) bytes.length = bytes := by
  apply List.ext_getElem
  · simp [payloadBytes]
  · intro k h1 h2; simp [payloadBytes, payloadByte_packBytes bytes rest k h2]

/-- Each operation is what its own OP value names (R82). -/
theorem opOf_code (o : Op) : opOf o.code = some o := by cases o <;> decide

/-- An OP value names one operation, or is no operation's. -/
theorem opOf_spec (op : Byte) : (∃ o, opOf op = some o ∧ op = o.code) ∨ (opOf op = none ∧ ∀ o : Op, op ≠ o.code) := by
  unfold opOf
  cases h : Op.all.find? (fun o => o.code == op) with
  | none =>
    right; refine ⟨rfl, fun o ho => ?_⟩
    have := List.find?_eq_none.mp h o (by cases o <;> decide)
    simp [ho] at this
  | some o =>
    left; have := List.find?_some h
    exact ⟨o, rfl, by simpa using (eq_comm.mp (by simpa using this))⟩

/-- A mask and a match, field by field. -/
theorem and_match (w m k : Word) : w &&& m = k ↔ fieldOp w &&& fieldOp m = fieldOp k ∧
    fieldA w &&& fieldA m = fieldA k ∧
    fieldB w &&& fieldB m = fieldB k ∧ fieldC w &&& fieldC m = fieldC k := by
  have e : ∀ n, ((w &&& m).extractLsb' n 8 : Byte) = w.extractLsb' n 8 &&& m.extractLsb' n 8 := by
    intro n; ext i; simp
  simp only [fieldOp, fieldA, fieldB, fieldC, ← e]
  constructor
  · rintro rfl; exact ⟨rfl, rfl, rfl, rfl⟩
  · rintro ⟨h1, h2, h3, h4⟩
    rw [header_eq (w &&& m), header_eq k]
    simp only [fieldOp, fieldA, fieldB, fieldC, h1, h2, h3, h4]

end Sys2Proof.Laws
end

