-- ==== Sys2Proof/Laws/Memory.lean ====
section
/-! SUPPORT. Owned storage: every operation keeps the canonical form, and a read after a write gives what was
written. -/

namespace Sys2Proof.Machine

/-! ## Cells -/

theorem Memory.wf_iff_pairwise (m : List Host.Cell) :
    Memory.wf m = true ↔ m.Pairwise (fun a b => a.1 < b.1) := by
  induction m with
  | nil => simp [Memory.wf]
  | cons c rest ih =>
    cases rest with
    | nil => simp [Memory.wf]
    | cons d rest =>
      rw [Memory.wf, Bool.and_eq_true, ih, decide_eq_true_iff, List.pairwise_cons (a := c)]
      constructor
      · rintro ⟨hcd, hp⟩
        refine ⟨?_, hp⟩
        intro x hx
        rcases List.mem_cons.mp hx with rfl | hx
        · exact hcd
        · exact lt_trans hcd ((List.pairwise_cons.mp hp).1 x hx)
      · rintro ⟨hall, hp⟩
        exact ⟨hall d (by simp), hp⟩

theorem mem_writeCell_address {a : Nat} {v : Byte} {m : List Host.Cell} {c : Host.Cell} (h : c ∈ writeCell a v m) :
    c.1 = a ∨ c ∈ m := by
  induction m with
  | nil => simp only [writeCell, List.mem_singleton] at h; exact .inl (by rw [h])
  | cons d rest ih =>
    obtain ⟨b, x⟩ := d
    simp only [writeCell] at h
    split at h
    · rcases List.mem_cons.mp h with rfl | h
      · exact .inl rfl
      · exact .inr h
    · split at h
      · rcases List.mem_cons.mp h with rfl | h
        · exact .inl rfl
        · exact .inr (List.mem_cons_of_mem _ h)
      · rcases List.mem_cons.mp h with rfl | h
        · exact .inr List.mem_cons_self
        · rcases ih h with h | h
          · exact .inl h
          · exact .inr (List.mem_cons_of_mem _ h)

theorem writeCell_wf (a : Nat) (v : Byte) (m : List Host.Cell) (h : Memory.wf m = true) :
    Memory.wf (writeCell a v m) = true := by
  rw [Memory.wf_iff_pairwise] at h ⊢
  induction m with
  | nil => simp [writeCell]
  | cons d rest ih =>
    obtain ⟨b, x⟩ := d
    obtain ⟨hd, hp⟩ := List.pairwise_cons.mp h
    simp only [writeCell]
    split
    · rename_i hab
      refine List.pairwise_cons.mpr ⟨?_, h⟩
      intro c hc
      rcases List.mem_cons.mp hc with rfl | hc
      · exact hab
      · exact lt_trans hab (hd c hc)
    · split
      · rename_i hab
        subst hab
        exact List.pairwise_cons.mpr ⟨hd, hp⟩
      · refine List.pairwise_cons.mpr ⟨?_, ih hp⟩
        intro c hc
        rcases mem_writeCell_address hc with hca | hc
        · rw [hca]; show b < a; omega
        · exact hd c hc

theorem filter_wf (p : Host.Cell → Bool) (m : List Host.Cell) (h : Memory.wf m = true) :
    Memory.wf (m.filter p) = true := by
  rw [Memory.wf_iff_pairwise] at h ⊢
  exact h.filter p

@[simp] theorem readCell_writeCell_same (a : Nat) (v : Byte) (m : List Host.Cell) :
    readCell a (writeCell a v m) = some v := by
  induction m with
  | nil => simp [writeCell, readCell]
  | cons d rest ih =>
    obtain ⟨b, x⟩ := d
    simp only [writeCell]
    split
    · simp [readCell]
    · split
      · simp [readCell]
      · rename_i h1 h2; simp [readCell, h2, ih]

theorem readCell_writeCell_other {a b : Nat} (h : b ≠ a) (v : Byte) (m : List Host.Cell) :
    readCell b (writeCell a v m) = readCell b m := by
  induction m with
  | nil => simp [writeCell, readCell, h]
  | cons d rest ih =>
    obtain ⟨c, x⟩ := d
    simp only [writeCell]
    split
    · simp [readCell, h]
    · split
      · rename_i _ hac; subst hac; simp [readCell, h]
      · simp only [readCell, ih]

/-! ## Buffers -/

theorem byteAddr_ne {h i k : Nat} (hik : i ≠ k) : byteAddr h i ≠ byteAddr h k := by
  simp only [byteAddr, bufRoom]; omega

@[simp] theorem Owned.write_live (o : Owned) (h i : Nat) (v : Byte) : (o.write h i v).live = o.live := by
  unfold Owned.write; split <;> rfl

@[simp] theorem Owned.write_next (o : Owned) (h i : Nat) (v : Byte) : (o.write h i v).next = o.next := by
  unfold Owned.write; split <;> rfl

theorem Owned.write_wf (o : Owned) (h i : Nat) (v : Byte) (hw : Memory.wf o.cells = true) :
    Memory.wf (o.write h i v).cells = true := by
  unfold Owned.write
  split
  · exact writeCell_wf _ _ _ hw
  · exact hw

@[simp] theorem Owned.inRange_write (o : Owned) (h i : Nat) (v : Byte) (k j : Nat) :
    (o.write h i v).inRange k j = o.inRange k j := by
  simp [Owned.inRange, Owned.sizeOf?]

/-- A read after a write: the written byte reads back. -/
theorem Owned.read_write_same (o : Owned) (h i : Nat) (v : Byte) (hr : o.inRange h i = true) :
    (o.write h i v).read h i = some v := by
  unfold Owned.read
  rw [Owned.inRange_write, if_pos hr]
  unfold Owned.write
  rw [if_pos hr]
  simp

/-- A read after a write: every other byte of the buffer reads as before. -/
theorem Owned.read_write_other (o : Owned) (h i k : Nat) (v : Byte) (hk : k ≠ i) :
    (o.write h i v).read h k = o.read h k := by
  unfold Owned.read
  rw [Owned.inRange_write]
  split
  · unfold Owned.write
    split
    · rw [readCell_writeCell_other (byteAddr_ne hk)]
    · rfl
  · rfl

@[simp] theorem Owned.writeFrom_live (h d i : Nat) (vs : List Byte) (o : Owned) :
    (Owned.writeFrom o h d i vs).live = o.live := by
  induction vs generalizing o i with
  | nil => rfl
  | cons v vs ih => rw [Owned.writeFrom, ih, Owned.write_live]

@[simp] theorem Owned.writeFrom_next (h d i : Nat) (vs : List Byte) (o : Owned) :
    (Owned.writeFrom o h d i vs).next = o.next := by
  induction vs generalizing o i with
  | nil => rfl
  | cons v vs ih => rw [Owned.writeFrom, ih, Owned.write_next]

theorem Owned.writeFrom_wf (h d i : Nat) (vs : List Byte) (o : Owned) (hw : Memory.wf o.cells = true) :
    Memory.wf (Owned.writeFrom o h d i vs).cells = true := by
  induction vs generalizing o i with
  | nil => exact hw
  | cons v vs ih => exact ih _ _ (o.write_wf h i v hw)

theorem Owned.alloc_wf (o : Owned) (n : Nat) (hw : Memory.wf o.cells = true) :
    Memory.wf (o.alloc n).2.cells = true := hw

theorem Owned.free_wf (o : Owned) (h : Nat) (hw : Memory.wf o.cells = true) :
    Memory.wf (o.free h).cells = true := filter_wf _ _ hw

theorem Owned.freeOpt_wf (o : Owned) (h : Option Nat) (hw : Memory.wf o.cells = true) :
    Memory.wf (o.freeOpt h).cells = true := by
  cases h with
  | none => exact hw
  | some h => exact o.free_wf h hw

theorem deliver_wf (c : Chan) (bytes : List Byte) (o : Owned) (hw : Memory.wf o.cells = true) :
    Memory.wf (deliver c bytes o).cells = true := by
  unfold deliver
  split
  · exact Owned.writeFrom_wf _ _ _ _ _ hw
  · exact hw

/-- What RX delivers leaves the buffers and the next handle alone. -/
theorem deliver_frame (c : Chan) (bytes : List Byte) (o : Owned) :
    (deliver c bytes o).live = o.live ∧ (deliver c bytes o).next = o.next := by
  unfold deliver
  split
  · exact ⟨Owned.writeFrom_live _ _ _ _ _, Owned.writeFrom_next _ _ _ _ _⟩
  · exact ⟨rfl, rfl⟩

/-- The memory of the reset state has the canonical form. -/
theorem reset_memory_wf : Memory.wf State.reset.owned.cells = true := by decide

/-- What MakeTxn returns (43_bus_queue.md R202). -/
theorem makeTxn_txn (A : Actor) (bytes : List Byte) (r : Byte) (s : State) :
    (makeTxn A bytes r s).1.wdata = bytes ∧ (makeTxn A bytes r s).1.r = r := ⟨rfl, rfl⟩

/-! ## Fresh buffers, and bytes read back -/

/-- A fresh handle is no live buffer's. -/
theorem not_mem_fresh {o : Owned} (hn : ∀ h ∈ o.handles, h < o.next) : o.next ∉ o.handles :=
  fun h => by have := hn _ h; omega

/-- A new buffer has the size asked for. -/
theorem sizeOf_append {o : Owned} (hn : o.next ∉ o.handles) (n : Nat) : (o.alloc n).2.sizeOf? o.next = some n := by
  unfold Owned.sizeOf? Owned.alloc
  rw [List.find?_append]
  have : o.live.find? (fun b => b.handle == o.next) = none := by
    rw [List.find?_eq_none]; intro b hb hx
    exact hn (List.mem_map.mpr ⟨b, hb, by simpa using hx⟩)
  rw [this]; simp

/-- A new buffer leaves the sizes of the others. -/
theorem sizeOf_append_old {o : Owned} {h : Nat} (n : Nat) {k : Nat} (hk : o.sizeOf? h = some k) :
    (o.alloc n).2.sizeOf? h = some k := by
  unfold Owned.sizeOf? Owned.alloc at *
  rw [List.find?_append]
  cases hx : o.live.find? (fun b => b.handle == h) with
  | none => rw [hx] at hk; cases hk
  | some b => rw [hx] at hk; simpa using hk

theorem sizeOf_writeFrom (o : Owned) (h d i : Nat) (vs) (k) :
    (Owned.writeFrom o h d i vs).sizeOf? k = o.sizeOf? k := by
  unfold Owned.sizeOf?; rw [Owned.writeFrom_live]

/-- Writing consecutive bytes leaves every other address alone. -/
theorem readCell_writeFrom_out (vs : List Byte) :
    ∀ (o : Owned) (h i a : Nat), ¬ (byteAddr h i ≤ a ∧ a < byteAddr h (i + vs.length)) →
    readCell a (Owned.writeFrom o h 1 i vs).cells = readCell a o.cells := by
  induction vs with
  | nil => intros; rfl
  | cons v vs ih =>
    intro o h i a ha
    simp only [byteAddr, List.length_cons] at ha
    rw [Owned.writeFrom, ih _ _ _ _ (by simp only [byteAddr]; omega)]
    unfold Owned.write
    split
    · rw [readCell_writeCell_other]; simp only [byteAddr]; omega
    · rfl

/-- Bytes written are read back. -/
theorem read_writeFrom (vs : List Byte) :
    ∀ (o : Owned) (h i n : Nat), o.sizeOf? h = some n → i + vs.length ≤ n → ∀ k (hk : k < vs.length),
    (Owned.writeFrom o h 1 i vs).read h (i + k) = some vs[k] := by
  induction vs with
  | nil => intro _ _ _ _ _ _ k hk; simp at hk
  | cons v vs ih =>
    intro o h i n hs hl k hk
    simp only [List.length_cons] at hl hk
    have hr : ∀ j, j < n → o.inRange h j = true := by intro j hj; simp [Owned.inRange, hs, hj]
    cases k with
    | zero =>
      rw [Owned.writeFrom]
      have : (Owned.writeFrom (o.write h i v) h 1 (i+1) vs).read h (i + 0) = (o.write h i v).read h i := by
        have hin : (Owned.writeFrom (o.write h i v) h 1 (i+1) vs).inRange h i = (o.write h i v).inRange h i := by
          unfold Owned.inRange; rw [sizeOf_writeFrom]
        unfold Owned.read
        simp only [Nat.add_zero]
        rw [hin, readCell_writeFrom_out _ _ _ _ _ (by simp only [byteAddr]; omega)]
      rw [this, Owned.read_write_same _ _ _ _ (hr i (by omega))]; rfl
    | succ k =>
      rw [Owned.writeFrom, show i + (k + 1) = i + 1 + k by omega]
      have hs' : (o.write h i v).sizeOf? h = some n := by unfold Owned.sizeOf?; rw [Owned.write_live]; exact hs
      rw [ih _ _ _ n hs' (by omega) k (by omega)]; rfl

/-! ## Free (20_memory.md R73) -/

/-- A freed handle is live no more, and no other handle goes. -/
theorem handles_free (o : Owned) (h : Nat) : (o.free h).handles = o.handles.filter (fun a => a != h) := by
  unfold Owned.handles Owned.free
  rw [List.filter_map]
  rfl

/-- The other buffers keep their sizes. -/
theorem sizeOf_free {o : Owned} {h k : Nat} (hk : k ≠ h) : (o.free h).sizeOf? k = o.sizeOf? k := by
  unfold Owned.sizeOf? Owned.free
  rw [List.find?_filter]
  congr 1
  congr 1
  funext b
  by_cases e : b.handle = k
  · simp [e, hk]
  · simp [e]

/-- Dropping cells of other addresses leaves an address as it was. -/
theorem readCell_filter (p : Host.Cell → Bool) (a : Nat) (m : List Host.Cell) (hp : ∀ c ∈ m, c.1 = a → p c = true) :
    readCell a (m.filter p) = readCell a m := by
  induction m with
  | nil => rfl
  | cons c rest ih =>
    obtain ⟨b, x⟩ := c
    have hr := ih (fun c hc => hp c (List.mem_cons_of_mem _ hc))
    by_cases e : a = b
    · have : p (b, x) = true := hp _ List.mem_cons_self e.symm
      rw [List.filter_cons_of_pos this]
      simp [readCell, e]
    · by_cases hb : p (b, x) = true
      · rw [List.filter_cons_of_pos hb]
        simp only [readCell, if_neg e, hr]
      · rw [List.filter_cons_of_neg hb, hr]
        simp only [readCell, if_neg e]

/-- The other buffers keep their bytes. -/
theorem read_free {o : Owned} {h k i : Nat} (hk : k ≠ h) (hi : i < bufRoom) : (o.free h).read k i = o.read k i := by
  unfold Owned.read Owned.inRange
  rw [sizeOf_free hk]
  have : readCell (byteAddr k i) (o.free h).cells = readCell (byteAddr k i) o.cells := by
    refine readCell_filter _ _ _ ?_
    intro c _ hc
    have : c.1 / bufRoom = k := by
      rw [hc]; unfold byteAddr; simp only [bufRoom] at *; omega
    rw [this]
    simpa using hk
  rw [this]

/-- Everything Free does to the buffers of a transaction: they are gone, and the others are as they were. -/
theorem freeOpt_frame (o : Owned) (h : Option Nat) :
    (∀ k, k ∈ (o.freeOpt h).handles ↔ k ∈ o.handles ∧ h ≠ some k) ∧
    (∀ k, h ≠ some k → (o.freeOpt h).sizeOf? k = o.sizeOf? k ∧
      ∀ i < bufRoom, (o.freeOpt h).read k i = o.read k i) := by
  cases h with
  | none => exact ⟨fun k => by simp [Owned.freeOpt], fun k _ => ⟨rfl, fun i _ => rfl⟩⟩
  | some h =>
    refine ⟨fun k => ?_, fun k hk => ?_⟩
    · show k ∈ (o.free h).handles ↔ _
      rw [handles_free]
      simp only [List.mem_filter, bne_iff_ne, ne_eq, Option.some.injEq]
      exact ⟨fun hk => ⟨hk.1, fun e => hk.2 e.symm⟩, fun hk => ⟨hk.1, fun e => hk.2 e.symm⟩⟩
    · have : k ≠ h := fun e => hk (by rw [e])
      exact ⟨sizeOf_free this, fun i hi => read_free this hi⟩

end Sys2Proof.Machine
end

