-- ==== Sys2Proof/Laws/PerInstr.lean ====
section
/-! SUPPORT. Statements made per command. -/

namespace Sys2Proof.Laws

/-- The words of a command are as many as R84 says: the header word and its payload. -/
def EncodeLength.Statement (i : Instr) : Prop := (encode i).length = i.words

theorem EncodeLength.nop : EncodeLength.Statement (Instr.nop) := rfl

theorem EncodeLength.rdreg (index : Byte) : EncodeLength.Statement (Instr.rdreg index) := rfl

theorem EncodeLength.pinAssert (pin : Byte) : EncodeLength.Statement (Instr.pinAssert pin) := rfl

theorem EncodeLength.pinRelease (pin : Byte) : EncodeLength.Statement (Instr.pinRelease pin) := rfl

theorem EncodeLength.pinSample (pin : Byte) : EncodeLength.Statement (Instr.pinSample pin) := rfl

theorem EncodeLength.kbInit : EncodeLength.Statement (Instr.kbInit) := rfl

theorem EncodeLength.kbSend (code : Byte) (released : Bool) : EncodeLength.Statement (Instr.kbSend code released) := rfl

theorem EncodeLength.kbAssertReset : EncodeLength.Statement (Instr.kbAssertReset) := rfl

theorem EncodeLength.kbReleaseReset : EncodeLength.Statement (Instr.kbReleaseReset) := rfl

theorem EncodeLength.kbService : EncodeLength.Statement (Instr.kbService) := rfl

theorem EncodeLength.kbIsCaps : EncodeLength.Statement (Instr.kbIsCaps) := rfl

theorem EncodeLength.kbReport (mod : Byte) (res : Byte) (keys : Keys) :
    EncodeLength.Statement (Instr.kbReport mod res keys) := rfl

theorem EncodeLength.msReport (buttons : BitVec 3) (dx : Byte) (dy : Byte) :
    EncodeLength.Statement (Instr.msReport buttons dx dy) := rfl

theorem EncodeLength.bqInit : EncodeLength.Statement (Instr.bqInit) := rfl

theorem EncodeLength.bqEnqueue (r : Byte) (bytes : List Byte) : EncodeLength.Statement (Instr.bqEnqueue r bytes) := by
  simp only [EncodeLength.Statement, encode, Instr.payload, Instr.words, List.length_cons, packBytes_length]; omega

end Sys2Proof.Laws
end

