-- ==== Sys2Proof/Laws/Quiet.lean ====
section
/-! SUPPORT. What the shared operations do when nothing interferes, said once: a fault and its log, a frame, KbSendCore,
bus initialisation and recovery, MakeTxn, a dispatch, the parts of the completion handler. -/

namespace Sys2Proof.Laws

open Sys2Proof.Machine Sys2Proof.Claims

/-! ## Keyboard -/

/-- Quietness depends on four fields only; the default proofs cover updates of other fields. -/
theorem settled_congr' {s t : State} (h : s.Settled) (ht : t.tape = s.tape := by rfl) (hc : t.cut = s.cut := by rfl)
   (hh : t.halted = s.halted := by rfl) (hp : t.pending = s.pending := by rfl) : t.Settled := h.congr ht hc hh hp

/-- The drives of KCLK and KDAT are set independently. -/
theorem drive_set_comm (v : Vector Drive 12) (a b : Drive) : (v.set 1 a).set 0 b = (v.set 0 b).set 1 a := by
  rw [Vector.set_comm]; decide

/-- One bit cell in a quiet state (42_keyboard.md R167). -/
theorem run_bitCell {s : State} (h : s.Settled) (b : Bool) :
    ∃ d, Actor.pri.run (bitCell b) s =
      driven .kclk .released (driven .kdat d (traced .pri [Event.pin .kdat
        (if b = s.cfg.kdatActiveLow then .asserted else .released), Event.wait .pri 20,
       Event.pin .kclk .asserted, Event.wait .pri 20, Event.pin .kclk .released, Event.wait .pri 50] s)) ∧
      (Actor.pri.run (bitCell b) s).Settled := by
  refine ⟨if b = s.cfg.kdatActiveLow then .asserted else .released, ?_⟩
  have hr := run_of_settled (as := bitCell b) (by
    intro a ha t ht
    simp only [bitCell, List.mem_cons, List.not_mem_nil, or_false] at ha
    rcases ha with rfl | rfl | rfl | rfl | rfl | rfl
    · unfold dataBit; split <;> exact settled_congr' ht
    all_goals exact settled_congr' ht) h
  refine ⟨?_, hr.1 ▸ hr.2⟩
  rw [hr.1]
  simp only [bitCell, List.foldl, dataBit]
  split
  all_goals
    simp only [wait, emit, assertPin, releasePin, drivePin, driven, traced, Pins.setDrive, List.append_assoc, Pin.id,
      Vector.set_set]
    simp [Agent.context, Config.tKbSetup, Config.tKbClkLow, Config.tKbGap]

/-- The events of one bit cell. -/
def cellEvents (al : Bool) (b : Bool) : List Event :=
  [Event.pin .kdat (if b = al then .asserted else .released), Event.wait .pri 20,
       Event.pin .kclk .asserted, Event.wait .pri 20, Event.pin .kclk .released, Event.wait .pri 50]

/-- The bit cells and the end of a transmission in a quiet state. -/
theorem run_bits (bits : List Bool) {s : State} (h : s.Settled) :
    Actor.pri.run (bits.flatMap bitCell ++ endOfTransmission) s =
      driven .kdat .released (traced .pri (bits.flatMap (cellEvents s.cfg.kdatActiveLow) ++
        [Event.pin .kdat .released, Event.wait .pri 5000]) (if bits = [] then s else driven .kclk .released s)) := by
  induction bits generalizing s with
  | nil =>
    have h1 : (releasePin .pri .kdat s).Settled := settled_congr' h
    simp only [List.flatMap_nil, List.nil_append, endOfTransmission, Actor.run_cons, Actor.run_nil, act_of_settled h,
      act_of_settled h1, if_true]
    simp only [wait, emit, releasePin, drivePin, driven, traced, Pins.setDrive, List.append_assoc]
    rfl
  | cons b bits ih =>
    obtain ⟨d, hd, hq⟩ := run_bitCell h b
    rw [List.flatMap_cons, List.append_assoc, Actor.run_append, ih hq, hd]
    have e : (driven .kclk .released (driven .kdat d (traced .pri (cellEvents s.cfg.kdatActiveLow b) s))).cfg =
      s.cfg := rfl
    simp only [driven, traced, cellEvents, List.flatMap_cons, Pin.id]
    split <;> simp [Vector.set_set, drive_set_comm]

/-- One frame in a quiet state (R170). -/
theorem run_frame (w : Byte) {s : State} (h : s.Settled) : Actor.pri.run (frameSteps w) s = framed w s := by
  have h1 : (startFrame w s).Settled := settled_congr' h
  rw [frameSteps, List.append_assoc, List.singleton_append, Actor.run_cons, act_of_settled h, run_bits _ h1]
  simp only [framed, frameEvents, wireBits, driven, traced, startFrame, emit, cellEvents, List.flatMap_cons,
    List.flatMap_nil,
    List.map_cons, List.map_nil]
  simp

theorem settled_framed (w : Byte) {s : State} (h : s.Settled) : (framed w s).Settled := settled_congr' h

theorem settled_masked {s : State} (h : s.Settled) (m : Bool) : (setMasked m s).Settled := settled_congr' h

/-- A fault other than the halt does not halt the block. -/
theorem halted_raise (s : State) (b : FaultBit) (hb : b ≠ .halted) : (raise b s).halted = s.halted := by
  simp only [State.halted, raise]
  have : b.mask.getLsbD 31 = false := by revert hb; cases b <;> decide
  rw [BitVec.getLsbD_or, this, Bool.or_false]

/-- Raising and logging a fault other than the halt, in a quiet state, which stays quiet. -/
theorem raiseLog_settled {s : State} (h : s.Settled) (b : FaultBit) (hb : b ≠ .halted) (k : LogKind) :
    Actor.pri.raiseLog b k s = traced .pri [.log k] (faulted b.index s) ∧
      (traced .pri [.log k] (faulted b.index s)).Settled := by
  have h1 : (raise b s).Settled := settled_congr' h rfl rfl (halted_raise s b hb)
  refine ⟨?_, settled_congr' h1⟩
  unfold Actor.raiseLog
  rw [Actor.run_cons, act_of_settled h, Actor.run_cons, act_of_settled h1]
  rfl

/-- In a quiet state KbSendCore is its protocol, the mask set back (R169). -/
theorem kbSendCore_quiet {s t : State} (h : s.Settled) (code : Byte) (rel : Bool)
    (ht : sendProtocol code rel (setMasked true s) = t) (hq : t.Settled) :
    kbSendCore code rel s = setMasked s.masked t := by
  unfold kbSendCore irqSave irqRestore
  simp only [act_of_settled h, pri_pre_of_settled h, ht, act_of_settled hq]

/-- AssertReset in a quiet state (R176). -/
theorem assertReset_quiet {s : State} (h : s.Settled) : assertReset s = traced .pri [.pin .krst .asserted]
    (driven .krst .asserted { s with kb := { s.kb with rst := true } }) := by
  unfold assertReset
  rw [Actor.run_cons, act_of_settled h, Actor.run_cons,
    act_of_settled (s := assertPin .pri .krst s) (settled_congr' h)]
  rfl

/-- ReleaseReset in a quiet state (R177). -/
theorem releaseReset_quiet {s : State} (h : s.Settled) : releaseReset s = traced .pri [.pin .krst .released]
    (driven .krst .released { s with kb := { s.kb with rst := false } }) := by
  unfold releaseReset
  rw [Actor.run_cons, act_of_settled h, Actor.run_cons,
    act_of_settled (s := releasePin .pri .krst s) (settled_congr' h)]
  rfl

/-- The chord in a quiet state (R165). -/
theorem chordEval_quiet {s : State} (h : s.Settled) : chordEval s = chordAfter s ∧ (chordAfter s).Settled := by
  unfold chordEval chordAfter Kb.chord
  rw [assertReset_quiet h, releaseReset_quiet h]
  cases hc : (s.kb.ctrl && s.kb.lsp && s.kb.rsp) <;> cases hr : s.kb.rst
  · exact ⟨by simp, by simpa⟩
  · exact ⟨by simp, by simp; exact settled_congr' h⟩
  · exact ⟨by simp, by simp; exact settled_congr' h⟩
  · exact ⟨by simp, by simpa⟩

theorem settled_chord {s : State} (h : s.Settled) : (chordAfter s).Settled := (chordEval_quiet h).2

/-- WireByte and its closed form agree on every byte. -/
theorem wire_eq (c : Byte) (rel : Bool) : wireByte c rel = wire c rel := by
  have : ∀ (c : Byte) (rel : Bool), wireByte c rel = wire c rel := by decide +kernel
  exact this c rel

theorem chordAfter_setMasked (m : Bool) (s : State) : chordAfter (setMasked m s) = setMasked m (chordAfter s) := by
  rcases Bool.eq_false_or_eq_true (s.kb.ctrl && s.kb.lsp && s.kb.rsp) with hc | hc <;>
    rcases Bool.eq_false_or_eq_true s.kb.rst with hr | hr <;>
    (unfold chordAfter
     simp only [setMasked_kb, hc, hr, Bool.false_eq_true, reduceCtorEq, and_self, and_true, and_false, if_true,
       if_false]
     try rfl)

theorem chordAfter_masked (s : State) : (chordAfter s).masked = s.masked := by
  unfold chordAfter
  split
  · rfl
  · split <;> rfl

/-- The state after a key that goes out (R171 steps 3 to 6). -/
def keyAfter (code : Byte) (rel : Bool) (s : State) : State :=
  framed (wire code rel) (if isTrioCode s.cfg code then chordAfter { s with kb := trioAfter s.cfg code rel s.kb } else s)

/-- The state after KbSendCore in a quiet state (R171). -/
def quietSend (code : Byte) (rel : Bool) (s : State) : State :=
  if code = s.cfg.scUnknown then traced .pri [.log (.scRefused code)] (faulted 4 s)
  else if code = s.cfg.scCapslock then
    (if rel then s else keyAfter code s.kb.caps { s with kb := { s.kb with caps := !s.kb.caps } })
  else keyAfter code rel s

theorem keyAfter_masked (code rel) (s : State) : (keyAfter code rel s).masked = s.masked := by
  unfold keyAfter
  split
  · show (chordAfter _).masked = _
    rw [chordAfter_masked]
  · rfl

theorem keyAfter_setMasked (code rel) (m) (s : State) :
    keyAfter code rel (setMasked m s) = setMasked m (keyAfter code rel s) := by
  unfold keyAfter
  cases h : isTrioCode s.cfg code
  · simp only [setMasked_cfg, h, Bool.false_eq_true, if_false]; rfl
  · simp only [setMasked_cfg, h, if_true, setMasked_kb]
    exact congrArg (framed _) (chordAfter_setMasked m { s with kb := trioAfter s.cfg code rel s.kb })

/-- A key that goes out, in a quiet state. -/
theorem sendKey_quiet {s : State} (h : s.Settled) (code rel) :
    sendKey code rel s = keyAfter code rel s ∧ (keyAfter code rel s).Settled := by
  unfold sendKey keyAfter
  rw [← wire_eq]
  split
  · have h1 : (trioUpdate code rel s).Settled := settled_congr' h
    simp only [act_of_settled h, (chordEval_quiet h1).1]
    exact ⟨run_frame _ (chordEval_quiet h1).2, settled_framed _ (settled_chord (settled_congr' h))⟩
  · exact ⟨run_frame _ h, settled_framed _ h⟩

/-- The mask set and set back. -/
theorem setMasked_self (s : State) (x : State) (h : x.masked = s.masked) :
    setMasked s.masked (setMasked true x) = x := by
  rw [← h]; rfl

/-- The sentinel in a quiet state. -/
theorem send_unknown {s : State} (h : s.Settled) (rel : Bool) : kbSendCore s.cfg.scUnknown rel s =
    traced .pri [.log (.scRefused s.cfg.scUnknown)] (faulted 4 s) := by
  have hm := settled_masked h true
  obtain ⟨e, q⟩ := raiseLog_settled hm .scRefused (by decide) (.scRefused s.cfg.scUnknown)
  rw [kbSendCore_quiet h _ rel (t := _) ?_ q]
  · rfl
  · unfold sendProtocol
    rw [if_pos (show s.cfg.scUnknown = (setMasked true s).cfg.scUnknown from rfl), e]

/-- Everything KbSendCore does in a quiet state (R171). -/
theorem kbSendCore_eq {s : State} (h : s.Settled) (code rel) :
    kbSendCore code rel s = quietSend code rel s ∧ (quietSend code rel s).Settled := by
  have hm := settled_masked h true
  unfold quietSend
  by_cases h1 : code = s.cfg.scUnknown
  · subst h1; simp only [if_true]
    exact ⟨send_unknown h rel, (raiseLog_settled h .scRefused (by decide) (.scRefused _)).2⟩
  by_cases h2 : code = s.cfg.scCapslock
  · simp only [h1, if_false, if_pos h2]
    cases rel with
    | true =>
      simp only [if_true]
      refine ⟨?_, h⟩
      rw [kbSendCore_quiet h code true (t := setMasked true s) ?_ hm]
      · rfl
      · unfold sendProtocol
        rw [if_neg (show code ≠ (setMasked true s).cfg.scUnknown from h1),
          if_pos (show code = (setMasked true s).cfg.scCapslock from h2), if_pos rfl]
    | false =>
      simp only [Bool.false_eq_true, if_false]
      have hf : (flipCaps s).Settled := settled_congr' h
      refine ⟨?_, (sendKey_quiet hf _ _).2⟩
      have hfm := settled_masked hf true
      rw [kbSendCore_quiet h code false (t := keyAfter code s.kb.caps (setMasked true (flipCaps s))) ?_
        (sendKey_quiet hfm _ _).2]
      · rw [keyAfter_setMasked, setMasked_self]
        · rfl
        · rw [keyAfter_masked]; rfl
      · unfold sendProtocol
        rw [if_neg (show code ≠ (setMasked true s).cfg.scUnknown from h1),
          if_pos (show code = (setMasked true s).cfg.scCapslock from h2), act_of_settled hm]
        simp only [Bool.false_eq_true, if_false]
        exact (sendKey_quiet hfm _ _).1
  · simp only [h1, h2, if_false]
    refine ⟨?_, (sendKey_quiet h _ _).2⟩
    rw [kbSendCore_quiet h code rel (t := keyAfter code rel (setMasked true s)) ?_ (sendKey_quiet hm _ _).2]
    · rw [keyAfter_setMasked, setMasked_self]
      rw [keyAfter_masked]
    · unfold sendProtocol
      rw [if_neg (show code ≠ (setMasked true s).cfg.scUnknown from h1),
        if_neg (show code ≠ (setMasked true s).cfg.scCapslock from h2)]
      exact (sendKey_quiet hm _ _).1

theorem allDistinct_iff (l : List Byte) : allDistinct l = true ↔ l.Nodup := by
  induction l with
  | nil => simp [allDistinct]
  | cons a l ih => simp [allDistinct, ih]

/-- In a legal parameter set the named scancodes are distinct (00_scope.md R8). -/
theorem legal_nodup {cfg : Params} (h : paramsLegal cfg = true) : (namedScancodes cfg).Nodup := by
  simp only [paramsLegal, Bool.and_eq_true, allDistinct_iff] at h
  exact h.1.1.1.1.1.1.1.1.2

/-! ## Bus -/

/-- A command that is refused, in a quiet state (45_control.md R252). -/
theorem exec_badCmd {s : State} (h : s.Settled) (n : Nat) (w : Word) :
    endCommand n (badCmd w s) = consumed n (traced .pri [.log (.badCmd w)] (faulted 6 s)) := by
  obtain ⟨e, q⟩ := raiseLog_settled h .badCmd (by decide) (.badCmd w)
  unfold badCmd
  rw [e, endCommand_of_settled q]
  rfl

/-- Nothing comes before the actor's next atomic step. -/
structure Alone (A : Actor) (s : State) : Prop where
  pre : A.pre s = s
  live : s.live = true

/-- Then an atomic step is its action. -/
theorem Alone.act {A : Actor} {s : State} (h : Alone A s) (a) : A.act a s = a s := by
  unfold Actor.act; rw [h.pre, if_pos h.live]

/-- Nothing interferes with the agent: for PRI the state is quiet; for ISR the block lives and nothing is scheduled. -/
def Quiet : Agent → State → Prop
  | .pri, s => s.Settled
  | _, s => s.tape = [] ∧ s.live = true

/-- The actor of an agent that runs on PRI's resource. -/
def actorOf : Agent → Actor
  | .pri => .pri
  | _ => .isr

theorem Quiet.alone {ag : Agent} {s : State} (h : Quiet ag s) : Alone (actorOf ag) s := by
  cases ag with
  | pri => exact ⟨pri_pre_of_settled h, State.Settled.live h⟩
  | isr => exact ⟨by show (if s.live then turns s else s) = s; rw [if_pos h.2, turns_of_empty h.1], h.2⟩
  | enc => exact ⟨by show (if s.live then turns s else s) = s; rw [if_pos h.2, turns_of_empty h.1], h.2⟩

theorem Quiet.congr {ag : Agent} {s t : State} (h : Quiet ag s) (ht : t.tape = s.tape := by rfl)
    (hc : t.cut = s.cut := by rfl)
   (hh : t.halted = s.halted := by rfl) (hp : t.pending = s.pending := by rfl) : Quiet ag t := by
  cases ag with
  | pri => exact State.Settled.congr h ht hc hh hp
  | isr => exact ⟨ht.trans h.1, by unfold State.live; rw [hc, hh]; exact h.2⟩
  | enc => exact ⟨ht.trans h.1, by unfold State.live; rw [hc, hh]; exact h.2⟩

/-- Atomic steps that stay quiet are their actions, one after the other. -/
theorem Quiet.run {ag : Agent} {as : List (State → State)} (ha : ∀ a ∈ as, ∀ t : State, Quiet ag t → Quiet ag (a t))
    {s : State} (h : Quiet ag s) :
    (actorOf ag).run as s = as.foldl (fun t a => a t) s ∧ Quiet ag (as.foldl (fun t a => a t) s) := by
  induction as generalizing s with
  | nil => exact ⟨rfl, h⟩
  | cons a as ih =>
    rw [Actor.run_cons, h.alone.act]
    exact ih (fun b hb => ha b (List.mem_cons_of_mem _ hb)) (ha a List.mem_cons_self s h)

/-- Raising and logging a fault other than the halt, without interference. -/
theorem Quiet.raiseLog {ag : Agent} (hag : (actorOf ag).agent = ag) {s : State} (h : Quiet ag s) (b : FaultBit)
    (hb : b ≠ .halted) (k : LogKind) :
    (actorOf ag).raiseLog b k s = traced ag [.log k] (faulted b.index s) ∧
      Quiet ag (traced ag [.log k] (faulted b.index s)) := by
  have h1 : Quiet ag (raise b s) := h.congr rfl rfl (halted_raise s b hb)
  refine ⟨?_, h1.congr⟩
  unfold Actor.raiseLog
  rw [hag, Actor.run_cons, h.alone.act, Actor.run_cons, h1.alone.act]
  rfl

/-- The state with both bus lines floated under the pin driver (R221). -/
def floated (ag : Agent) (s : State) : State :=
  { traced ag [.pin .scl .released, .pin .sda .released] s with
    pins := { s.pins with drive := (s.pins.drive.set 10 .released).set 11 .released, funcScl := .gpio,
                          funcSda := .gpio } }

/-- Both lines floated, without interference. -/
theorem float_run {ag : Agent} {s : State} (h : Quiet ag s) :
    (actorOf ag).run (floatSteps ag) s = floated ag s ∧ Quiet ag (floated ag s) := by
  have hr := Quiet.run (as := floatSteps ag) (by
    intro a ha t ht
    simp only [floatSteps, List.mem_cons, List.not_mem_nil, or_false] at ha
    rcases ha with rfl | rfl | rfl | rfl <;> exact ht.congr) h
  refine ⟨hr.1.trans ?_, h.congr⟩
  simp [floatSteps, floated, traced, releasePin, drivePin, emit, setFuncScl, setFuncSda, Pins.setDrive, Pin.id]

/-- A bus line that the block does not pull low reads as ENV has it (40_pin_driver.md R112). -/
theorem sample_released {p : Pin} {s : State} (h : s.pins.drive[p.id] = .released) : sample p s = s.ext[p.id] := by
  unfold sample
  rw [if_neg]
  rintro ⟨-, h2⟩
  unfold Pins.driveOf at h2
  rw [h] at h2
  cases h2

/-- The probe of a bus whose lines are HIGH (43_bus_queue.md R221). -/
theorem probe_free {ag : Agent} (hag : (actorOf ag).agent = ag) {s : State} (h : Quiet ag s) (h10 : s.ext[10] = .high)
    (h11 : s.ext[11] = .high) : probeAndRecover (actorOf ag) s = floated ag s := by
  obtain ⟨e, q⟩ := float_run h
  unfold probeAndRecover
  simp only [hag, e, q.alone.pre]
  rw [if_neg]
  rw [sample_released (p := .scl) (s := floated ag s) (by simp [floated, Pin.id]),
    sample_released (p := .sda) (s := floated ag s) (by simp [floated, Pin.id])]
  show ¬ (s.ext[10] = .low ∨ s.ext[11] = .low)
  rw [h10, h11]
  simp

/-- The state after Configure. -/
def conf (ag : Agent) (s : State) : State :=
     { traced ag [.busCfg s.cfg.busClkHz s.cfg.busTargetAddr] s with
        pins := { s.pins with funcScl := .busctrl, funcSda := .busctrl, pullScl := true, pullSda := true }
        bc := { s.bc with irqEn := true }
        bq := { s.bq with ready := true } }

/-- Configure without interference (R222). -/
theorem configure_run {ag : Agent} {s : State} (h : Quiet ag s) :
    (actorOf ag).run (configureSteps ag) s = conf ag s := by
  refine (Quiet.run (as := configureSteps ag) ?_ h).1
  intro a ha t ht
  simp only [configureSteps, List.mem_cons, List.not_mem_nil, or_false] at ha
  rcases ha with rfl | rfl | rfl | rfl | rfl | rfl | rfl <;> exact ht.congr

/-! ## Recovery (R221) -/

/-- The events of one recovery clock cycle. -/
def cycleEvents (half : Nat) : List Event :=
  [.pin .scl .asserted, .wait .pri half, .pin .scl .released, .wait .pri half]

/-- One recovery cycle without interference, on a line that was floated. -/
theorem cycle_run {ag : Agent} (hc : ag.context = .pri) {s : State} (h : Quiet ag s)
    (hs : s.pins.drive[10] = .released) :
    (actorOf ag).run (recoveryCycle ag) s = traced ag (cycleEvents s.cfg.tRecoveryHalf) s := by
  have hr := Quiet.run (as := recoveryCycle ag) (by
    intro a ha t ht
    simp only [recoveryCycle, List.mem_cons, List.not_mem_nil, or_false] at ha
    rcases ha with rfl | rfl | rfl | rfl <;> exact ht.congr) h
  have hv : s.pins.drive.set 10 .released = s.pins.drive := by
    apply Vector.ext; intro i hi; rw [Vector.getElem_set]; split
    · next e => subst e; exact hs.symm
    · rfl
  rw [hr.1]
  simp [recoveryCycle, cycleEvents, traced, wait, emit, assertPin, releasePin, drivePin, Pins.setDrive, hc, Pin.id, hv]

/-- Without interference, the clock is toggled once where ENV holds SDA HIGH, and to the last cycle where it holds SDA
LOW. -/
theorem toggle_run {ag : Agent} (hag : (actorOf ag).agent = ag) (hc : ag.context = .pri) {s : State} (h : Quiet ag s)
    (hs : s.pins.drive[10] = .released) (hd : s.pins.drive[11] = .released) (k : Nat) :
    toggleClock (actorOf ag) (k + 1) s =
      if s.ext[11] = .high then (true, traced ag (recoveryEvents s.cfg.tRecoveryHalf 1) s)
      else (false, traced ag (recoveryEvents s.cfg.tRecoveryHalf (k + 1)) s) := by
  induction k generalizing s with
  | zero =>
    have q : Quiet ag (traced ag (cycleEvents s.cfg.tRecoveryHalf) s) := h.congr
    simp only [toggleClock]
    rw [hag, cycle_run hc h hs, q.alone.pre,
      sample_released (p := .sda) (s := traced ag (cycleEvents s.cfg.tRecoveryHalf) s) hd]
    rfl
  | succ k ih =>
    have q : Quiet ag (traced ag (cycleEvents s.cfg.tRecoveryHalf) s) := h.congr
    rw [toggleClock]
    rw [hag, cycle_run hc h hs, q.alone.pre,
      sample_released (p := .sda) (s := traced ag (cycleEvents s.cfg.tRecoveryHalf) s) hd, ih q hs hd]
    show (if s.ext[11] = .high then _ else if s.ext[11] = .high then _ else _) = _
    split
    · rfl
    · simp [traced, recoveryEvents, cycleEvents]

/-- BusInit on a stuck bus whose levels ENV holds (R221 to R223). -/
theorem busInit_stuck {ag : Agent} (hag : (actorOf ag).agent = ag) (hc : ag.context = .pri) {s : State}
    (h : Quiet ag s) (hl : s.ext[10] = .low ∨ s.ext[11] = .low) :
    busInit (actorOf ag) s =
      if s.ext[11] = .high then recovered ag 1 true s else recovered ag 9 false s := by
  obtain ⟨e, q⟩ := float_run h
  have hp : probeAndRecover (actorOf ag) s = recover (actorOf ag) (floated ag s) := by
    unfold probeAndRecover
    simp only [hag, e, q.alone.pre]
    rw [if_pos]
    rw [sample_released (p := .scl) (s := floated ag s) (by simp [floated, Pin.id]),
      sample_released (p := .sda) (s := floated ag s) (by simp [floated, Pin.id])]
    exact hl
  obtain ⟨e1, q1⟩ := q.raiseLog hag .busStuck (by decide) .busStuck
  unfold busInit
  rw [hp]
  unfold recover
  rw [e1, show Config.recoveryMaxCycles = 8 + 1 from rfl,
    toggle_run hag hc q1 (by simp [traced, faulted, floated]) (by simp [traced, faulted, floated])]
  by_cases h11 : s.ext[11] = .high
  · rw [if_pos h11, if_pos (show (traced ag [.log .busStuck] (faulted FaultBit.busStuck.index (floated ag s))).ext[11] =
      .high from h11)]
    simp only [if_true, hag]
    rw [configure_run (s := traced ag _ (traced ag _ _)) q1.congr]
    simp [conf, recovered, traced, faulted, floated, FaultBit.index]
  · rw [if_neg h11, if_neg (show ¬ (traced ag [.log .busStuck] (faulted FaultBit.busStuck.index
      (floated ag s))).ext[11] = .high from h11)]
    simp only [Bool.false_eq_true, if_false, hag]
    have q2 : Quiet ag (traced ag (recoveryEvents (traced ag [.log .busStuck]
      (faulted FaultBit.busStuck.index (floated ag s))).cfg.tRecoveryHalf (8 + 1))
        (traced ag [.log .busStuck] (faulted FaultBit.busStuck.index (floated ag s)))) := q1.congr
    obtain ⟨e3, q3⟩ := q2.raiseLog hag .recoveryFailed (by decide) .recoveryFailed
    rw [e3, configure_run q3]
    simp [conf, recovered, traced, faulted, floated, FaultBit.index]

theorem quiet_recovered {ag : Agent} {s : State} (h : Quiet ag s) (k : Nat) (freed : Bool) :
    Quiet ag (recovered ag k freed s) := by
  cases freed
  · exact h.congr rfl rfl ((halted_raise (raise .busStuck s) .recoveryFailed (by decide)).trans
      (halted_raise s .busStuck (by decide))) rfl
  · exact h.congr rfl rfl (halted_raise s .busStuck (by decide)) rfl

/-- BusInit on a free bus (R221 to R223). -/
theorem busInit_free {ag : Agent} (hag : (actorOf ag).agent = ag) {s : State} (h : Quiet ag s)
    (h10 : s.ext[10] = .high) (h11 : s.ext[11] = .high) :
    busInit (actorOf ag) s = configured ag s := by
  unfold busInit
  have q3 : Quiet ag (floated ag s) := h.congr
  rw [probe_free hag h h10 h11, hag, configure_run q3]
  simp [conf, configured, traced, driven, floated, Pin.id]

theorem configured_quiet {ag : Agent} {s : State} (h : Quiet ag s) : Quiet ag (configured ag s) := h.congr

/-- A dispatch that fits, without interference (R210). -/
theorem run_dispatch {ag : Agent} (hag : (actorOf ag).agent = ag) {s : State} (h : Quiet ag s) (t : Txn)
    (last : State → State) (hf : t.wdata.length + t.r.toNat ≤ s.cfg.maxXfer) :
    dispatch (actorOf ag) last t s = dispatched ag t s := by
  unfold dispatch
  rw [if_neg (by unfold Txn.units Txn.w; omega), hag]
  have q1 : Quiet ag (prepareDispatch t s) := h.congr
  unfold dispatchSteps
  by_cases hr : t.r = 0
  · rw [if_neg (by rw [hr]; decide)]
    have q2 : Quiet ag (dmaStart ag .tx none t.units (prepareDispatch t s)) := q1.congr
    have q3 : Quiet ag (emit ag (.busStart (buildUnits t) t.r.toNat)
      (dmaStart ag .tx none t.units (prepareDispatch t s))) := q2.congr
    simp only [List.nil_append, List.append_nil, List.cons_append, Actor.run_cons, Actor.run_nil]
    rw [h.alone.act, q1.alone.act, q2.alone.act]
    rw [show (dmaStart ag .tx none t.units (prepareDispatch t s)).bq.cmdbuf = buildUnits t from rfl, q3.alone.act]
    simp [dispatched, hr, markInflight, emit, dmaStart, prepareDispatch, traced, Dma.set, chanSetup, Txn.units, Txn.w]
  · have hpos : 0 < t.r.toNat := by
      rcases Nat.eq_zero_or_pos t.r.toNat with h0 | h0
      · exact absurd (BitVec.eq_of_toNat_eq (by simpa using h0)) hr
      · exact h0
    rw [if_pos hpos]
    have q1' : Quiet ag (dmaStart ag .rx t.rbuf t.r.toNat (prepareDispatch t s)) := q1.congr
    have q2 : Quiet ag (dmaStart ag .tx none t.units (dmaStart ag .rx t.rbuf t.r.toNat (prepareDispatch t s))) :=
      q1'.congr
    have q3 : Quiet ag (emit ag (.busStart (buildUnits t) t.r.toNat)
      (dmaStart ag .tx none t.units (dmaStart ag .rx t.rbuf t.r.toNat (prepareDispatch t s)))) := q2.congr
    simp only [List.nil_append, List.cons_append, Actor.run_cons, Actor.run_nil]
    rw [h.alone.act, q1.alone.act, q1'.alone.act, q2.alone.act]
    rw [show (dmaStart ag .tx none t.units (dmaStart ag .rx t.rbuf t.r.toNat (prepareDispatch t s))).bq.cmdbuf =
      buildUnits t from rfl, q3.alone.act]
    have hr' : ¬ t.r = 0#8 := hr
    simp only [dispatched, if_neg hr, markInflight, emit, dmaStart, prepareDispatch, traced, Dma.set, chanSetup,
      Txn.units, Txn.w]
    simp

theorem quiet_dispatched {ag : Agent} {s : State} (h : Quiet ag s) (t : Txn) : Quiet ag (dispatched ag t s) := h.congr

/-- An accepted BQ_ENQUEUE in a quiet state is MakeTxn and Append (R207). -/
theorem enqueue_accepted {s : State} {r : Byte} {bytes : List Byte} (h : s.Settled)
    (ha : Accepted s bytes.length r.toNat) :
    exec (.bqEnqueue r bytes) s = .next (endCommand (enqueueLength bytes.length)
      (appendTxn .pri (advance (enqueueLength bytes.length)) (makeTxn .pri bytes r s).1
        (makeTxn .pri bytes r s).2)) := by
  simp only [exec, execBqEnqueue, pri_pre_of_settled h]
  rw [if_neg (by simp [ha.ready]), if_neg ha.nonempty, if_neg, if_neg]
  · rfl
  · unfold State.queueFull
    split
    · simp
    · next m hm => have := ha.room m hm; simp; omega
  · rintro ⟨h1, h2⟩
    rcases ha.size with h3 | h3
    · rw [h3] at h1; cases h1
    · omega

/-! ## MakeTxn (R202) -/

/-- Owned storage after an allocation of `n` bytes, none where `n` is 0. -/
def allocated (n : Nat) (o : Owned) : Option Nat × Owned :=
  if n = 0 then (none, o) else (some o.next, (o.alloc n).2)

/-- Owned storage after the payload is copied. -/
def filled (h : Option Nat) (bytes : List Byte) (o : Owned) : Owned :=
  match h with
  | none => o
  | some h => o.writeFrom h 1 0 bytes

/-- An allocation in a quiet state. -/
theorem allocBuf_settled {s : State} (h : s.Settled) (n : Nat) :
    allocBuf .pri n s = ((allocated n s.owned).1, { s with owned := (allocated n s.owned).2 }) := by
  unfold allocBuf allocated
  rw [pri_pre_of_settled h, act_of_settled h]
  split <;> rfl

/-- The copy of a payload in a quiet state. -/
theorem fill_settled {s : State} (h : s.Settled) (b : Option Nat) (bytes : List Byte) :
    Actor.pri.run (fillSteps b bytes) s = { s with owned := filled b bytes s.owned } := by
  cases b with
  | none => rfl
  | some k =>
    have key : ∀ (vs : List Byte) (i : Nat) (u : State), u.Settled →
        Actor.pri.run (copySteps k i vs) u = { u with owned := u.owned.writeFrom k 1 i vs } := by
      intro vs
      induction vs with
      | nil => intro i u _; rfl
      | cons v vs ih =>
        intro i u hu
        have hw : (memWrite k i v u).Settled := settled_congr' hu
        rw [copySteps, Actor.run_cons, act_of_settled hu, ih _ _ hw]
        rfl
    exact key bytes 0 s h

/-- Everything MakeTxn does in a quiet state. -/
theorem makeTxn_settled {s : State} (h : s.Settled) (bytes : List Byte) (r : Byte) :
    let w := allocated bytes.length s.owned
    let b := allocated r.toNat (filled w.1 bytes w.2)
    makeTxn .pri bytes r s = (⟨bytes, r, w.1, b.1⟩, { s with owned := b.2 }) := by
  have h1 : ({ s with owned := (allocated bytes.length s.owned).2 } : State).Settled := settled_congr' h
  have h2 : ({ s with owned := filled (allocated bytes.length s.owned).1 bytes (allocated bytes.length s.owned).2 } :
    State).Settled := settled_congr' h
  unfold makeTxn
  rw [allocBuf_settled h]
  simp only
  rw [fill_settled h1, allocBuf_settled h2]

/-- MakeTxn changes nothing but owned storage, in a quiet state. -/
theorem makeTxn_owned {s : State} (h : s.Settled) (bytes : List Byte) (r : Byte) :
    (makeTxn .pri bytes r s).2 = { s with owned := (makeTxn .pri bytes r s).2.owned } := by
  rw [makeTxn_settled h]

/-- A halted block gives no atomic step (45_control.md R253). -/
theorem halted_act (A : Actor) (hA : A = .pri ∨ A = .isr) {s : State} (h : s.halted = true) (f : State → State) :
    A.act f s = s := by
  have hl : s.live = false := by simp [State.live, h]
  have hp : A.pre s = s := by
    rcases hA with rfl | rfl
    · show boundary s = s; unfold boundary; rw [hl]; rfl
    · show (if s.live then turns s else s) = s; rw [hl]; rfl
  unfold Actor.act; rw [hp, hl]; rfl

/-- A dispatch that halts, without interference (R212). -/
theorem halt_run {ag : Agent} (hag : (actorOf ag).agent = ag) {s : State} (h : Quiet ag s) (t : Txn)
    (last : State → State) (hf : s.cfg.maxXfer < t.wdata.length + t.r.toNat) :
    dispatch (actorOf ag) last t s = last (haltedBy ag t s) := by
  unfold dispatch
  rw [if_pos (show s.cfg.maxXfer < t.units from hf)]
  unfold fatalCapacity
  simp only [Actor.run_cons, Actor.run_nil, hag]
  have q1 : Quiet ag (raise .capacity s) := h.congr rfl rfl (halted_raise s _ (by decide))
  have q2 : Quiet ag (emit ag (.log (.capacity t.units)) (raise .capacity s)) := q1.congr
  rw [h.alone.act, q1.alone.act, q2.alone.act]
  unfold haltStep
  simp [haltedBy, traced, faulted, emit, raise, FaultBit.mask, FaultBit.index, Txn.units, Txn.w]

theorem haltedBy_halted (ag t s) : (haltedBy ag t s).halted = true := by
  simp only [State.halted, haltedBy, traced, faulted]
  rw [BitVec.getLsbD_or]
  simp

/-- When the handler is about to be entered, ISR is undisturbed. -/
theorem comp_quiet {s : State} (h : s.Completing) : Quiet .isr s := by
  have hh : s.halted = false := by
    have := h.ready; unfold State.irqReady at this
    revert this; cases s.halted <;> simp
  exact ⟨h.tape, by simp [State.live, h.cut, hh]⟩

theorem comp_masked {s : State} (h : s.Completing) : s.masked = false := by
    have := h.ready; unfold State.irqReady at this
    revert this; cases s.masked <;> simp

/-- The first two atomic steps of the handler (R214, R220). -/
theorem status_run {s : State} (q : Quiet .isr s) :
    Actor.isr.run [fun s => { s with bq := { s.bq with inflight := false } }, readStatus] s = statusRead s := by
  have q1 : Quiet .isr { s with bq := { s.bq with inflight := false } } := q.congr
  simp only [Actor.run_cons, Actor.run_nil]
  rw [show Actor.isr.act _ s = _ from q.alone.act _, show Actor.isr.act _ _ = _ from q1.alone.act _]
  rfl

theorem quiet_statusRead {s : State} (q : Quiet .isr s) : Quiet .isr (statusRead s) := q

/-- The head popped and freed (R216). -/
theorem popAndFree_eq {s : State} {t rest} (hq : s.bq.queue = t :: rest) : popAndFree s = popped t rest s := by
  unfold popAndFree; rw [hq]; rfl

/-- DispatchNext when the next transaction fits (R217). -/
theorem next_fits {s : State} (q : Quiet .isr s) (rest : List Txn) (hq : s.bq.queue = rest) (hf : nextFits s.cfg rest) :
    dispatchNext .isr s = nextDispatched rest s ∧ Quiet .isr (nextDispatched rest s) := by
  unfold dispatchNext nextDispatched
  cases rest with
  | nil => rw [hq]; exact ⟨rfl, q⟩
  | cons t rest =>
    rw [hq]
    simp only [irqSave, irqRestore]
    have q1 : Quiet .isr (setMasked true s) := q.congr
    refine ⟨?_, quiet_dispatched q t⟩
    rw [show Actor.isr.pre s = s from q.alone.pre, show Actor.isr.act (setMasked true) s = _ from q.alone.act _,
      show dispatch .isr id t (setMasked true s) = _ from run_dispatch (ag := .isr) rfl q1 t id hf]
    have q2 : Quiet .isr (dispatched .isr t (setMasked true s)) := quiet_dispatched q1 t
    rw [show Actor.isr.act (setMasked s.masked) _ = _ from q2.alone.act _]
    simp [dispatched, setMasked, traced]

/-- DispatchNext when the next transaction halts the block (R217, R212). -/
theorem next_halts {p : State} (qp : Quiet .isr p) {u : Txn} {rest} (hq : p.bq.queue = u :: rest)
    (hf : p.cfg.maxXfer < u.wdata.length + u.r.toNat) :
    dispatchNext .isr p = haltedBy .isr u (setMasked true p) := by
  have qm : Quiet .isr (setMasked true p) := qp.congr
  unfold dispatchNext irqSave irqRestore
  rw [hq]
  simp only
  rw [show Actor.isr.act (setMasked true) p = _ from qp.alone.act _,
    show dispatch .isr id u _ = _ from halt_run (ag := .isr) rfl qm u id hf]
  exact halted_act .isr (.inr rfl) (haltedBy_halted _ _ _) _

/-- The fault raised, counted and logged, without interference (R215). -/
theorem busFault_run {s : State} (q : Quiet .isr s) :
    Actor.isr.run (busFaultSteps .isr) s = faultCounted s ∧ Quiet .isr (faultCounted s) := by
  have q1 : Quiet .isr (raise .busFault s) := q.congr rfl rfl (halted_raise s _ (by decide))
  refine ⟨?_, q1.congr⟩
  have hr := Quiet.run (ag := .isr) (as := (busFaultSteps .isr).tail) (by
    intro a ha t ht
    simp only [busFaultSteps, List.tail_cons, List.mem_cons, List.not_mem_nil, or_false] at ha
    rcases ha with rfl | rfl <;> exact ht.congr) q1
  show Actor.isr.run _ (Actor.isr.act (raise .busFault) s) = _
  rw [show Actor.isr.act (raise .busFault) s = _ from q.alone.act _]
  exact hr.1

/-- The busy channels aborted, TX first (R215). -/
theorem abort_eq {s : State} (q : Quiet .isr s) :
    abortIfBusy .isr .rx (abortIfBusy .isr .tx s) = channelsAborted s := by
  unfold abortIfBusy
  have hp : Actor.isr.pre s = s := q.alone.pre
  rw [hp]
  cases ht : s.dma.tx.busy <;> cases hr : s.dma.rx.busy
  · simp only [Dma.get, ht, Bool.false_eq_true, if_false]
    rw [hp]; simp only [hr, Bool.false_eq_true, if_false]
    obtain ⟨_, _, _, _, _, _, _, _, ⟨⟨_,_,_,_⟩,⟨_,_,_,_⟩⟩, _⟩ := s
    simp at ht hr; subst ht hr
    simp [channelsAborted, traced]
  · simp only [Dma.get, ht, Bool.false_eq_true, if_false]
    rw [hp]; simp only [hr, if_true]
    rw [show Actor.isr.act _ _ = _ from q.alone.act _]
    obtain ⟨_, _, _, _, _, _, _, _, ⟨⟨_,_,_,_⟩,⟨_,_,_,_⟩⟩, _⟩ := s
    simp at ht hr; subst ht hr
    simp [channelsAborted, traced, dmaAbort, emit, Dma.set, Dma.get]; rfl
  · simp only [Dma.get, ht, if_true]
    rw [show Actor.isr.act _ s = _ from q.alone.act _]
    have q1 : Quiet .isr (dmaAbort Actor.isr.agent .tx s) := q.congr
    rw [show Actor.isr.pre _ = _ from q1.alone.pre]
    rw [if_neg (by show ¬ s.dma.rx.busy = true; rw [hr]; simp)]
    obtain ⟨_, _, _, _, _, _, _, _, ⟨⟨_,_,_,_⟩,⟨_,_,_,_⟩⟩, _⟩ := s
    simp at ht hr; subst ht hr
    simp [channelsAborted, traced, dmaAbort, emit, Dma.set, Dma.get]; rfl
  · simp only [Dma.get, ht, if_true]
    rw [show Actor.isr.act _ s = _ from q.alone.act _]
    have q1 : Quiet .isr (dmaAbort Actor.isr.agent .tx s) := q.congr
    rw [show Actor.isr.pre _ = _ from q1.alone.pre]
    rw [if_pos (by show s.dma.rx.busy = true; exact hr), show Actor.isr.act _ _ = _ from q1.alone.act _]
    obtain ⟨_, _, _, _, _, _, _, _, ⟨⟨_,_,_,_⟩,⟨_,_,_,_⟩⟩, _⟩ := s
    simp at ht hr; subst ht hr
    simp [channelsAborted, traced, dmaAbort, emit, Dma.set, Dma.get]; rfl

theorem cut_self {s : State} (h : s.cut = false) : { s with cut := false } = s := by
  cases s; simp_all

theorem quiet_cut {ag} {s : State} (q : Quiet ag s) : s.cut = false := by
  cases ag with
  | pri => exact q.cut
  | _ => have := q.2; unfold State.live at this; revert this; cases s.cut <;> simp

/-- A step in which PRI holds for a word is a hold (20_memory.md R71). -/
theorem step_of_waiting {s : State} (hl : paramsLegal s.cfg = true) (hh : s.halted = false) (hw : Waiting s) :
    step s = .next (holdStep s) := by
  unfold step
  rw [if_neg (by simp [hl]), if_neg (by simp [hh])]
  rcases hw with hw | ⟨a, b, hw⟩ <;> rw [hw]

/-- A step in which PRI holds and one completion is handled. -/
theorem handler_step {s : State} (hl : paramsLegal s.cfg = true) (h : s.Completing) (hf : Waiting s)
    (ht : (completionHandler s).tape = []) :
    step s = .next { completionHandler s with cut := false } := by
  have hh : s.halted = false := by
    have := h.ready; unfold State.irqReady at this
    revert this; cases s.halted <;> simp
  have hlive : s.live = true := by simp [State.live, h.cut, hh]
  rw [step_of_waiting hl hh hf]
  unfold holdStep
  rw [if_neg (by rw [h.ready]; rintro ⟨-, h2⟩; cases h2)]
  have hb : boundary s = completionHandler s := by
    unfold boundary
    rw [if_pos hlive, turns_of_empty h.tape, h.tape]
    show takeInterrupt 1 s = _
    unfold takeInterrupt
    rw [h.ready, hlive]
    unfold takeInterrupt interruptReturn
    simp only [Bool.and_self, if_true]
    split
    · exact turns_of_empty ht
    · rfl
  rw [hb]

end Sys2Proof.Laws
end

