-- ==== Sys2Proof/Laws/Steps.lean ====
section
/-! SUPPORT. What every command and every step can do, said once: a predicate that the atomic actions keep is kept by
`exec` and by `step`, under every schedule. -/

namespace Sys2Proof.Machine

/-- `P` is kept by turns, by the bus engine, by an accepted enqueue, by a whole send of a key and by every other atomic
action of PRI but a response. -/
structure CommandStable (P : State → Prop) : Prop where
  bus : ∀ ag, BusStable ag P
  drive : ∀ p d s, P s → P (drivePin .pri p d s)
  kb : ∀ k s, P s → P { s with kb := k }
  fe : ∀ f s, P s → P { s with fe := f }
  mv : ∀ m s, P s → P { s with mv := m }
  advance : ∀ n s, P s → P (advance n s)
  accept : ∀ r bytes s, P s → P (acceptTxn r bytes s)
  send : ∀ code rel s, P s → P (kbSendCore code rel s)
  uncut : ∀ s, P s → P { s with cut := false }

/-- `P` is kept by every atomic action of every agent. -/
structure StepStable (P : State → Prop) : Prop extends CommandStable P where
  respond : ∀ v s, P s → P (respond v s)

/-- The commands that make no response (20_memory.md R72). -/
def silent : Instr → Bool
  | .rdreg _ => false
  | .kbIsCaps => false
  | .pinSample pin => (Pin.ofByte pin).isNone
  | .nop | .pinAssert _ | .pinRelease _ | .kbInit | .kbSend _ _ | .kbAssertReset | .kbReleaseReset | .kbService
  | .kbReport _ _ _ | .msReport _ _ _ | .bqInit | .bqEnqueue _ _ => true

/-- Everything an allocation can do to the state: nothing, or one atomic step. -/
theorem allocBuf_cases (A : Actor) (n : Nat) (s : State) :
    (allocBuf A n s = (none, s) ∧ n = 0) ∨
      (allocBuf A n s = (some (A.pre s).owned.next, A.act (memAlloc n) s) ∧ n ≠ 0) := by
  unfold allocBuf
  split
  · exact .inl ⟨rfl, ‹_›⟩
  · exact .inr ⟨rfl, ‹_›⟩

theorem allocBuf_keeps {A : Actor} {P : State → Prop} (hpre : ∀ s, P s → P (A.pre s))
    (alloc : ∀ n s, P s → P (memAlloc n s)) (n : Nat) {s : State} (hs : P s) : P (allocBuf A n s).2 := by
  rcases allocBuf_cases A n s with ⟨e, -⟩ | ⟨e, -⟩ <;> rw [e]
  · exact hs
  · exact act_keeps (hpre _) (alloc n) hs

/-- The payload is copied by writes to one buffer. -/
theorem mem_fillSteps {h : Option Nat} {bytes : List Byte} {a : State → State} (ha : a ∈ fillSteps h bytes) :
    ∃ k i v, h = some k ∧ a = memWrite k i v := by
  cases h with
  | none => cases ha
  | some k =>
    have key : ∀ (bs : List Byte) (i : Nat), a ∈ copySteps k i bs → ∃ j v, a = memWrite k j v := by
      intro bs
      induction bs with
      | nil => intro i hi; cases hi
      | cons v vs ih =>
        intro i hi
        rcases List.mem_cons.mp hi with rfl | hi
        · exact ⟨i, v, rfl⟩
        · exact ih _ hi
    obtain ⟨j, v, e⟩ := key bytes 0 ha
    exact ⟨k, j, v, rfl, e⟩

/-- MakeTxn keeps what its allocations and writes keep. -/
theorem makeTxn_keeps {A : Actor} {P : State → Prop} (hpre : ∀ s, P s → P (A.pre s))
    (alloc : ∀ n s, P s → P (memAlloc n s)) (write : ∀ h i v s, P s → P (memWrite h i v s)) (bytes : List Byte)
    (r : Byte) {s : State} (hs : P s) : P (makeTxn A bytes r s).2 := by
  refine allocBuf_keeps hpre alloc _ (run_keeps hpre ?_ (allocBuf_keeps hpre alloc _ hs))
  intro a ha u hu
  obtain ⟨k, i, v, -, rfl⟩ := mem_fillSteps ha
  exact write _ _ _ _ hu

/-- An accepted enqueue keeps what its atomic actions keep one by one; a predicate that holds again only after the whole
enqueue meets `CommandStable.accept` in its own way. -/
theorem acceptTxn_keeps {P : State → Prop} (bus : ∀ ag, BusStable ag P) (adv : ∀ n s, P s → P (advance n s))
    (alloc : ∀ n s, P s → P (memAlloc n s)) (write : ∀ h i v s, P s → P (memWrite h i v s))
    (push : ∀ t s, P s → P (pushTxn t s)) (r : Byte) (bytes : List Byte) (s : State) (hs : P s) :
    P (acceptTxn r bytes s) := by
  have pre : ∀ u, P u → P (Actor.pri.pre u) := fun _ => (bus .isr).boundary
  have made : P (makeTxn .pri bytes r s).2 := makeTxn_keeps pre alloc write bytes r hs
  have pushed := act_keeps (pre _) (push (makeTxn .pri bytes r s).1) (act_keeps (pre _) ((bus .pri).mask true) made)
  refine act_keeps (pre _) ((bus .pri).mask _) ?_
  split
  · exact BusStable.dispatch (A := .pri) (bus .pri) pre (adv _) _ pushed
  · exact pushed

/-- A send keeps what its atomic actions keep one by one; a predicate that holds again only after the whole send meets
`CommandStable.send` in its own way. -/
theorem kbSendCore_keeps {P : State → Prop} (bus : ∀ ag, BusStable ag P)
    (drive : ∀ p d s, P s → P (drivePin .pri p d s)) (kb : ∀ k s, P s → P { s with kb := k })
    (frame : ∀ w s, P s → P (startFrame w s)) (code : Byte) (rel : Bool) (s : State) (hs : P s) :
    P (kbSendCore code rel s) := by
  have pre : ∀ u, P u → P (Actor.pri.pre u) := fun _ => (bus .isr).boundary
  have reset : ∀ p d b u, P u → P (Actor.pri.run [drivePin .pri p d, setRst b] u) := fun p d b u hu =>
    act_keeps (pre _) (fun _ => kb _ _) (act_keeps (pre _) (drive p d) hu)
  have steps : ∀ w, ∀ a ∈ frameSteps w, ∀ u, P u → P (a u) := by
    intro w a ha u hu
    simp only [frameSteps, List.mem_append, List.mem_cons, List.not_mem_nil, or_false, List.mem_flatMap, bitCell,
      endOfTransmission] at ha
    rcases ha with (rfl | ⟨b, -, ha⟩) | rfl | rfl
    · exact frame w u hu
    · rcases ha with rfl | rfl | rfl | rfl | rfl | rfl
      · unfold dataBit
        split <;> exact drive _ _ _ hu
      · exact (bus .pri).emit _ rfl _ hu
      · exact drive _ _ _ hu
      · exact (bus .pri).emit _ rfl _ hu
      · exact drive _ _ _ hu
      · exact (bus .pri).emit _ rfl _ hu
    · exact drive _ _ _ hu
    · exact (bus .pri).emit _ rfl _ hu
  have key : ∀ c r u, P u → P (sendKey c r u) := by
    intro c r u hu
    refine run_keeps pre (steps _) ?_
    split
    · have h1 : P (Actor.pri.act (trioUpdate c r) u) := act_keeps (pre _) (fun _ => kb _ _) hu
      unfold chordEval
      split
      · exact reset _ _ _ _ h1
      · split
        · exact reset _ _ _ _ h1
        · exact h1
    · exact hu
  refine act_keeps (pre _) ((bus .pri).mask _) ?_
  have h1 := act_keeps (pre _) ((bus .pri).mask true) hs
  unfold sendProtocol
  split
  · exact BusStable.raiseLog (A := .pri) (bus .pri) pre _ _ h1
  · split
    · split
      · exact h1
      · exact key _ _ _ (act_keeps (pre _) (fun _ => kb _ _) h1)
    · exact key _ _ _ h1

namespace CommandStable

variable {P : State → Prop}

theorem turns (h : CommandStable P) : TurnStable P := (h.bus .pri).toTurnStable

theorem emit (h : CommandStable P) (e : Event) (he : e.isFrame = false) (s : State) (hs : P s) : P (emit .pri e s) :=
  (h.bus .pri).emit e he s hs

theorem pre (h : CommandStable P) (s : State) (hs : P s) : P (Actor.pri.pre s) := (h.bus .isr).boundary hs

theorem act (h : CommandStable P) {a : State → State} (ha : ∀ s, P s → P (a s)) {s : State} (hs : P s) :
    P (Actor.pri.act a s) := act_keeps (h.pre s) ha hs

theorem run (h : CommandStable P) {as : List (State → State)} (ha : ∀ a ∈ as, ∀ s, P s → P (a s)) {s : State}
    (hs : P s) : P (Actor.pri.run as s) := run_keeps h.pre ha hs

theorem endCommand (h : CommandStable P) (n : Nat) {s : State} (hs : P s) : P (endCommand n s) :=
  h.uncut _ (h.act (h.advance n) hs)

theorem raiseLog (h : CommandStable P) (b : FaultBit) (k : LogKind) {s : State} (hs : P s) :
    P (Actor.pri.raiseLog b k s) := BusStable.raiseLog (A := .pri) (h.bus .pri) h.pre b k hs

theorem badCmd (h : CommandStable P) (w : Word) {s : State} (hs : P s) : P (badCmd w s) :=
  h.raiseLog _ _ hs

theorem holdStep (h : CommandStable P) {s : State} (hs : P s) : P (holdStep s) := by
  unfold Machine.holdStep
  split
  · exact h.uncut _ (h.turns.enc _ hs)
  · exact h.uncut _ ((h.bus .isr).boundary hs)

/-! ## The keyboard -/

theorem assertReset (h : CommandStable P) {s : State} (hs : P s) : P (assertReset s) :=
  h.act (fun _ => h.kb _ _) (h.act (h.drive _ _) hs)

theorem releaseReset (h : CommandStable P) {s : State} (hs : P s) : P (releaseReset s) :=
  h.act (fun _ => h.kb _ _) (h.act (h.drive _ _) hs)

theorem sendEvents (h : CommandStable P) (evs : List KeyEvent) {s : State} (hs : P s) : P (sendEvents evs s) := by
  induction evs generalizing s with
  | nil => exact hs
  | cons e rest ih => exact ih (h.send _ _ _ hs)

theorem kbInitBody (h : CommandStable P) {s : State} (hs : P s) : P (kbInitBody s) := by
  refine h.act (fun _ => h.kb _ _) (h.send _ _ _ (h.act (h.emit _ rfl) (h.send _ _ _ (h.run ?_ hs))))
  intro a ha t ht
  simp only [List.mem_cons, List.not_mem_nil, or_false] at ha
  rcases ha with rfl | rfl | rfl
  · exact h.drive _ _ _ ht
  · exact h.drive _ _ _ ht
  · exact h.emit _ rfl _ ht

/-! ## Every command and every step -/

/-- Every command that makes no response keeps `P`. -/
theorem silentExec (h : CommandStable P) {i : Instr} (hi : silent i = true) {s t : State} (hs : P s)
    (ht : exec i s = .next t) : P t := by
  cases i with
  | nop => cases ht; exact h.endCommand _ hs
  | rdreg index => cases hi
  | pinAssert pin =>
    cases ht; refine h.endCommand _ ?_
    split
    · exact h.act (h.drive _ _) hs
    · exact h.badCmd _ hs
  | pinRelease pin =>
    cases ht; refine h.endCommand _ ?_
    split
    · exact h.act (h.drive _ _) hs
    · exact h.badCmd _ hs
  | pinSample pin =>
    cases ht; refine h.endCommand _ ?_
    have hn : Pin.ofByte pin = none := Option.isNone_iff_eq_none.mp hi
    rw [hn]
    exact h.badCmd _ hs
  | kbInit => cases ht; exact h.endCommand _ (h.kbInitBody hs)
  | kbSend code rel => cases ht; exact h.endCommand _ (h.send _ _ _ hs)
  | kbAssertReset => cases ht; exact h.endCommand _ (h.assertReset hs)
  | kbReleaseReset => cases ht; exact h.endCommand _ (h.releaseReset hs)
  | kbService => cases ht; exact h.endCommand _ hs
  | kbIsCaps => cases hi
  | kbReport mod res keys =>
    cases ht; exact h.endCommand _ (h.act (fun _ => h.fe _ _) (h.act (fun _ => h.fe _ _) (h.sendEvents _ hs)))
  | msReport b dx dy =>
    cases ht; refine h.endCommand _ (h.run ?_ hs)
    intro a ha u hu
    rcases List.mem_append.mp ha with ha | ha
    · simp only [applyButtons, List.mem_cons, List.not_mem_nil, or_false] at ha
      rcases ha with rfl | rfl | rfl <;> exact h.drive _ _ _ hu
    · split at ha
      · simp only [mvWrite, List.mem_cons, List.not_mem_nil, or_false] at ha
        rcases ha with rfl | rfl | rfl <;> exact h.mv _ _ hu
      · cases ha
  | bqInit =>
    cases ht; refine h.endCommand _ ?_
    split
    · exact h.badCmd _ (h.pre _ hs)
    · exact BusStable.busInit (A := .pri) (h.bus .pri) h.pre (h.pre _ hs)
  | bqEnqueue r bytes =>
    have h0 := h.pre _ hs
    simp only [Machine.exec, execBqEnqueue] at ht
    cases ht
    split
    · exact h.endCommand _ (h.badCmd _ h0)
    · split
      · exact h.endCommand _ (h.badCmd _ h0)
      · split
        · exact h.endCommand _ (h.raiseLog _ _ h0)
        · split
          · exact h.holdStep hs
          · exact h.endCommand _ (h.accept _ _ _ h0)

end CommandStable

namespace StepStable

variable {P : State → Prop}

/-- Every command keeps `P`. -/
theorem exec (h : StepStable P) (i : Instr) {s t : State} (hs : P s) (ht : exec i s = .next t) : P t := by
  cases hq : silent i with
  | true => exact h.toCommandStable.silentExec hq hs ht
  | false =>
    cases i with
    | rdreg index => cases ht; exact h.endCommand _ (h.act (fun _ => h.respond _ _) hs)
    | kbIsCaps => cases ht; exact h.endCommand _ (h.act (fun _ => h.respond _ _) hs)
    | pinSample pin =>
      cases ht; refine h.endCommand _ ?_
      split
      · exact h.act (h.respond _) (h.pre _ hs)
      · exact h.badCmd _ hs
    | _ => cases hq

/-- Every step keeps `P`. -/
theorem step (h : StepStable P) {s t : State} (hs : P s) (ht : step s = .next t) : P t := by
  unfold Machine.step at ht
  split at ht
  · cases ht
  · split at ht
    · unfold haltedStep at ht
      split at ht
      · cases ht
      · cases ht; exact h.uncut _ (h.turns.turns hs)
    · split at ht
      · exact h.exec _ hs ht
      · cases ht; exact h.endCommand _ (h.badCmd _ hs)
      · cases ht; exact h.endCommand _ (h.badCmd _ hs)
      · cases ht; exact h.holdStep hs
      · cases ht; exact h.holdStep hs

end StepStable

end Sys2Proof.Machine
end

