-- ==== Sys2Proof/Machine/Asm.lean ====
section
/-! DEFINITION. The assembler syntax (30_encoding.md R97) and the pseudo-instructions (R98): from a line of characters to
a command. Everything R97 leaves open is in log 29. -/

namespace Sys2Proof.Machine

/-! ## Tokens -/

/-- A word (mnemonic, name or number), a comma or a bracket. -/
inductive Token where
  | word (cs : List Char)
  | comma
  | lbracket
  | rbracket
deriving DecidableEq, Repr

/-- The part of a line before its comment. -/
def stripComment (line : List Char) : List Char := line.takeWhile (fun c => c != ';')

/-- Close the word under construction, its characters last first. -/
def flushWord (cur : List Char) (ts : List Token) : List Token :=
  match cur with
  | [] => ts
  | c :: cs => Token.word (c :: cs).reverse :: ts

/-- The tokens of a line; blanks separate words. -/
def tokenizeFrom (cur : List Char) : List Char → List Token
  | [] => flushWord cur []
  | c :: rest =>
    if c = ' ' || c = '\t' || c = '\r' then flushWord cur (tokenizeFrom [] rest)
    else if c = ',' then flushWord cur (.comma :: tokenizeFrom [] rest)
    else if c = '[' then flushWord cur (.lbracket :: tokenizeFrom [] rest)
    else if c = ']' then flushWord cur (.rbracket :: tokenizeFrom [] rest)
    else tokenizeFrom (c :: cur) rest

def tokenize (line : List Char) : List Token := tokenizeFrom [] (stripComment line)

/-! ## Numbers -/

/-- The value of a digit in a base up to 16. -/
def digitVal (base : Nat) (c : Char) : Option Nat :=
  let v :=
    if 48 ≤ c.toNat ∧ c.toNat ≤ 57 then c.toNat - 48
    else if 65 ≤ c.toNat ∧ c.toNat ≤ 70 then c.toNat - 55
    else if 97 ≤ c.toNat ∧ c.toNat ≤ 102 then c.toNat - 87
    else base
  if v < base then some v else none

/-- The value of a list of digits, most significant first, after the value `acc`. -/
def digitsVal (base acc : Nat) : List Char → Option Nat
  | [] => some acc
  | c :: rest =>
    match digitVal base c with
    | none => none
    | some v => digitsVal base (base * acc + v) rest

/-- A decimal number or a 0x hex number. -/
def numberOf : List Char → Option Nat
  | [] => none
  | '0' :: 'x' :: c :: cs => digitsVal 16 0 (c :: cs)
  | c :: cs => digitsVal 10 0 (c :: cs)

/-- A number that fits a byte. -/
def byteOf (cs : List Char) : Option Byte :=
  match numberOf cs with
  | none => none
  | some n => if n ≤ 255 then some (BitVec.ofNat 8 n) else none

/-- dx or dy: from -128 to 127, the negative ones decimal. -/
def int8Of : List Char → Option Byte
  | '-' :: c :: cs =>
    match digitsVal 10 0 (c :: cs) with
    | none => none
    | some n => if n ≤ 128 then some (BitVec.ofInt 8 (-n)) else none
  | cs =>
    match numberOf cs with
    | none => none
    | some n => if n ≤ 127 then some (BitVec.ofNat 8 n) else none

/-- The button mask, 0 to 7. -/
def buttonsOf (cs : List Char) : Option (BitVec 3) :=
  match numberOf cs with
  | none => none
  | some n => if n ≤ 7 then some (BitVec.ofNat 3 n) else none

/-! ## Names -/

/-- A pin's name (10_state.md R21). -/
def Pin.name : Pin → String
  | .kclk => "KCLK"
  | .kdat => "KDAT"
  | .krst => "KRST"
  | .mxa => "MXA"
  | .mxq => "MXQ"
  | .mya => "MYA"
  | .myq => "MYQ"
  | .mb1 => "MB1"
  | .mb2 => "MB2"
  | .mb3 => "MB3"
  | .scl => "SCL"
  | .sda => "SDA"

/-- The names of the registers, index 0 first (10_state.md R46). -/
def regNames : List String :=
  ["KB_STATUS", "KB_LAST_FRAME", "KB_FRAME_COUNT", "KB_FE_PREV_MOD", "ENC_STATUS", "ENC_REM", "MV", "BQ_STATUS",
   "BQ_DEPTH", "BQ_DISPATCH_COUNT", "BQ_FAULT_COUNT", "FAULT", "PIN_DRIVE"]

/-- The position of a name in a list of names. -/
def nameIndex (cs : List Char) (names : List String) : Option Nat := names.findIdx? (fun n => n.toList == cs)

/-- A name of the list, or a number. -/
def namedByte (names : List String) (cs : List Char) : Option Byte :=
  match nameIndex cs names with
  | some k => some (BitVec.ofNat 8 k)
  | none => byteOf cs

/-- A pin operand: its name or its id. -/
def pinOf (cs : List Char) : Option Byte := namedByte (Pin.all.map Pin.name) cs

/-- A register operand: its name or its index. -/
def regOf (cs : List Char) : Option Byte := namedByte regNames cs

/-- The direction of KB_SEND: `down` is B[0] = 0, `up` is B[0] = 1. -/
def directionOf (cs : List Char) : Option Bool :=
  if cs = "down".toList then some false else if cs = "up".toList then some true else none

/-! ## Lines -/

/-- Words separated by commas, up to the end. -/
def commaWords : List Token → Option (List (List Char))
  | [] => some []
  | [.word a] => some [a]
  | .word a :: .comma :: .word b :: rest => (commaWords (.word b :: rest)).map (fun ws => a :: ws)
  | _ => none

/-- The byte list of BQ_ENQUEUE and BQ_WRITE, in brackets, that ends the line. -/
def bracketBytes : List Token → Option (List Byte)
  | .lbracket :: ts =>
    match ts.getLast? with
    | some .rbracket =>
      match commaWords ts.dropLast with
      | none => none
      | some ws => ws.mapM byteOf
    | _ => none
  | _ => none

/-- A pseudo-instruction that R98 allows, expanded. -/
def expandWf (p : Pseudo) : Option Instr := if p.wellFormed then some p.expand else none

/-- The command of a mnemonic whose operands are words separated by commas. -/
def plainCommand (m : List Char) (ops : List (List Char)) : Option Instr :=
  if m = "NOP".toList then (match ops with | [] => some .nop | _ => none)
  else if m = "RDREG".toList then (match ops with | [r] => (regOf r).map .rdreg | _ => none)
  else if m = "PIN_ASSERT".toList then (match ops with | [p] => (pinOf p).map .pinAssert | _ => none)
  else if m = "PIN_RELEASE".toList then (match ops with | [p] => (pinOf p).map .pinRelease | _ => none)
  else if m = "PIN_SAMPLE".toList then (match ops with | [p] => (pinOf p).map .pinSample | _ => none)
  else if m = "KB_INIT".toList then (match ops with | [] => some .kbInit | _ => none)
  else if m = "KB_SEND".toList then
    (match ops with
     | [c, d] => (byteOf c).bind (fun code => (directionOf d).map (fun rel => .kbSend code rel))
     | _ => none)
  else if m = "KB_ASSERT_RESET".toList then (match ops with | [] => some .kbAssertReset | _ => none)
  else if m = "KB_RELEASE_RESET".toList then (match ops with | [] => some .kbReleaseReset | _ => none)
  else if m = "KB_SERVICE".toList then (match ops with | [] => some .kbService | _ => none)
  else if m = "KB_IS_CAPS".toList then (match ops with | [] => some .kbIsCaps | _ => none)
  else if m = "KB_REPORT".toList then
    (match ops.mapM byteOf with
     | some [mod, res, k0, k1, k2, k3, k4, k5] => some (.kbReport mod res ⟨k0, k1, k2, k3, k4, k5⟩)
     | _ => none)
  else if m = "MS_REPORT".toList then
    (match ops with
     | [b, x, y] =>
       (buttonsOf b).bind (fun bs => (int8Of x).bind (fun dx => (int8Of y).map (fun dy => .msReport bs dx dy)))
     | _ => none)
  else if m = "BQ_INIT".toList then (match ops with | [] => some .bqInit | _ => none)
  else if m = "KB_PRESS".toList then
    (match ops with | [c] => (byteOf c).bind (fun code => expandWf (.kbPress code)) | _ => none)
  else if m = "KB_RELEASE".toList then
    (match ops with | [c] => (byteOf c).bind (fun code => expandWf (.kbRelease code)) | _ => none)
  else if m = "BQ_READ".toList then
    (match ops with | [n] => (byteOf n).bind (fun k => expandWf (.bqRead k)) | _ => none)
  else if m = "MS_BUTTONS".toList then
    (match ops with | [b] => (buttonsOf b).bind (fun bs => expandWf (.msButtons bs)) | _ => none)
  else none

/-- The command of a mnemonic and the rest of its line. -/
def commandOf (m : List Char) (rest : List Token) : Option Instr :=
  if m = "BQ_ENQUEUE".toList then
    (match rest with
     | .word r :: .comma :: ts =>
       (byteOf r).bind (fun n => (bracketBytes ts).bind (fun bytes =>
         if (Instr.bqEnqueue n bytes).wellFormed then some (.bqEnqueue n bytes) else none))
     | _ => none)
  else if m = "BQ_WRITE".toList then (bracketBytes rest).bind (fun bytes => expandWf (.bqWrite bytes))
  else (commaWords rest).bind (plainCommand m)

/-- What a line stands for. -/
inductive Line where
  /-- nothing but blanks and a comment -/
  | blank
  | command (i : Instr)
  /-- no line of R97 or R98 -/
  | error
deriving DecidableEq, Repr

/-- One line (R97). -/
def assembleLine (line : List Char) : Line :=
  match tokenize line with
  | [] => .blank
  | .word m :: rest =>
    match commandOf m rest with
    | some i => .command i
    | none => .error
  | _ => .error

/-- The words of a program, one command per line; none if a line is no line of R97 or R98. -/
def assemble : List (List Char) → Option (List Word)
  | [] => some []
  | line :: rest =>
    match assembleLine line with
    | .blank => assemble rest
    | .command i => (assemble rest).map (fun ws => encode i ++ ws)
    | .error => none

end Sys2Proof.Machine
end

