-- ==== Sys2Proof/Tests/Slice0.lean ====
section
/-! SUPPORT. The model's own tests: the smoke test of WellFormed, the decoding of a written word of every command, vectors
of 95_test_vectors.md (named in each comment), and a witness for the hypotheses of every statement that has any. -/

namespace Sys2Proof.Tests

set_option Elab.async false

open Sys2Proof.Machine Sys2Proof.Claims

/-! ## WellFormed refuses ill-formed terms -/

theorem test_wf_refuses_256_write_bytes : (Instr.bqEnqueue 0 (List.replicate 256 0)).wellFormed = false := by
  decide +kernel

theorem test_wf_admits_255_write_bytes : (Instr.bqEnqueue 0 (List.replicate 255 0)).wellFormed = true := by
  decide +kernel

theorem test_wf_refuses_empty_bq_write : (Pseudo.bqWrite []).wellFormed = false := by decide

theorem test_wf_refuses_long_bq_write : (Pseudo.bqWrite (List.replicate 256 0)).wellFormed = false := by decide +kernel

theorem test_wf_refuses_bq_read_0 : (Pseudo.bqRead 0).wellFormed = false := by decide

/-! ## Decoding (section 2.1 and 30_encoding.md R87 to R93) -/

theorem test_decode_nop : decode [0x01000000] = .ok .nop := by decide
theorem test_decode_rdreg : decode [0x020B0000] = .ok (.rdreg 0x0B) := by decide
theorem test_decode_pin_assert : decode [0x100A0000] = .ok (.pinAssert 10) := by decide
theorem test_decode_pin_release : decode [0x11030000] = .ok (.pinRelease 3) := by decide
theorem test_decode_pin_sample : decode [0x12070000] = .ok (.pinSample 7) := by decide
theorem test_decode_kb_init : decode [0x20000000] = .ok .kbInit := by decide
theorem test_decode_kb_send : decode [0x21600100] = .ok (.kbSend 0x60 true) := by decide
theorem test_decode_kb_assert_reset : decode [0x22000000] = .ok .kbAssertReset := by decide
theorem test_decode_kb_release_reset : decode [0x23000000] = .ok .kbReleaseReset := by decide
theorem test_decode_kb_service : decode [0x24000000] = .ok .kbService := by decide
theorem test_decode_kb_is_caps : decode [0x25000000] = .ok .kbIsCaps := by decide
theorem test_decode_kb_report :
    decode [0x26000000, 0x0504FF02, 0x09080706] = .ok (.kbReport 0x02 0xFF ⟨4, 5, 6, 7, 8, 9⟩) := by decide
theorem test_decode_ms_report : decode [0x3005FB05] = .ok (.msReport 5 0xFB 0x05) := by decide
theorem test_decode_bq_init : decode [0x40000000] = .ok .bqInit := by decide
theorem test_decode_bq_enqueue :
    decode [0x41050000, 0x04030201, 0xAABBCC05] = .ok (.bqEnqueue 0 [1, 2, 3, 4, 5]) := by decide

/-- The illegal words of section 2.1. -/
theorem test_decode_illegal_words :
    ([0x00000000, 0x01000001, 0x02000100, 0x03000000, 0x20000100, 0x21600200, 0x21600001, 0x27000000, 0x30080000,
      0x41000001, 0xFF000000] : List Word).all isIllegal = true := by decide +kernel

/-- The lengths of section 2.1: a payload that is not all there is awaited. -/
theorem test_decode_waits_for_the_payload :
    decode [0x41FF0000] = .error (.payloadAbsent 64 0) ∧ decode [0x26000000, 0] = .error (.payloadAbsent 2 1) := by
  decide +kernel

theorem test_decode_table_word : decodeTableWord 32 0x300105FC = some (.msReport 1 0x05 0xFC) := by decide +kernel

/-- The payload word lies above the header word's 32 bits. -/
theorem test_decode_table_payload : decodeTableWord 64 0x0000005541010000 = some (.bqEnqueue 0 [0x55]) := by
  decide +kernel

theorem test_encode_bq_enqueue : encode (.bqEnqueue 0 [1, 2, 3, 4, 5]) = [0x41050000, 0x04030201, 0x00000005] := by
  decide

/-! ## Assembler (30_encoding.md R97, R98; the programs of section 3) -/

theorem test_assemble_program :
    assemble ["MS_REPORT 1, 5, -4 ; P3, index 0".toList, "".toList, "RDREG PIN_DRIVE".toList, "PIN_SAMPLE SDA".toList,
      "BQ_ENQUEUE 2, [0x01, 0x02, 0x03]".toList] =
    some [0x300105FC, 0x020C0000, 0x120B0000, 0x41030200, 0x00030201] := by decide +kernel

theorem test_assemble_pseudo :
    assemble ["KB_RELEASE 0x60".toList, "BQ_READ 3".toList, "BQ_WRITE [0x11]".toList, "MS_BUTTONS 7".toList] =
    some [0x21600100, 0x41000300, 0x41010000, 0x00000011, 0x30070000] := by decide +kernel

theorem test_assemble_refuses :
    assembleLine "BQ_READ 0".toList = .error ∧ assembleLine "MS_REPORT 8, 0, 0".toList = .error ∧
    assembleLine "KB_SEND 0x60".toList = .error := by decide +kernel

/-! ## Small states -/

/-- Parameters with the test values of section 2.7 and section 3 for the OPEN ones. -/
def cfg : Params :=
  { Config.params with maxXfer := 16, usb2scTable := [(0x04, 0x20), (0x05, 0x35)], tRecoveryHalf := 7, busClkHz := 100,
                       busTargetAddr := 60 }

def smallCfg : Params := { cfg with maxXfer := 4 }

def allHigh : Vector Level 12 := Vector.replicate 12 .high

/-- From reset, with every line HIGH, these words available and this schedule. -/
def boot (c : Params) (ws : List Word) (tape : List Turn) : State :=
  { State.resetOver c allHigh [] 0 tape false with cmd := { cp := 0, resp := [], stream := ws } }

/-- Quiet, with these words available. -/
def quiet (ws : List Word) : State := boot cfg ws []

def write1 : Txn := ⟨[0x11], 0, some 0, none⟩
def write2 : Txn := ⟨[0x22], 0, some 1, none⟩
def large : Txn := ⟨[1, 2, 3], 2, some 1, some 2⟩

/-- A bus that is initialised, its head in flight, with these transactions queued and this status raised. -/
def busy (c : Params) (queue : List Txn) (abort stop : Bool) : State :=
  let s := boot c [] []
  { s with
    bq := { s.bq with queue := queue, depth := BitVec.ofNat 32 queue.length, ready := true, inflight := !queue.isEmpty }
    bc := { stAbort := abort, stStop := stop, stOther := false, irqEn := true }
    owned := { live := [⟨0, 1⟩, ⟨1, 3⟩, ⟨2, 2⟩], cells := [(0, 0x11), (256, 1), (257, 2), (258, 3)], next := 3 } }

def enqueueState (c : Params) (queue : List Txn) : State := busy c queue false false

/-- What holds of the next state. -/
def after (o : Host.Outcome State Fault Refusal) (p : State → Bool) : Bool :=
  match o with
  | .next s => p s
  | .fault _ => false
  | .refused _ => false

def events (s : State) : List Event := s.trace.map TraceEntry.event

/-- The frames sent. -/
def frames (s : State) : List Byte :=
  (events s).filterMap (fun e => match e with | .frame w => some w | _ => none)

/-! ## One step of each command -/

/-- 2.2, row 1. -/
theorem test_nop : after (step (quiet [0x01000000])) (fun s => s == { quiet [0x01000000] with
    cmd := { cp := 1, resp := [], stream := [0x01000000] } }) = true := by decide +kernel

/-- 2.2, row 4: MV with DX = 0xFF, DY = 0x02, FLAG = 1. -/
theorem test_rdreg : after (step { quiet [0x02060000] with mv := ⟨0xFF, 0x02, true⟩ })
    (fun s => s.cmd.resp == [0x000102FF]) = true := by decide +kernel

/-- 2.2, row 6: PIN_DRIVE after BQ_INIT. -/
theorem test_rdreg_pin_drive : after (step { quiet [0x020C0000] with
    pins := { (quiet []).pins with funcScl := .busctrl, funcSda := .busctrl, pullScl := true, pullSda := true } })
    (fun s => s.cmd.resp == [0x000F0000]) = true := by decide +kernel

/-- 2.3, row 1. -/
theorem test_pin_assert : after (step (quiet [0x10000000]))
    (fun s => events s == [.pin .kclk .asserted] && s.pins.driveOf .kclk == .asserted) = true := by decide +kernel

/-- 2.3, row 8: SDA is refused, with the header word in the log. -/
theorem test_pin_assert_sda : after (step (quiet [0x100B0000]))
    (fun s => events s == [.log (.badCmd 0x100B0000)] && s.fault == 0x00000040) = true := by decide +kernel

/-- 2.3, row 6: the event is emitted though the drive is what it was. -/
theorem test_pin_release : after (step (quiet [0x11030000]))
    (fun s => events s == [.pin .mxa .released] && s.pins == (quiet []).pins) = true := by decide +kernel

/-- 2.3, row 2: KDAT asserted reads LOW whatever ENV does. -/
theorem test_pin_sample_asserted : after (step (assertPin .pri .kdat (quiet [0x12010000])))
    (fun s => s.cmd.resp == [0x00000000]) = true := by decide +kernel

/-- 2.3, row 3. -/
theorem test_pin_sample : after (step (quiet [0x12070000])) (fun s => s.cmd.resp == [0x00000001]) = true := by
  decide +kernel

/-- 2.6, row 5. -/
theorem test_kb_init : after (step (quiet [0x20000000]))
    (fun s => frames s == [0xFB, 0xFD] && s.kb.initDone && s.kb.lastFrame == 0xFD && s.kb.frameCount == 2) = true := by
  decide +kernel

/-- 2.5: 51 events; bit 7 of 0xC0 is a 1 and goes out first. -/
theorem test_kb_send : after (step (quiet [0x21600000]))
    (fun s => (events s).length == 51 && (events s).take 7 == [.frame 0xC0, .pin .kdat .asserted, .wait .pri 20,
      .pin .kclk .asserted, .wait .pri 20, .pin .kclk .released, .wait .pri 50]) = true := by decide +kernel

/-- W3, row 3: the third key of the chord asserts the reset line before its frame. -/
theorem test_kb_send_chord : after (step { quiet [0x21670000] with kb := {
    (quiet []).kb with ctrl := true, lsp := true } })
    (fun s => (events s).take 2 == [.pin .krst .asserted, .frame 0xCE] && s.kb.rst) = true := by decide +kernel

/-- 2.6, row 8: the reset line is driven again though it is recorded as asserted. -/
theorem test_kb_assert_reset : after (step { quiet [0x22000000] with kb := { (quiet []).kb with rst := true } })
    (fun s => events s == [.pin .krst .asserted] && s.kb.rst) = true := by decide +kernel

/-- R254: the handler may halt the block between the drive of KRST and the write of S.kb.rst. -/
theorem test_kb_assert_reset_split : after (step { busy smallCfg [write1, large] false false with
    cmd := ⟨0, [], [0x22000000]⟩, tape := [.main, .env (.status false true false)] })
    (fun s => s.pins.driveOf .krst == .asserted && !s.kb.rst && s.halted) = true := by decide +kernel

/-- 2.6, row 7. -/
theorem test_kb_release_reset : after (step { quiet [0x23000000] with kb := { (quiet []).kb with rst := true } })
    (fun s => events s == [.pin .krst .released] && !s.kb.rst) = true := by decide +kernel

/-- 2.6, row 6. -/
theorem test_kb_service : after (step (quiet [0x24000000]))
    (fun s => s.cmd.cp == 1 && events s == [] && s.kb == (quiet []).kb) = true := by decide +kernel

/-- 2.6, row 11. -/
theorem test_kb_is_caps : after (step { quiet [0x25000000] with kb := { (quiet []).kb with caps := true } })
    (fun s => s.cmd.resp == [0x00000001]) = true := by decide +kernel

/-- 2.7, row 8: the chord from one report. -/
theorem test_kb_report_chord : after (step (quiet [0x26000000, 0x00000089, 0x00000000]))
    (fun s => frames s == [0xC6, 0xCC, 0xCE] && s.kb.rst && s.cmd.cp == 3) = true := by decide +kernel

/-- 2.7, row 10: modifier frames come before key frames; a key in USB2SC. -/
theorem test_kb_report_order : after (step (quiet [0x26000000, 0x0004FF02, 0x00000000]))
    (fun s => frames s == [0xC0, 0x40] && s.fe == ⟨0x02, ⟨4, 0, 0, 0, 0, 0⟩⟩) = true := by decide +kernel

/-- 2.8, button row 2. -/
theorem test_ms_report_buttons : after (step (quiet [0x30060000]))
    (fun s => events s == [.pin .mb1 .released, .pin .mb2 .asserted, .pin .mb3 .asserted] && s.mv == ⟨0, 0, false⟩) =
    true := by decide +kernel

/-- 2.8, lost-motion vector, points 1 to 3. -/
theorem test_ms_report_lost_motion : after
    (step { boot cfg [0x30000400] [.main, .main, .main, .main, .enc, .enc, .main] with
      enc := { (quiet []).enc with state := .takex } })
    (fun s => s.mv == ⟨0, 0, true⟩ && s.enc.remx == 4 && s.enc.remy == 0) = true := by decide +kernel

/-- Vector B4: nine cycles, and the recovery fails. -/
theorem test_bq_init_stuck : after (step { quiet [0x40000000] with ext := allHigh.set 11 .low })
    (fun s => s.fault == 0x0000000C && s.bq.ready && (events s).length == 41) = true := by decide +kernel

/-- 2.11, row 1: a status raised before BQ_INIT is taken once the interrupt is enabled. -/
theorem test_bq_init_pending : after (step { quiet [0x40000000] with bc := ⟨false, true, false, false⟩ })
    (fun s => s.fault == 0x00000020 && s.bq.ready && s.bc == ⟨false, false, false, true⟩) = true := by decide +kernel

/-- Vector B6. -/
theorem test_bq_enqueue : after (step { enqueueState cfg [] with cmd := ⟨0, [], [0x41010200, 0x00000040]⟩ })
    (fun s => events s == [.dmaStart .rx 2, .dmaStart .tx 3, .busStart [0x0440, 0x0500, 0x0300] 2] &&
      s.bq.depth == 1 && s.bq.inflight && s.dma.tx.len == 3 && s.dma.rx.len == 2 && s.cmd.cp == 2) = true := by
  decide +kernel

/-- Vector B9. -/
theorem test_bq_enqueue_halts : after (step { enqueueState smallCfg [] with cmd := ⟨0, [], [0x41030200, 0x00030201]⟩ })
    (fun s => s.fault == 0x80000001 && events s == [.log (.capacity 5), .halt] && s.masked && !s.bq.inflight &&
      s.bq.depth == 1 && s.cmd.cp == 2) = true := by decide +kernel

/-! ## Steps that are no commands -/

/-- W4, iteration 1. -/
theorem test_encoder_iteration :
    events (encStep { quiet [] with enc := ⟨.run, 8, 0, 0, 0⟩ }) =
      [.pin .mxa .released, .pin .mxq .asserted, .wait .enc 300] := by decide +kernel

/-- W9: abort on the first of two transactions. -/
theorem test_completion_fault : after (step (busy cfg [write1, write2] true false))
    (fun s => s.fault == 0x00000002 && s.bq.queue == [write2] && s.bq.faultCount == 1 && s.bq.inflight) = true := by
  decide +kernel

/-- Vector B8. -/
theorem test_completion_spurious : after (step (busy cfg [] false true))
    (fun s => s.fault == 0x00000020 && events s == [.log .spuriousIrq]) = true := by decide +kernel

/-- 2.2, last row: an illegal word. -/
theorem test_illegal_word : after (step (quiet [0x00000000]))
    (fun s => s.fault == 0x00000040 && events s == [.log (.badCmd 0)] && s.cmd.cp == 1) = true := by decide +kernel

/-- R254: the handler may halt the block between F_BAD_CMD and its LOG. -/
theorem test_illegal_word_split : after (step { busy smallCfg [write1, large] false false with
    cmd := ⟨0, [], [0x00000000]⟩, tape := [.main, .env (.status false true false)] })
    (fun s => s.fault == 0x80000041 && !(events s).contains (.log (.badCmd 0)) && s.cmd.cp == 0) = true := by
  decide +kernel

/-- The words withFetchWord stores are the next to run. -/
theorem test_with_fetch_word : after (step ((quiet []).withFetchWord 32 0x300105FC))
    (fun s => s.mv == ⟨0x05, 0xFC, true⟩) = true := by decide +kernel

/-! ## Witnesses: a state and operands that meet the hypotheses of each statement -/

theorem quiet_settled (ws : List Word) : (quiet ws).Settled :=
  ⟨rfl, rfl, by simp [State.halted, quiet, boot, State.resetOver], rfl⟩

theorem after_next {o : Host.Outcome State Fault Refusal} {p : State → Bool} (h : after o p = true) :
    ∃ t, o = .next t ∧ p t = true := by
  cases o with
  | next s => exact ⟨s, rfl, h⟩
  | fault _ => cases h
  | refused _ => cases h

theorem answers_next {o : Host.Outcome State Fault Refusal} (h : after o (fun _ => true) = true) :
    ∃ t, o = .next t := by
  obtain ⟨t, ht, -⟩ := after_next h
  exact ⟨t, ht⟩

theorem answers_running {o : Host.Outcome State Fault Refusal} (h : after o (fun t => !t.halted) = true) :
    ∃ t, o = .next t ∧ t.halted = false := by
  obtain ⟨t, ht, hp⟩ := after_next h
  exact ⟨t, ht, by simpa using hp⟩

theorem quiet_legal : paramsLegal cfg = true := by decide +kernel

theorem busy_halted (c : Params) (q : List Txn) (abort stop : Bool) : (busy c q abort stop).halted = false := by
  simp [State.halted, busy, boot, State.resetOver]

theorem enqueueState_settled (c : Params) (q : List Txn) : (enqueueState c q).Settled :=
  ⟨rfl, rfl, busy_halted _ _ _ _, rfl⟩

theorem busy_completing (c : Params) (q : List Txn) (abort : Bool) : (busy c q abort true).Completing :=
  ⟨rfl, rfl, by
    unfold State.irqReady; rw [busy_halted]; cases abort <;> rfl⟩

/-- Both ends of the number of write bytes. -/
theorem witness_DecodeInvertsEncode :
    (Instr.bqEnqueue 2 []).wellFormed = true ∧ (Instr.bqEnqueue 0 (List.replicate 255 0xA5)).wellFormed = true ∧
    (Instr.kbReport 2 0xFF ⟨4, 5, 6, 7, 8, 9⟩).wellFormed = true := by decide +kernel

/-- Cut before the header and before the last payload word. -/
theorem witness_CutCommandIsAwaited :
    (Instr.bqEnqueue 2 [1, 2, 3, 4, 5]).wellFormed = true ∧ 0 < (Instr.bqEnqueue 2 [1, 2, 3, 4, 5]).words ∧
    2 < (Instr.bqEnqueue 2 [1, 2, 3, 4, 5]).words := by decide +kernel

theorem witness_StepRunsTheDecodedCommand :
    paramsLegal (quiet [0x300105FC]).cfg = true ∧ (quiet [0x300105FC]).halted = false ∧
    decode (quiet [0x300105FC]).fetchWindow = .ok (.msReport 1 0x05 0xFC) := by decide +kernel

theorem no_row_matches {w : Word} (h : opcodeRows.all (fun row => w &&& row.1 != row.2) = true) :
    ∀ row ∈ opcodeRows, w &&& row.1 ≠ row.2 := by simpa using h

/-- An unassigned OP and a reserved bit. -/
theorem witness_StepSkipsAnIllegalWord :
    paramsLegal cfg = true ∧
    ((quiet [0x00000000]).Settled ∧ (quiet [0x00000000]).fetchWindow = 0x00000000 :: [] ∧
      ∀ row ∈ opcodeRows, (0x00000000 : Word) &&& row.1 ≠ row.2) ∧
    ((quiet [0x01000001]).Settled ∧ (quiet [0x01000001]).fetchWindow = 0x01000001 :: [] ∧
      ∀ row ∈ opcodeRows, (0x01000001 : Word) &&& row.1 ≠ row.2) :=
  ⟨quiet_legal, ⟨quiet_settled _, rfl, no_row_matches (by decide +kernel)⟩,
   ⟨quiet_settled _, rfl, no_row_matches (by decide +kernel)⟩⟩

/-- No word at all, and a payload that is not all there. -/
theorem witness_HoldTakesNoPriStep :
    paramsLegal cfg = true ∧ (quiet []).halted = false ∧ (quiet []).NoReset ∧
    Waiting (quiet []) ∧
    (quiet [0x26000000, 0]).halted = false ∧ (quiet [0x26000000, 0]).NoReset ∧
    Waiting (quiet [0x26000000, 0]) := by
  refine ⟨quiet_legal, ?_, List.not_mem_nil, .inl ?_, ?_, List.not_mem_nil, .inr ⟨2, 1, ?_⟩⟩ <;> decide +kernel

/-- PRI holds in the middle of a payload: a KB_REPORT with its last word still absent. -/
def inPayload (s : State) : State := { s with cmd := { s.cmd with cp := 0, stream := [0x26000000, 0] } }

theorem inPayload_waiting (s : State) : Waiting (inPayload s) := .inr ⟨2, 1, rfl⟩

theorem busy_waiting (c : Params) (q : List Txn) (abort stop : Bool) : Waiting (busy c q abort stop) := .inl rfl

/-- A halted state with a turn of ENC and a status still to come. -/
def haltedState : State := { boot cfg [] [.enc, .env (.status false true false), .main] with fault := 0x80000001 }

theorem witness_HaltedBlockTakesNoStep :
    haltedState.halted = true ∧ haltedState.NoReset ∧ ∃ t, step haltedState = .next t := by
  refine ⟨by decide +kernel, by unfold State.NoReset; decide +kernel, answers_next (by decide +kernel)⟩

/-- Each constraint of R8 broken by itself. -/
theorem witness_IllegalParametersAreRefused :
    { cfg with encDivisor := 0 }.encDivisor = 0 ∧ { cfg with maxXfer := 0 }.maxXfer = 0 ∧
    { cfg with qmax := some 0 }.qmax = some 0 ∧ { cfg with scCtrl := 0x80 }.scCtrl.getLsbD 7 = true ∧
    { cfg with scPowerup := 0x7F }.scPowerup.getLsbD 7 = false ∧
    { cfg with scCtrl := 0x62 }.scCtrl = { cfg with scCtrl := 0x62 }.scCapslock := by decide +kernel

theorem witness_ParametersAreFixed : ∃ t, step (quiet [0x01000000]) = .next t := answers_next (by decide +kernel)

/-- The hypothesis of every statement about a command in a quiet state. -/
theorem witness_Settled : (quiet [0x01000000]).Settled := quiet_settled _

/-- The ends of the range of pin ids that the host drives. -/
theorem witness_PinCommandsDriveTheirPin :
    (quiet []).Settled ∧ (0 : Byte).toNat ≤ 9 ∧ Pin.kclk.id.val = (0 : Byte).toNat ∧ (9 : Byte).toNat ≤ 9 ∧
    Pin.mb3.id.val = (9 : Byte).toNat := ⟨quiet_settled _, by decide +kernel⟩

/-- The ends of the ranges of ids that are refused. -/
theorem witness_PinCommandsRefuseOtherIds :
    (quiet []).Settled ∧ 10 ≤ (10 : Byte).toNat ∧ 12 ≤ (12 : Byte).toNat ∧ 12 ≤ (255 : Byte).toNat :=
  ⟨quiet_settled _, by decide +kernel⟩

/-- Both ends of the pin ids, and a bus pin. -/
theorem witness_PinSampleAnswersTheLevel :
    (quiet []).Settled ∧ Pin.kclk.id.val = (0 : Byte).toNat ∧ Pin.scl.id.val = (10 : Byte).toNat ∧
    Pin.sda.id.val = (11 : Byte).toNat := ⟨quiet_settled _, by decide +kernel⟩

/-- The ends of the two ranges of codes. -/
theorem witness_WireByteClosedForm :
    (0x00 : Byte).toNat ≤ 0x7F ∧ (0x7F : Byte).toNat ≤ 0x7F ∧ 0x80 ≤ (0x80 : Byte).toNat ∧
      0x80 ≤ (0xFF : Byte).toNat := by
  decide +kernel

theorem plain_0x60 : PlainKey cfg 0x60 :=
    ⟨by decide +kernel, by decide +kernel, by decide +kernel, by decide +kernel, by decide +kernel⟩

/-- A plain key, and an out-of-band code. -/
theorem witness_KbSendSendsOneFrame : (quiet []).Settled ∧ PlainKey (quiet []).cfg 0x60 ∧
    PlainKey (quiet []).cfg 0xFD :=
  ⟨quiet_settled _, plain_0x60, ⟨by decide +kernel, by decide +kernel, by decide +kernel, by decide +kernel, by decide +kernel⟩⟩

/-- CapsLockToggles and KbInitAnnounces. -/
theorem witness_SettledAndLegal : (quiet []).Settled ∧ paramsLegal (quiet []).cfg = true :=
    ⟨quiet_settled _, quiet_legal⟩

/-- Each of the three codes. -/
theorem witness_TrioKeyDrivesTheResetLine :
    (quiet []).Settled ∧ paramsLegal (quiet []).cfg = true ∧ (0x63 : Byte) = (quiet []).cfg.scCtrl ∧
    (0x66 : Byte) = (quiet []).cfg.scLspecial ∧ (0x67 : Byte) = (quiet []).cfg.scRspecial :=
  ⟨quiet_settled _, quiet_legal, by decide +kernel⟩

/-- The completion status of a busy bus, raised inside a command. -/
def scheduled : State :=
  { busy cfg [write1, write2] false false with tape := [.main, .main, .enc, .env
    (.status false true false), .main, .enc] }

theorem scheduled_noReset : scheduled.NoReset := by unfold State.NoReset; decide +kernel

/-- A plain key, a caps-lock press, a trio key, and the commands that send several frames. -/
theorem witness_FrameIsNeverSplit :
    scheduled.cut = false ∧ scheduled.NoReset ∧
    (∀ code ∈ [0x60, scheduled.cfg.scCapslock, scheduled.cfg.scCtrl],
      (∃ t, exec (.kbSend code false) scheduled = .next t ∧ t.halted = false) ∧ code ≠ scheduled.cfg.scUnknown ∧
        ¬ (code = scheduled.cfg.scCapslock ∧ false = true)) ∧
    (∃ t, exec .kbInit scheduled = .next t ∧ t.halted = false) ∧
    ∃ t, exec (.kbReport 2 0 ⟨4, 5, 0, 0, 0, 0⟩) scheduled = .next t ∧ t.halted = false :=
  ⟨rfl, scheduled_noReset, by
    intro code h
    simp only [List.mem_cons, List.not_mem_nil, or_false] at h
    rcases h with rfl | rfl | rfl <;> exact ⟨answers_running (by decide +kernel), by decide +kernel, by decide +kernel⟩,
    answers_running (by decide +kernel), answers_running (by decide +kernel)⟩

/-- Both commands. -/
theorem witness_KeyboardWaitsAddUp :
    scheduled.cut = false ∧ scheduled.NoReset ∧ paramsLegal scheduled.cfg = true ∧
    (∃ t, exec .kbInit scheduled = .next t ∧ t.halted = false) ∧
    (∃ t, exec (.kbSend 0x60 false) scheduled = .next t ∧ t.halted = false ∧ PlainKey scheduled.cfg 0x60) :=
  ⟨rfl, scheduled_noReset, quiet_legal, answers_running (by decide +kernel),
    (answers_running (by decide +kernel)).imp fun _ h => ⟨h.1, h.2, plain_0x60⟩⟩

theorem witness_ScheduleCannotChangeTheKeyboard :
    scheduled.cut = false ∧ scheduled.NoReset ∧
      (∃ t, exec (.kbSend 0x63 false) scheduled = .next t ∧ t.halted = false) ∧
    ∃ u, exec (.kbSend 0x63 false) (quieted scheduled) = .next u ∧ u.halted = false :=
  ⟨rfl, scheduled_noReset, answers_running (by decide +kernel), answers_running (by decide +kernel)⟩

/-- A state whose encoder is in the state `e`. -/
def encoderIn (e : EncState) (x y : Byte) : State := { quiet [] with enc := ⟨e, x, y, 0, 0⟩ }

theorem witness_EncoderHandoffSteps :
    (encoderIn .clr 0 0).enc.state = .clr ∧ (encoderIn .takex 0 0).enc.state = .takex ∧
    (encoderIn .takey 0 0).enc.state = .takey ∧ (encoderIn .check 1 0).enc.state = .check := by decide +kernel

/-- Nothing left, and each axis at each end of its range. -/
theorem witness_EncoderIteration :
    ((encoderIn .run 0 0).enc.state = .run ∧ (encoderIn .run 0 0).enc.remx = 0 ∧ (encoderIn .run 0 0).enc.remy = 0) ∧
    ((encoderIn .run 0x80 0).enc.state = .run ∧ (encoderIn .run 0x80 0).enc.remx ≠ 0) ∧
    ((encoderIn .run 0 0x7F).enc.state = .run ∧ (encoderIn .run 0 0x7F).enc.remy ≠ 0) := by decide +kernel

theorem witness_PhaseNeverSkips : (encoderIn .check 1 0).enc.state ≠ .run := by decide +kernel

/-- The longest vector. -/
theorem witness_VectorRunsToCompletion :
    (encoderIn .run 0x80 0x7F).enc.state = .run ∧ (encoderIn .run 0x80 0x7F).mv.flag = false ∧
    1 ≤ (encoderIn .run 0x80 0x7F).cfg.encDivisor := by decide +kernel

/-- The schedule of the lost-motion hazard. -/
def lossy : State := { encoderIn .takex 0 0 with tape := [.main, .main, .main, .main, .main, .enc, .enc] }

theorem witness_HandoffMayLoseMotion :
    ¬ ((4 : Byte) = 0 ∧ (0 : Byte) = 0) ∧ lossy.cut = false ∧ lossy.halted = false ∧ lossy.pending = false ∧
    lossy.enc.state = .takex ∧ lossy.tape = [.main, .main, .main, .main, .main, .enc, .enc] := by decide +kernel

theorem witness_BqInitConfigures :
    (quiet []).Settled ∧ (quiet []).bq.depth = 0 ∧ (quiet []).ext[10] = .high ∧ (quiet []).ext[11] = .high :=
  ⟨quiet_settled _, by decide +kernel⟩

/-- A quiet state with these levels on SCL and SDA. -/
def lines (scl sda : Level) : State := { quiet [] with ext := (allHigh.set 10 scl).set 11 sda }

/-- SDA low, and let go by ENV after `n` atomic steps of PRI. -/
def letGo (n : Nat) : State :=
  { lines .high .low with tape := List.replicate n .main ++ [.env (.level .sda .high)] }

/-- SCL alone low, SDA alone low, both low; SDA let go at the first and at the last moment for cycles 1 and 9. -/
theorem witness_BqInitRecovers :
    ((lines .low .high).Settled ∧ (lines .low .high).bq.depth = 0 ∧ (lines .low .high).ext[10] = .low ∧
      (lines .low .high).ext[11] = .high) ∧
    ((lines .high .low).Settled ∧ (lines .high .low).bq.depth = 0 ∧ (lines .high .low).ext[11] = .low) ∧
    ((lines .low .low).Settled ∧ (lines .low .low).bq.depth = 0 ∧ (lines .low .low).ext[11] = .low) ∧
    (∀ n : Nat, (letGo n).cut = false ∧ (letGo n).halted = false ∧ (letGo n).pending = false ∧
      (letGo n).bq.depth = 0 ∧ (letGo n).ext[11] = .low ∧
      (letGo n).tape = List.replicate n .main ++ [.env (.level .sda .high)]) ∧
    (4 + 5 * 1 ≤ 9 ∧ 13 ≤ 8 + 5 * 1) ∧ (4 + 5 * 9 ≤ 49 ∧ 53 ≤ 8 + 5 * 9) :=
  ⟨⟨⟨rfl, rfl, by decide +kernel, by decide +kernel⟩, by decide +kernel⟩,
    ⟨⟨rfl, rfl, by decide +kernel, by decide +kernel⟩, by decide +kernel⟩,
    ⟨⟨rfl, rfl, by decide +kernel, by decide +kernel⟩, by decide +kernel⟩,
    fun _ => ⟨rfl, by simp [State.halted, letGo, lines, quiet, boot, State.resetOver], rfl, rfl,
      by simp [letGo, lines, allHigh], rfl⟩, by decide, by decide⟩

/-- Each of the refusals: transactions queued; not initialised; empty; one unit more than a single transfer. -/
theorem witness_BusCommandsAreRefused :
    ((enqueueState cfg [write1]).Settled ∧ (enqueueState cfg [write1]).bq.depth ≠ 0) ∧
    ((quiet []).Settled ∧ (quiet []).bq.ready = false) ∧
    ((enqueueState cfg []).Settled ∧ ([] : List Byte).length + (0 : Byte).toNat = 0) ∧
    ((enqueueState { smallCfg with capacityPolicy := .rejectAtEnqueue } []).Settled ∧
      (enqueueState { smallCfg with capacityPolicy := .rejectAtEnqueue } []).bq.ready = true ∧
      ([1, 2, 3] : List Byte).length + (2 : Byte).toNat ≠ 0 ∧
      (enqueueState { smallCfg with capacityPolicy := .rejectAtEnqueue } []).cfg.capacityPolicy = .rejectAtEnqueue ∧
      (enqueueState { smallCfg with capacityPolicy := .rejectAtEnqueue } []).cfg.maxXfer <
        ([1, 2, 3] : List Byte).length + (2 : Byte).toNat) :=
  ⟨⟨enqueueState_settled _ _, by decide +kernel⟩, ⟨quiet_settled _, by decide +kernel⟩,
    ⟨enqueueState_settled _ _, by decide +kernel⟩,
   ⟨enqueueState_settled _ _, by decide +kernel⟩⟩

/-- Vector B12: QMAX = 1, under either policy. -/
theorem witness_EnqueueHoldsWhenFull :
    (enqueueState { cfg with qmax := some 1 } [write1]).Settled ∧
    (enqueueState { cfg with qmax := some 1 } [write1]).bq.ready = true ∧
    ([0x22] : List Byte).length + (0 : Byte).toNat ≠ 0 ∧
    (enqueueState { cfg with qmax := some 1 } [write1]).cfg.capacityPolicy = .haltAtDispatch ∧
    (enqueueState { cfg with qmax := some 1 } [write1]).cfg.qmax = some 1 ∧
    1 ≤ (enqueueState { cfg with qmax := some 1 } [write1]).bq.depth.toNat :=
  ⟨enqueueState_settled _ _, by decide +kernel⟩

theorem accepted_write : Accepted (enqueueState cfg [write1]) 1 0 :=
    ⟨rfl, by decide +kernel, .inl rfl, by intro m h; cases h⟩

/-- A queue with room for one more. -/
theorem witness_EnqueueAppends :
    (enqueueState cfg [write1]).Settled ∧ Accepted (enqueueState cfg [write1]) ([0x22] : List Byte).length
      (0 : Byte).toNat ∧
    (enqueueState cfg [write1]).bq.queue ≠ [] :=
  ⟨enqueueState_settled _ _, accepted_write, by decide +kernel⟩

/-- A transaction of exactly MAX_XFER units. -/
theorem witness_EnqueueDispatches :
    (enqueueState smallCfg []).Settled ∧ Accepted (enqueueState smallCfg []) ([1, 2] : List Byte).length
      (2 : Byte).toNat ∧
    (enqueueState smallCfg []).bq.queue = [] ∧
    ([1, 2] : List Byte).length + (2 : Byte).toNat ≤ (enqueueState smallCfg []).cfg.maxXfer :=
  ⟨enqueueState_settled _ _, ⟨rfl, by decide +kernel, .inl rfl, by intro m h; cases h⟩, by decide +kernel⟩

/-- A transaction of MAX_XFER + 1 units. -/
theorem witness_OversizeEnqueueHalts :
    (enqueueState smallCfg []).Settled ∧ Accepted (enqueueState smallCfg []) ([1, 2, 3] : List Byte).length
      (2 : Byte).toNat ∧
    (enqueueState smallCfg []).bq.queue = [] ∧
    (enqueueState smallCfg []).cfg.maxXfer < ([1, 2, 3] : List Byte).length + (2 : Byte).toNat :=
  ⟨enqueueState_settled _ _, ⟨rfl, by decide +kernel, .inl rfl, by intro m h; cases h⟩, by decide +kernel⟩

/-- No write bytes, and the most there can be, over storage with live buffers; the two buffers are both there; a live
buffer. -/
theorem witness_MakeTxnCopiesThePayload :
    ([] : List Byte).length ≤ 255 ∧ (List.replicate 255 (7 : Byte)).length ≤ 255 ∧
    (busy cfg [] false false).Settled ∧
    (∀ h ∈ (busy cfg [] false false).owned.handles, h < (busy cfg [] false false).owned.next) ∧
    (makeTxn .pri [1, 2] 3 (busy cfg [] false false)).1.wbuf = some 3 ∧
    (makeTxn .pri [1, 2] 3 (busy cfg [] false false)).1.rbuf = some 4 ∧
    2 ∈ (busy cfg [] false false).owned.handles :=
  ⟨by decide, by decide +kernel, enqueueState_settled _ _, by decide +kernel⟩

/-- A read-only, a write-only and a mixed transaction. -/
theorem witness_UnitsCarryTheirFlags :
    0 < (⟨[], 1, none, some 0⟩ : Txn).wdata.length + (⟨[], 1, none, some 0⟩ : Txn).r.toNat ∧
    0 < write1.wdata.length + write1.r.toNat ∧ 0 < large.wdata.length + large.r.toNat ∧
    (buildUnits large)[4]? = some 0x0300 := by decide +kernel

/-- With a next transaction of exactly MAX_XFER units. -/
theorem witness_CompletionFreesAndDispatchesNext :
    paramsLegal cfg = true ∧ (busy { cfg with maxXfer := 5 } [write1, large] false true).Completing ∧
    Waiting (busy { cfg with maxXfer := 5 } [write1, large] false true) ∧
    (inPayload (busy { cfg with maxXfer := 5 } [write1, large] false true)).Completing ∧
    Waiting (inPayload (busy { cfg with maxXfer := 5 } [write1, large] false true)) ∧
    (busy { cfg with maxXfer := 5 } [write1, large] false true).bq.queue = write1 :: [large] ∧
    (busy { cfg with maxXfer := 5 } [write1, large] false true).bc.stStop = true ∧
    (busy { cfg with maxXfer := 5 } [write1, large] false true).bc.stAbort = false ∧
    nextFits { cfg with maxXfer := 5 } [large] :=
  ⟨quiet_legal, busy_completing _ _ _, busy_waiting _ _ _ _, ⟨rfl, rfl, by decide +kernel⟩, inPayload_waiting _, rfl, rfl,
    rfl, by unfold nextFits; decide +kernel⟩

/-- Abort with stop (abort wins), and a status that is neither; SCL alone low, and SDA low. -/
theorem witness_BusFaultIsSkipped :
    paramsLegal cfg = true ∧ (busy cfg [write1, write2] true true).Completing ∧
    (busy cfg [write1, write2] true true).bc.stAbort = true ∧
    ({ busy cfg [write1, write2] false false with bc := ⟨false, false, true, true⟩ } : State).Completing ∧
    Waiting (busy cfg [write1, write2] true true) ∧
    (inPayload (busy cfg [write1, write2] true true)).Completing ∧
    Waiting (inPayload (busy cfg [write1, write2] true true)) ∧
    (busy cfg [write1, write2] true true).bq.queue = write1 :: [write2] ∧ nextFits cfg [write2] ∧
    ((busy cfg [write1, write2] true true).ext[10] = .high ∧ (busy cfg [write1, write2] true true).ext[11] = .high) ∧
    (({ busy cfg [write1, write2] true true with ext := allHigh.set 10 .low } : State).Completing ∧
      (allHigh.set 10 .low)[10] = .low ∧ (allHigh.set 10 .low)[11] = .high) ∧
    (({ busy cfg [write1, write2] true true with ext := allHigh.set 11 .low } : State).Completing ∧
      (allHigh.set 11 .low)[11] = .low) :=
  ⟨quiet_legal, busy_completing _ _ _, rfl, ⟨rfl, rfl, by decide +kernel⟩, busy_waiting _ _ _ _,
    ⟨rfl, rfl, by decide +kernel⟩, inPayload_waiting _, rfl, by unfold nextFits; decide +kernel, by decide +kernel,
    ⟨⟨rfl, rfl, by decide +kernel⟩, by decide +kernel⟩,
    ⟨⟨rfl, rfl, by decide +kernel⟩, by decide +kernel⟩⟩

/-- Vector B11. -/
theorem witness_OversizeNextHaltsInHandler :
    paramsLegal smallCfg = true ∧ (busy smallCfg [write1, large] false true).Completing ∧
    Waiting (busy smallCfg [write1, large] false true) ∧
    (inPayload (busy smallCfg [write1, large] false true)).Completing ∧
    Waiting (inPayload (busy smallCfg [write1, large] false true)) ∧
    (busy smallCfg [write1, large] false true).bq.queue = write1 :: large :: [] ∧
    (busy smallCfg [write1, large] false true).bc.stStop = true ∧
    (busy smallCfg [write1, large] false true).bc.stAbort = false ∧
    (busy smallCfg [write1, large] false true).cfg.maxXfer < large.wdata.length + large.r.toNat :=
  ⟨by decide +kernel, busy_completing _ _ _, busy_waiting _ _ _ _, ⟨rfl, rfl, by decide +kernel⟩, inPayload_waiting _, rfl,
    rfl, rfl, by decide +kernel⟩

theorem witness_SpuriousCompletion :
    paramsLegal cfg = true ∧ (busy cfg [] false true).Completing ∧ Waiting (busy cfg [] false true) ∧
    (inPayload (busy cfg [] false true)).Completing ∧ Waiting (inPayload (busy cfg [] false true)) ∧
    (busy cfg [] false true).bq.queue = [] :=
  ⟨quiet_legal, busy_completing _ _ _, busy_waiting _ _ _ _, ⟨rfl, rfl, by decide +kernel⟩, inPayload_waiting _, rfl⟩

/-- W8: two transactions behind one in flight. -/
theorem witness_QueueDrainsInOrder :
    (enqueueState cfg [write1, write2, large]).tape = [] ∧ (enqueueState cfg [write1, write2, large]).cut = false ∧
    (enqueueState cfg [write1, write2, large]).halted = false ∧
    (enqueueState cfg [write1, write2, large]).bq.queue = write1 :: [write2, large] ∧
    (enqueueState cfg [write1, write2, large]).bc.stAbort = false ∧
    ∀ u ∈ [write2, large], u.wdata.length + u.r.toNat ≤ (enqueueState cfg [write1, write2, large]).cfg.maxXfer := by
  decide +kernel

/-- An interrupt is pending before the boundary. -/
theorem witness_InterruptGoesFirst :
    (busy cfg [write1, write2] false true).irqReady = true ∧
      (boundary (busy cfg [write1, write2] false true)).live = true := by
  decide +kernel

theorem witness_HandlerRestoresTheMask :
    (busy cfg [write1, write2] false true).live = true ∧
    (completionHandler (busy cfg [write1, write2] false true)).live = true := by decide +kernel

theorem busy_queueOk : (busy cfg [write1, write2] false true).QueueOk :=
  ⟨rfl, rfl, by decide +kernel, fun _ => rfl, fun _ => rfl, fun _ => rfl, fun _ => by decide +kernel,
    fun h => absurd h (by decide +kernel)⟩

/-- Also a halted state with the oversize head. -/
theorem witness_StepKeepsQueueOk :
    (busy cfg [write1, write2] false true).QueueOk ∧ (∃ t, step (busy cfg [write1, write2] false true) = .next t) ∧
    ({ busy smallCfg [large] false false with
        fault := 0x80000001, masked := true, bq := { (busy smallCfg [large] false false).bq with inflight := false } } :
      State).QueueOk :=
  ⟨busy_queueOk, answers_next (by decide +kernel),
    ⟨rfl, rfl, by decide +kernel, fun _ => rfl, fun _ => rfl, fun h => absurd h (by decide +kernel),
    fun h => absurd h (by decide +kernel), fun _ => ⟨rfl, rfl, large, [], rfl, by decide +kernel⟩⟩⟩

theorem witness_StepKeepsMemoryOk :
    (busy cfg [write1, large] false true).MemoryOk ∧ ∃ t, step (busy cfg [write1, large] false true) = .next t :=
  ⟨by unfold State.MemoryOk; decide +kernel, answers_next (by decide +kernel)⟩

theorem witness_StepKeepsOwnershipOk :
    (busy cfg [write1, large] false true).OwnershipOk ∧ ∃ t, step (busy cfg [write1, large] false true) = .next t :=
  ⟨⟨by decide +kernel, by decide +kernel, by decide +kernel⟩, answers_next (by decide +kernel)⟩

theorem witness_StepKeepsFaultBitsOk :
    (quiet [0x00000000]).FaultBitsOk ∧ ∃ t, step (quiet [0x00000000]) = .next t :=
  ⟨by unfold State.FaultBitsOk; decide +kernel, answers_next (by decide +kernel)⟩

/-- With a queued transaction of exactly MAX_XFER units. -/
theorem witness_RejectPolicyNeverHalts :
    (busy { cfg with maxXfer := 5, capacityPolicy := .rejectAtEnqueue } [write1, large] false true).RejectOk ∧
    ∃ t, step (busy { cfg with maxXfer := 5, capacityPolicy := .rejectAtEnqueue } [write1, large] false true) =
      .next t :=
  ⟨⟨rfl, by decide +kernel, by decide +kernel⟩, answers_next (by decide +kernel)⟩

theorem witness_FaultBitsAreSticky :
    ({ scheduled with fault := 0x00000040 } : State).NoReset ∧
    (∃ t, step { scheduled with fault := 0x00000040 } = .next t) ∧
    ({ scheduled with fault := 0x00000040 } : State).fault.getLsbD 6 = true :=
  ⟨scheduled_noReset, answers_next (by decide +kernel), by decide +kernel⟩

/-- A command that answers, and one that does not. -/
theorem witness_EachCommandMakesItsResponses :
    scheduled.cut = false ∧ scheduled.NoReset ∧ (∃ t, exec (.pinSample 11) scheduled = .next t ∧ t.halted = false) ∧
    ∃ t, exec (.pinSample 12) scheduled = .next t ∧ t.halted = false :=
  ⟨rfl, scheduled_noReset, answers_running (by decide +kernel), answers_running (by decide +kernel)⟩

end Sys2Proof.Tests
end

section
/-! The reset table (10_state.md R60). -/

namespace Sys2Proof.Proofs

open Sys2Proof.Machine

/-- `S.halted` is bit 31 of the fault register (log 16), which reset clears. -/
theorem resetOver_halted (cfg : Params) (ext : Vector Level 12) (trace : List TraceEntry) (draws : Nat)
    (tape : List Turn) (cut : Bool) : (State.resetOver cfg ext trace draws tape cut).halted = false := by
  have fault_zero : (State.resetOver cfg ext trace draws tape cut).fault = 0 := rfl
  simp [State.halted, fault_zero]

/-- Settles O10: the rows of R60 are the fields `State.resetOver` writes; `halted` alone is computed from one. -/
theorem resetValues : Obligations.ResetValues := by
  unfold Obligations.ResetValues
  have not_halted : State.reset.halted = false := resetOver_halted ..
  exact ⟨rfl, rfl, rfl, rfl, rfl, rfl, rfl, ⟨rfl, rfl, rfl, rfl⟩, rfl, rfl, not_halted, rfl, rfl⟩

end Sys2Proof.Proofs
end

section
/-! What is PRI's own while PRI holds (20_memory.md R71, R74): no step of ENC, ENV or ISR touches it. -/

namespace Sys2Proof.Proofs

open Sys2Proof.Machine Sys2Proof.Claims

/-! ## PRI's own part of a state -/

/-- The lines that PRI alone drives (10_state.md R21); the mouse link's other lines are ENC's, the bus lines the
bus engine's. -/
def priLines : List Pin := [.kclk, .kdat, .krst, .mb1, .mb2, .mb3]

/-- The part of a state that only PRI and the reset event change. -/
structure PriPart where
  cp : Nat
  resp : List Word
  kb : Kb
  fe : Fe
  events : List TraceEntry
  lines : List Drive

/-- PRI's own part of `s`. -/
def priPart (s : State) : PriPart where
  cp := s.cmd.cp
  resp := s.cmd.resp
  kb := s.kb
  fe := s.fe
  events := priTrace s
  lines := priLines.map s.pins.driveOf

/-- What equal parts say of the states, field by field. -/
theorem priPart_eq_iff {s t : State} : priPart t = priPart s ↔
    t.cmd.cp = s.cmd.cp ∧ t.cmd.resp = s.cmd.resp ∧ t.kb = s.kb ∧ t.fe = s.fe ∧ priTrace t = priTrace s ∧
      ∀ p ∈ priLines, t.pins.driveOf p = s.pins.driveOf p := by
  simp only [priPart, PriPart.mk.injEq, List.map_inj_left]

/-- A pin's id is its place in the list of pins. -/
theorem all_getElem_id (p : Pin) : Pin.all[p.id.val]? = some p := by cases p <;> rfl

theorem pin_id_injective : Function.Injective Pin.id := by
  intro p q hid
  have same_entry : some p = some q := by rw [← all_getElem_id p, ← all_getElem_id q, hid]
  exact Option.some.inj same_entry

/-- Driving one pin leaves the drive of every other (40_pin_driver.md R110, R111). -/
theorem driveOf_setDrive_of_ne {p q : Pin} (h : p ≠ q) (ps : Pins) (d : Drive) :
    (ps.setDrive q d).driveOf p = ps.driveOf p :=
  Vector.getElem_set_ne q.id.isLt p.id.isLt fun e => h (pin_id_injective (Fin.ext e.symm))

/-! ## The primitives of the other agents -/

theorem priPart_emit {ag : Agent} (hag : ag ≠ .pri) (e : Event) (s : State) : priPart (emit ag e s) = priPart s := by
  have not_pri : (ag == Agent.pri) = false := beq_false_of_ne hag
  have events_eq : priTrace (emit ag e s) = priTrace s := by simp [priTrace, not_pri]
  exact priPart_eq_iff.2 ⟨rfl, rfl, rfl, rfl, events_eq, fun _ _ => rfl⟩

/-- A drive of a line that is not PRI's. -/
theorem priPart_drivePin {ag : Agent} (hag : ag ≠ .pri) {q : Pin} (hq : q ∉ priLines) (d : Drive) (s : State) :
    priPart (drivePin ag q d s) = priPart s := by
  refine (priPart_emit hag _ _).trans (priPart_eq_iff.2 ⟨rfl, rfl, rfl, rfl, rfl, fun p hp => ?_⟩)
  have hne : p ≠ q := ne_of_mem_of_not_mem hp hq
  exact driveOf_setDrive_of_ne hne s.pins d

theorem priPart_popAndFree (s : State) : priPart (popAndFree s) = priPart s := by
  unfold popAndFree
  split <;> rfl

/-! ## One step of ENC, one step of ENV -/

theorem lineA_not_mem_priLines (ax : Axis) : ax.lineA ∉ priLines := by cases ax <;> decide

theorem lineQ_not_mem_priLines (ax : Axis) : ax.lineQ ∉ priLines := by cases ax <;> decide

/-- An axis drives its own two lines only (41_quadrature.md R134, R139). -/
theorem priPart_axisAdvance (ax : Axis) (s : State) : priPart (axisAdvance ax s) = priPart s := by
  unfold axisAdvance
  split
  · exact (priPart_drivePin (by decide) (lineQ_not_mem_priLines ax) _ _).trans
      (priPart_drivePin (by decide) (lineA_not_mem_priLines ax) _ _)
  · rfl

theorem priPart_axisDecrement (ax : Axis) (s : State) : priPart (axisDecrement ax s) = priPart s := rfl

theorem priPart_encIteration (s : State) : priPart (encIteration s) = priPart s := by
  unfold encIteration wait
  rw [priPart_emit (by decide), priPart_axisDecrement, priPart_axisAdvance, priPart_axisDecrement,
    priPart_axisAdvance]

theorem priPart_setEncState (e : EncState) (s : State) : priPart (setEncState e s) = priPart s := rfl

/-- ENC has no access to what is PRI's (20_memory.md R74, 41_quadrature.md R130). -/
theorem priPart_encStep (s : State) : priPart (encStep s) = priPart s := by
  unfold encStep
  split
  · rfl
  · rfl
  · rfl
  · split
    · rfl
    · exact priPart_encIteration s
  · split <;> rfl

/-- Of ENV's events only the reset reaches what is PRI's (30_encoding.md R99, 70_reset_and_hazards.md R290): a new word
goes to the stream's end and moves no pointer. -/
theorem priPart_envStep {e : EnvEvent} (he : e ≠ .reset) (s : State) : priPart (envStep e s) = priPart s := by
  cases e with
  | word | status | endTx | level => rfl
  | endRx bytes => simp only [envStep]; split <;> rfl
  | reset => exact absurd rfl he

/-! ## Every schedule without a reset -/

/-- No reset is scheduled in `t`, and what is PRI's is as it was in `s`: what each step of a hold that began in `s`
keeps. -/
structure PriKept (s t : State) : Prop where
  noReset : t.NoReset
  part : priPart t = priPart s

/-- A change that touches neither the schedule nor what is PRI's. -/
theorem PriKept.of_frame {s t u : State} (h : PriKept s t) (hpart : priPart u = priPart t := by rfl)
    (htape : u.tape = t.tape := by rfl) : PriKept s u where
  noReset := by unfold State.NoReset; rw [htape]; exact h.noReset
  part := hpart.trans h.part

theorem priKept_turnStable (s : State) : TurnStable (PriKept s) where
  enc t h := h.of_frame (priPart_encStep t) (encStep_tape t)
  env e t h he := h.of_frame (priPart_envStep (fun hr => h.noReset (hr ▸ he)) t) (envStep_tape e t)
  tape _ _ h hsuffix := ⟨fun hr => h.noReset (hsuffix.subset hr), h.part⟩

/-- The completion handler's actions: its events are ISR's, and the only pins it drives are the bus lines. -/
theorem priKept_busStable (s : State) : BusStable .isr (PriKept s) where
  toTurnStable := priKept_turnStable s
  emit e _ t h := h.of_frame (priPart_emit (by decide) e t)
  scl d t h := h.of_frame (priPart_drivePin (by decide) (by decide) d t)
  sda d t h := h.of_frame (priPart_drivePin (by decide) (by decide) d t)
  funcScl _ _ h := h.of_frame
  funcSda _ _ h := h.of_frame
  pullScl _ _ h := h.of_frame
  pullSda _ _ h := h.of_frame
  irqEn _ h := h.of_frame
  ready _ h := h.of_frame
  raise _ _ h := h.of_frame
  mask _ _ h := h.of_frame
  prepare _ _ h := h.of_frame
  dmaStart _ _ _ _ h := h.of_frame (priPart_emit (by decide) _ _)
  dmaAbort _ _ h := h.of_frame (priPart_emit (by decide) _ _)
  markInflight _ h := h.of_frame
  notInflight _ h := h.of_frame
  readStatus _ h := h.of_frame
  countFault _ h := h.of_frame
  pop t h := h.of_frame (priPart_popAndFree t) (by unfold popAndFree; split <;> rfl)

/-- Both forms of a hold: one step of ENC where nothing is scheduled (log 2), or the boundary with its turns and
interrupts. -/
theorem priKept_holdStep {s : State} (hn : s.NoReset) : PriKept s (holdStep s) := by
  have start : PriKept s s := ⟨hn, rfl⟩
  unfold holdStep
  split
  · exact ((priKept_turnStable s).enc s start).of_frame
  · exact ((priKept_busStable s).boundary start).of_frame

/-- Settles O7: the step is a hold, and a hold is made of steps of ENC, ENV and ISR, none of which changes PRI's own
part of the state. -/
theorem holdTakesNoPriStep : Obligations.HoldTakesNoPriStep := by
  unfold Obligations.HoldTakesNoPriStep
  intro s hlegal hrunning hn hwaiting
  obtain ⟨hcp, hresp, hkb, hfe, htrace, hlines⟩ := priPart_eq_iff.1 (priKept_holdStep hn).part
  exact ⟨holdStep s, Laws.step_of_waiting hlegal hrunning hwaiting, hcp, hresp, hkb, hfe, htrace, hlines⟩

end Sys2Proof.Proofs
end

section
/-! Header words: the decoder's fields against the rows of the opcode table (30_encoding.md R82, R83, R87 to R93), and
the words of a command that is cut short (R84). -/

namespace Sys2Proof.Proofs

open Sys2Proof.Claims

/-! ## A header word of an operation -/

/-- `w` is a header word of the operation `o`: OP is its code and no reserved bit is set (R82, R83). -/
structure LegalHeader (o : Op) (w : Word) : Prop where
  op : fieldOp w = o.code
  clear : reservedClear o (fieldA w) (fieldB w) (fieldC w) = true

theorem LegalHeader.opOf_eq {o : Op} {w : Word} (h : LegalHeader o w) : opOf (fieldOp w) = some o := by
  rw [h.op, Laws.opOf_code]

theorem LegalHeader.isIllegal_eq {o : Op} {w : Word} (h : LegalHeader o w) : isIllegal w = false := by
  simp [isIllegal, h.opOf_eq, h.clear]

/-- Behind a legal header the decoder checks nothing but the number of payload words (R84). -/
theorem LegalHeader.decode_eq {o : Op} {w : Word} (h : LegalHeader o w) (pay : List Word) :
    decode (w :: pay) =
      if pay.length < payloadWords o (fieldA w) then
        .error (.payloadAbsent (payloadWords o (fieldA w)) pay.length)
      else .ok (buildInstr o (fieldA w) (fieldB w) (fieldC w) pay) := by
  simp only [decode, h.opOf_eq, h.clear, if_true]

/-- A header word is some operation's, or it is illegal; then OP is unassigned or a reserved bit of the operation that
OP names is set. -/
theorem legalHeader_or_illegal (w : Word) :
    (∃ o, LegalHeader o w) ∨
      isIllegal w = true ∧
        ∀ pay, decode (w :: pay) = .error (.unassigned w) ∨ decode (w :: pay) = .error (.reservedBit w) := by
  rcases Laws.opOf_spec (fieldOp w) with ⟨o, hsome, hcode⟩ | ⟨hnone, -⟩
  · cases hclear : reservedClear o (fieldA w) (fieldB w) (fieldC w) with
    | true => exact .inl ⟨o, hcode, hclear⟩
    | false => exact .inr ⟨by simp [isIllegal, hsome, hclear], fun _ => .inr (by simp [decode, hsome, hclear])⟩
  · exact .inr ⟨by simp [isIllegal, hnone], fun _ => .inl (by simp [decode, hnone])⟩

theorem isIllegal_iff_no_legalHeader (w : Word) : isIllegal w = true ↔ ∀ o, ¬ LegalHeader o w := by
  constructor
  · intro hill o ho
    simp [ho.isIllegal_eq] at hill
  · intro hno
    rcases legalHeader_or_illegal w with ⟨o, ho⟩ | ⟨hill, -⟩
    · exact absurd ho (hno o)
    · exact hill

/-- What the decoder answers on a legal header is a command or a wait for payload, never a refusal of the header. -/
theorem LegalHeader.not_rejected {o : Op} {w : Word} (h : LegalHeader o w) (pay : List Word) :
    ¬ (decode (w :: pay) = .error (.unassigned w) ∨ decode (w :: pay) = .error (.reservedBit w)) := by
  rw [h.decode_eq]
  split <;> simp

/-- The decoder rejects exactly the illegal header words, whatever follows them (R83). -/
theorem isIllegal_iff_rejected (w : Word) (pay : List Word) :
    isIllegal w = true ↔
      decode (w :: pay) = .error (.unassigned w) ∨ decode (w :: pay) = .error (.reservedBit w) := by
  rcases legalHeader_or_illegal w with ⟨o, ho⟩ | ⟨hill, hrejected⟩
  · simp only [ho.isIllegal_eq, ho.not_rejected pay, Bool.false_eq_true]
  · exact iff_of_true hill (hrejected pay)

/-! ## The rows of the opcode table -/

/-- The bits of a header word that are fixed for the operation: OP and the reserved operand bits (R87 to R93). -/
def rowMask : Op → Word
  | .rdreg | .pinAssert | .pinRelease | .pinSample => 0xFF00FFFF
  | .kbSend => 0xFF00FEFF
  | .msReport => 0xFFF80000
  | .bqEnqueue => 0xFF0000FF
  | .nop | .kbInit | .kbAssertReset | .kbReleaseReset | .kbService | .kbIsCaps | .kbReport | .bqInit => 0xFFFFFFFF

/-- The table's rows are the operations' masks, each with the word that has OP set and the operands 0. -/
theorem opcodeRows_eq : opcodeRows = Op.all.map fun o => (rowMask o, headerWord o.code 0 0 0) := by decide

theorem op_mem_all (o : Op) : o ∈ Op.all := by cases o <;> decide

theorem fieldOp_rowMask (o : Op) : fieldOp (rowMask o) = BitVec.allOnes 8 := by cases o <;> decide

/-- The reserved operand bits of an operation are the operand bits of its mask. -/
theorem reservedClear_iff (o : Op) (a b c : Byte) :
    reservedClear o a b c = true ↔
      a &&& fieldA (rowMask o) = 0 ∧ b &&& fieldB (rowMask o) = 0 ∧ c &&& fieldC (rowMask o) = 0 := by
  have all_bits : ∀ x : Byte, x &&& 255#8 = x := fun _ => BitVec.and_allOnes
  cases o <;> simp [reservedClear, rowMask, fieldA, fieldB, fieldC, all_bits, and_assoc]

/-- A word matches an operation's row exactly when it is a header word of that operation. -/
theorem row_matches_iff (o : Op) (w : Word) : w &&& rowMask o = headerWord o.code 0 0 0 ↔ LegalHeader o w := by
  obtain ⟨hop, ha, hb, hc⟩ := Laws.headerWord_fields o.code 0 0 0
  rw [Laws.and_match, hop, ha, hb, hc, fieldOp_rowMask, BitVec.and_allOnes, ← reservedClear_iff]
  exact ⟨fun ⟨hcode, hclear⟩ => ⟨hcode, hclear⟩, fun h => ⟨h.op, h.clear⟩⟩

/-- No row of the table matches `w` exactly when `w` is no operation's header word. -/
theorem no_row_matches_iff (w : Word) :
    (∀ row ∈ opcodeRows, w &&& row.1 ≠ row.2) ↔ ∀ o, ¬ LegalHeader o w := by
  simp only [opcodeRows_eq, List.forall_mem_map, op_mem_all, true_imp_iff, ne_eq, row_matches_iff]

/-- Settles O2: both the table's rows and the decoder's checks say whether the word is an operation's header word. -/
theorem headerIsIllegalIffNoRowMatches : Obligations.HeaderIsIllegalIffNoRowMatches := by
  unfold Obligations.HeaderIsIllegalIffNoRowMatches
  exact ⟨fun w => (isIllegal_iff_no_legalHeader w).trans (no_row_matches_iff w).symm, isIllegal_iff_rejected⟩

/-! ## Commands cut short -/

/-- A command has as many words as R84 says. -/
theorem encode_length (i : Instr) : (encode i).length = i.words := by
  cases i with
  | bqEnqueue r bytes => exact Laws.EncodeLength.bqEnqueue r bytes
  | _ => rfl

/-- A header word is legal when it is built from the operation's code and operands with no reserved bit. -/
theorem legalHeader_headerWord {o : Op} {a b c : Byte} (hclear : reservedClear o a b c = true) :
    LegalHeader o (headerWord o.code a b c) := by
  obtain ⟨hop, ha, hb, hc⟩ := Laws.headerWord_fields o.code a b c
  exact ⟨hop, by rw [ha, hb, hc]; exact hclear⟩

/-- The released flag is bit 0 alone (R90). -/
theorem releasedByte_and_reserved (released : Bool) : releasedByte released &&& 254#8 = 0#8 := by
  cases released <;> decide

/-- Three buttons leave the five upper bits of A clear (R91). -/
theorem buttons_and_reserved (buttons : BitVec 3) : buttons.setWidth 8 &&& 248#8 = 0#8 := by
  revert buttons; decide

/-- The encoder sets no reserved bit. -/
theorem legalHeader_header (i : Instr) : LegalHeader i.op i.header := by
  cases i with
  | kbSend code released => exact legalHeader_headerWord (by simp [Instr.op, reservedClear, releasedByte_and_reserved])
  | msReport buttons dx dy => exact legalHeader_headerWord (by simp [Instr.op, reservedClear, buttons_and_reserved])
  | _ => exact legalHeader_headerWord rfl

/-- The header announces the payload that the encoder appends; A holds the number of write bytes (R84, R93). -/
theorem payloadWords_header {i : Instr} (hwf : i.wellFormed = true) :
    payloadWords i.op (fieldA i.header) = i.payload.length := by
  cases i with
  | bqEnqueue r bytes =>
    have fits : bytes.length < 2 ^ 8 := by simp only [Instr.wellFormed, decide_eq_true_eq] at hwf; omega
    obtain ⟨-, ha, -, -⟩ := Laws.headerWord_fields 0x41 (BitVec.ofNat 8 bytes.length) r 0
    have count : (fieldA (Instr.bqEnqueue r bytes).header).toNat = bytes.length := by
      rw [Instr.header, ha, BitVec.toNat_ofNat, Nat.mod_eq_of_lt fits]
    simp only [Instr.op, payloadWords, Instr.payload, Laws.packBytes_length, count]
  | _ => rfl

/-- Settles O3: no word is there, or the header is there and legal, and fewer words follow than it announces. -/
theorem cutCommandIsAwaited : Obligations.CutCommandIsAwaited := by
  unfold Obligations.CutCommandIsAwaited
  intro i k hwf hk
  cases k with
  | zero => exact .inl rfl
  | succ k =>
    have cut : (i.payload.take k).length < payloadWords i.op (fieldA i.header) := by
      rw [← encode_length, encode, List.length_cons] at hk
      rw [payloadWords_header hwf, List.length_take]
      omega
    refine .inr ⟨payloadWords i.op (fieldA i.header), (i.payload.take k).length, ?_⟩
    rw [encode, List.take_succ_cons, (legalHeader_header i).decode_eq, if_pos cut]

end Sys2Proof.Proofs
end

section
/-! The mouse report in a quiet state (41_quadrature.md R131 to R133). -/

namespace Sys2Proof.Proofs

open Sys2Proof.Machine Sys2Proof.Claims

/-- The drive of line MB(i+1) under the button mask `b` (R131). -/
def buttonDrive (b : BitVec 3) (i : Nat) : Drive := if b.getLsbD i then .asserted else .released

/-- The three button lines driven as the mask says, MB1 first (R131). -/
def buttonsDriven (b : BitVec 3) (s : State) : State :=
  traced .pri [.pin .mb1 (buttonDrive b 0), .pin .mb2 (buttonDrive b 1), .pin .mb3 (buttonDrive b 2)]
    (driven .mb3 (buttonDrive b 2) (driven .mb2 (buttonDrive b 1) (driven .mb1 (buttonDrive b 0) s)))

/-- The Motion Vector overwritten, unless there is no motion (R132, R133). -/
def motionStored (dx dy : Byte) (s : State) : State :=
  if dx = 0 ∧ dy = 0 then s else { s with mv := ⟨dx, dy, true⟩ }

theorem settled_buttonsDriven {s : State} (h : s.Settled) (b : BitVec 3) : (buttonsDriven b s).Settled :=
  Laws.settled_congr' h

theorem settled_motionStored {s : State} (h : s.Settled) (dx dy : Byte) : (motionStored dx dy s).Settled := by
  unfold motionStored
  split
  · exact h
  · exact Laws.settled_congr' h

/-- ApplyButtons in a quiet state: its three drives one after the other, their events in the same order (R131). -/
theorem run_applyButtons {s : State} (h : s.Settled) (b : BitVec 3) :
    Actor.pri.run (applyButtons b) s = buttonsDriven b s := by
  have actions_quiet : ∀ a ∈ applyButtons b, ∀ t : State, t.Settled → (a t).Settled := by
    intro a ha t ht
    simp only [applyButtons, List.mem_cons, List.not_mem_nil, or_false] at ha
    rcases ha with rfl | rfl | rfl <;> exact Laws.settled_congr' ht
  rw [(run_of_settled actions_quiet h).1]
  simp [applyButtons, driveButton, drivePin, emit, Pins.setDrive, buttonsDriven, buttonDrive, traced, driven]

/-- MvWrite in a quiet state: no turn of ENC comes between its three writes (R133). -/
theorem run_mvWrite {s : State} (h : s.Settled) (dx dy : Byte) :
    Actor.pri.run (mvWrite dx dy) s = { s with mv := ⟨dx, dy, true⟩ } := by
  have actions_quiet : ∀ a ∈ mvWrite dx dy, ∀ t : State, t.Settled → (a t).Settled := by
    intro a ha t ht
    simp only [mvWrite, List.mem_cons, List.not_mem_nil, or_false] at ha
    rcases ha with rfl | rfl | rfl <;> exact Laws.settled_congr' ht
  exact (run_of_settled actions_quiet h).1

/-- The report's test for motion (R132). -/
theorem has_motion_iff (dx dy : Byte) : (dx != 0 || dy != 0) = true ↔ ¬ (dx = 0 ∧ dy = 0) := by
  simp only [Bool.or_eq_true, bne_iff_ne, ne_eq, not_and_or]

/-- The motion part of a report in a quiet state (R132, R133). -/
theorem run_motion {s : State} (h : s.Settled) (dx dy : Byte) :
    Actor.pri.run (if dx != 0 || dy != 0 then mvWrite dx dy else []) s = motionStored dx dy s := by
  unfold motionStored
  by_cases still : dx = 0 ∧ dy = 0
  · rw [if_pos still, if_neg (mt (has_motion_iff dx dy).1 (not_not_intro still)), Actor.run_nil]
  · rw [if_neg still, if_pos ((has_motion_iff dx dy).2 still), run_mvWrite h]

/-- Settles O31: the report is ApplyButtons and then the motion, and a quiet state stays quiet between them. -/
theorem msReportAppliesButtonsAndMotion : Obligations.MsReportAppliesButtonsAndMotion := by
  unfold Obligations.MsReportAppliesButtonsAndMotion
  intro s b dx dy h
  have buttons_quiet := settled_buttonsDriven h b
  have ends : endCommand 1 (motionStored dx dy (buttonsDriven b s)) =
      consumed 1 (motionStored dx dy (buttonsDriven b s)) :=
    endCommand_of_settled (settled_motionStored buttons_quiet dx dy) 1
  simp only [exec, execMsReport]
  rw [Actor.run_append, run_applyButtons h, run_motion buttons_quiet, ends]
  rfl

end Sys2Proof.Proofs
end

section
/-! One step of the encoder, state by state, in the words of the claims (41_quadrature.md R135 to R141). -/

namespace Sys2Proof.Proofs

open Sys2Proof.Machine Sys2Proof.Claims

/-! ## The handoff (R135 to R137) and the check (R141) -/

theorem encStep_clr {s : State} (h : s.enc.state = .clr) :
    encStep s = { s with mv := { s.mv with flag := false }, enc := { s.enc with state := .takex } } := by
  simp only [encStep, h, setEncState]

theorem encStep_takex {s : State} (h : s.enc.state = .takex) :
    encStep s = { s with mv := { s.mv with dx := 0 }, enc := { s.enc with state := .takey, remx := s.mv.dx } } := by
  simp only [encStep, h, setEncState]

theorem encStep_takey {s : State} (h : s.enc.state = .takey) :
    encStep s = { s with mv := { s.mv with dy := 0 }, enc := { s.enc with state := .run, remy := s.mv.dy } } := by
  simp only [encStep, h, setEncState]

theorem encStep_check {s : State} (h : s.enc.state = .check) :
    encStep s = { s with enc := { s.enc with state := if s.mv.flag then .clr else .run } } := by
  simp only [encStep, h, setEncState]
  split <;> rfl

/-- Settles O32: the four states outside an iteration, one equation each. -/
theorem encoderHandoffSteps : Obligations.EncoderHandoffSteps := by
  unfold Obligations.EncoderHandoffSteps
  exact fun _ => ⟨encStep_clr, encStep_takex, encStep_takey, encStep_check⟩

/-! ## The iteration (R138 to R140) -/

/-- With nothing left of either axis the encoder goes to the handoff (R138). -/
theorem encStep_run_done {s : State} (h : s.enc.state = .run) (hx : s.enc.remx = 0) (hy : s.enc.remy = 0) :
    encStep s = { s with enc := { s.enc with state := .clr } } := by
  simp only [encStep, h, hx, hy, and_self, if_true, setEncState]

/-- With something left of an axis the encoder iterates and goes to the check (R138). -/
theorem encStep_run_iterates {s : State} (h : s.enc.state = .run) (hne : s.enc.remx ≠ 0 ∨ s.enc.remy ≠ 0) :
    encStep s = setEncState .check (encIteration s) := by
  have unfinished : ¬ (s.enc.remx = 0 ∧ s.enc.remy = 0) := not_and_or.2 hne
  simp only [encStep, h, if_neg unfinished]

/-- The remainder `c` moves its phase in this iteration (R139). -/
abbrev AxisMoves (divisor : Nat) (c : Byte) : Prop := c ≠ 0 ∧ (divisor : Int) ∣ c.toInt

/-- The phase one step on in the sign of a nonzero `c` (R139). -/
def phaseStepped (p : BitVec 2) (c : Byte) : BitVec 2 := if c.toInt < 0 then p - 1 else p + 1

/-- The phase of an axis after AxisAdvance (R139). -/
theorem phase_of_advance (divisor : Nat) (p : BitVec 2) (c : Byte) :
    (if advances divisor c then nextPhase p c else p) = if AxisMoves divisor c then phaseStepped p c else p := by
  simp only [Laws.advances_eq]
  split
  next moves => exact Laws.nextPhase_eq p c moves.1
  next => rfl

/-- The lines of an axis after AxisAdvance: driven only where the phase moves, to the row of the new phase (R134,
R139). -/
theorem lines_of_advance (ax : Axis) (divisor : Nat) (p : BitVec 2) (c : Byte) (s : State) :
    (if advances divisor c then driveAxis ax (if AxisMoves divisor c then phaseStepped p c else p) s else s) =
      if AxisMoves divisor c then axisDriven ax (phaseLines (phaseStepped p c)).1 (phaseLines (phaseStepped p c)).2 s
      else s := by
  simp only [Laws.advances_eq]
  split
  next => exact Laws.driveAxis_eq ax _ s
  next => rfl

/-- Settles O33: `Laws.encIteration_eq` gives the iteration axis by axis; the phases, the lines and the remainders are
then rewritten into the words of the claim. -/
theorem encoderIteration : Obligations.EncoderIteration := by
  unfold Obligations.EncoderIteration
  intro s hrun
  refine ⟨encStep_run_done hrun, fun hne => ?_⟩
  rw [encStep_run_iterates hrun hne, Laws.encIteration_eq]
  simp only [phase_of_advance, lines_of_advance, Laws.toward_eq]
  rfl

end Sys2Proof.Proofs
end

section
/-! The keyboard commands in a quiet state (42_keyboard.md R163, R178, R180 to R185). -/

namespace Sys2Proof.Proofs

open Sys2Proof.Machine Sys2Proof.Claims

/-! ## KB_SEND -/

/-- KB_SEND in a quiet state is KbSendCore and the advance past its one word (R172). -/
theorem exec_kbSend_of_settled {s : State} (h : s.Settled) (code : Byte) (rel : Bool) :
    exec (.kbSend code rel) s = .next (consumed 1 (Laws.quietSend code rel s)) := by
  obtain ⟨core_eq, core_quiet⟩ := Laws.kbSendCore_eq h code rel
  simp only [exec, execKbSend, core_eq, endCommand_of_settled core_quiet]
  rfl

/-! ## The caps-lock key (R163) -/

/-- Caps-lock is neither the sentinel nor a key of the trio, because the named scancodes are distinct (00_scope.md
R8). -/
theorem capslock_distinct {cfg : Params} (hlegal : paramsLegal cfg = true) :
    cfg.scCapslock ≠ cfg.scUnknown ∧ isTrioCode cfg cfg.scCapslock = false := by
  have distinct := Laws.legal_nodup hlegal
  simp only [namedScancodes, List.nodup_cons, List.mem_cons, not_or] at distinct
  obtain ⟨⟨unknown_ne_caps, -⟩, ⟨caps_ne_ctrl, caps_ne_lsp, caps_ne_rsp, -⟩, -⟩ := distinct
  exact ⟨Ne.symm unknown_ne_caps, by simp [isTrioCode, caps_ne_ctrl, caps_ne_lsp, caps_ne_rsp]⟩

theorem quietSend_capslock_press {s : State} (hlegal : paramsLegal s.cfg = true) :
    Laws.quietSend s.cfg.scCapslock false s =
      framed (wire s.cfg.scCapslock s.kb.caps) { s with kb := { s.kb with caps := !s.kb.caps } } := by
  obtain ⟨not_sentinel, not_trio⟩ := capslock_distinct hlegal
  simp only [Laws.quietSend, Laws.keyAfter, not_sentinel, not_trio, Bool.false_eq_true, if_true, if_false]

theorem quietSend_capslock_release {s : State} (hlegal : paramsLegal s.cfg = true) :
    Laws.quietSend s.cfg.scCapslock true s = s := by
  obtain ⟨not_sentinel, -⟩ := capslock_distinct hlegal
  simp only [Laws.quietSend, not_sentinel, if_true, if_false]

/-- Settles O22: KbSendCore's branch for caps-lock, in each direction. -/
theorem capsLockToggles : Obligations.CapsLockToggles := by
  unfold Obligations.CapsLockToggles
  intro s h hlegal
  rw [exec_kbSend_of_settled h, exec_kbSend_of_settled h, quietSend_capslock_press hlegal,
    quietSend_capslock_release hlegal]
  exact ⟨rfl, rfl⟩

/-! ## KB_IS_CAPS (R178) -/

theorem legalHeader_kbIsCaps : LegalHeader .kbIsCaps 0x25000000 := ⟨by decide, by decide⟩

/-- Settles O26: the word is a legal header without payload, and the one atomic step of the command is its response. -/
theorem kbIsCapsAnswersTheToggle : Obligations.KbIsCapsAnswersTheToggle := by
  unfold Obligations.KbIsCapsAnswersTheToggle
  refine ⟨fun pay => by rw [legalHeader_kbIsCaps.decode_eq]; rfl, fun s h => ?_⟩
  have answered : (respond (boolWord s.kb.caps) s).Settled := Laws.settled_congr' h
  simp only [exec, execKbIsCaps, act_of_settled h, endCommand_of_settled answered]
  rfl

/-! ## The key events of a report, as KB_SEND commands (R181 to R183) -/

/-- The KB_SEND command of a key event. -/
def sendCommand (e : KeyEvent) : Instr := .kbSend e.1 e.2

/-- USB2SC is the table's first entry for the usage, else the sentinel (00_scope.md R7). -/
theorem usb2sc_eq_translated (cfg : Params) (usage : Byte) : usb2sc cfg usage = translated cfg usage := by
  unfold usb2sc translated
  induction cfg.usb2scTable with
  | nil => rfl
  | cons entry rest ih =>
    by_cases hit : entry.1 = usage
    · simp [List.lookup, hit]
    · have miss : (usage == entry.1) = false := beq_false_of_ne (Ne.symm hit)
      simpa [List.lookup, hit, miss] using ih

/-- One key of the list that `freshKeys` goes through (R182, R183). -/
theorem freshKeys_cons (other seen : List Byte) (k : Byte) (rest : List Byte) :
    freshKeys other seen (k :: rest) =
      if k ≠ 0 ∧ k ∉ other ∧ k ∉ seen then k :: freshKeys other (k :: seen) rest
      else freshKeys other (k :: seen) rest := by
  simp only [freshKeys, Bool.and_eq_true, Bool.not_eq_true', bne_iff_ne, List.contains_eq_mem, decide_eq_false_iff_not,
    and_assoc]

/-- `freshKeys` by position: what it has passed is `seen` and the part of the list before the position. -/
theorem freshKeys_eq_filterMap (other seen own : List Byte) :
    freshKeys other seen own = (List.range own.length).filterMap (fun j =>
      if own.getD j 0 ≠ 0 ∧ own.getD j 0 ∉ other ∧ own.getD j 0 ∉ seen ∧ own.getD j 0 ∉ own.take j then
        some (own.getD j 0) else none) := by
  induction own generalizing seen with
  | nil => rfl
  | cons k rest ih =>
    have passed (x : Byte) (j : Nat) : (x ∉ k :: seen ∧ x ∉ rest.take j) ↔ (x ∉ seen ∧ x ∉ k :: rest.take j) := by
      simp only [List.mem_cons, not_or]; tauto
    simp only [freshKeys_cons, ih, passed, List.length_cons, List.range_succ_eq_map, List.filterMap_cons,
      List.filterMap_map, Function.comp_def, List.getD_cons_zero, List.getD_cons_succ, List.take_zero,
      List.take_succ_cons, List.not_mem_nil, not_false_eq_true, and_true]
    by_cases fresh : k ≠ 0 ∧ k ∉ other ∧ k ∉ seen
    · simp only [if_pos fresh]
    · simp only [if_neg fresh]

theorem newKeys_eq_freshKeys (own other : List Byte) : newKeys own other = freshKeys other [] own := by
  simp only [newKeys, freshKeys_eq_filterMap, List.not_mem_nil, not_false_eq_true, true_and]

/-- The modifier bits that changed, bit 0 first (R181). -/
theorem modifierEvents_map_sendCommand (cfg : Params) (prev mod : Byte) :
    (modifierEvents cfg prev mod).map sendCommand = [0, 1, 2, 3, 4, 5, 6, 7].filterMap (fun i =>
      if mod.getLsbD i = prev.getLsbD i then none
      else some (Instr.kbSend (cfg.modSc.toList.getD i 0) (!mod.getLsbD i))) := by
  have bits : ([0, 1, 2, 3, 4, 5, 6, 7] : List Nat) = (List.finRange 8).map Fin.val := rfl
  rw [bits, List.filterMap_map, modifierEvents, List.map_filterMap]
  congr 1
  funext i
  have code : cfg.modSc.toList.getD i.val 0 = modScancode cfg i := by simp [modScancode]
  simp only [Function.comp_apply, code]
  by_cases same : mod.getLsbD i.val = prev.getLsbD i.val
  · simp only [same, bne_self_eq_false, Bool.false_eq_true, if_false, if_true, Option.map_none]
  · simp only [bne_iff_ne.2 same, if_true, if_neg same, Option.map_some, sendCommand]

/-- The commands of the claim are the KB_SEND commands of the key events. -/
theorem reportSends_eq (cfg : Params) (fe : Fe) (mod : Byte) (keys : Keys) :
    reportSends cfg fe mod keys = (reportEvents cfg fe mod keys).map sendCommand := by
  simp only [reportSends, reportEvents, releaseEvents, pressEvents, List.map_append, List.map_map,
    modifierEvents_map_sendCommand, newKeys_eq_freshKeys, usb2sc_eq_translated]
  rfl

/-! ## KbSendCore and the command interface -/

/-- The state with this command interface. -/
def withCmd (c : Cmd) (s : State) : State := { s with cmd := c }

theorem consumed_eq_withCmd (n : Nat) (s : State) : ∃ c, consumed n s = withCmd c s := ⟨_, rfl⟩

theorem settled_withCmd {s : State} (h : s.Settled) (c : Cmd) : (withCmd c s).Settled := Laws.settled_congr' h

theorem chordAfter_withCmd (c : Cmd) (s : State) : chordAfter (withCmd c s) = withCmd c (chordAfter s) := by
  simp only [chordAfter, apply_ite (withCmd c)]
  rfl

theorem keyAfter_withCmd (code : Byte) (rel : Bool) (c : Cmd) (s : State) :
    Laws.keyAfter code rel (withCmd c s) = withCmd c (Laws.keyAfter code rel s) := by
  unfold Laws.keyAfter
  cases trio : isTrioCode s.cfg code with
  | true =>
    simp only [withCmd, trio, if_true]
    exact congrArg (framed _) (chordAfter_withCmd c { s with kb := trioAfter s.cfg code rel s.kb })
  | false => simp only [withCmd, trio, Bool.false_eq_true, if_false]; rfl

/-- KbSendCore neither reads nor writes the command interface (R171). -/
theorem quietSend_withCmd (code : Byte) (rel : Bool) (c : Cmd) (s : State) :
    Laws.quietSend code rel (withCmd c s) = withCmd c (Laws.quietSend code rel s) := by
  simp only [Laws.quietSend, apply_ite (withCmd c), ← keyAfter_withCmd]
  rfl

/-! ## The key events one after the other (R180) -/

/-- The state after the key events of a report, in a quiet state. -/
def quietSends (evs : List KeyEvent) (s : State) : State := evs.foldl (fun t e => Laws.quietSend e.1 e.2 t) s

theorem quietSends_cons (e : KeyEvent) (evs : List KeyEvent) (s : State) :
    quietSends (e :: evs) s = quietSends evs (Laws.quietSend e.1 e.2 s) := rfl

theorem quietSends_withCmd (evs : List KeyEvent) (c : Cmd) (s : State) :
    quietSends evs (withCmd c s) = withCmd c (quietSends evs s) := by
  induction evs generalizing s with
  | nil => rfl
  | cons e evs ih => rw [quietSends_cons, quietSend_withCmd, ih, quietSends_cons]

theorem quietSends_cmd (evs : List KeyEvent) (s : State) : (quietSends evs s).cmd = s.cmd := by
  calc (quietSends evs s).cmd = (quietSends evs (withCmd s.cmd s)).cmd := rfl
    _ = s.cmd := by rw [quietSends_withCmd]; rfl

theorem sendEvents_of_settled (evs : List KeyEvent) {s : State} (h : s.Settled) :
    sendEvents evs s = quietSends evs s ∧ (quietSends evs s).Settled := by
  induction evs generalizing s with
  | nil => exact ⟨rfl, h⟩
  | cons e evs ih =>
    obtain ⟨core_eq, core_quiet⟩ := Laws.kbSendCore_eq h e.1 e.2
    rw [sendEvents, core_eq, quietSends_cons]
    exact ih core_quiet

/-- The KB_SEND commands of key events reach what the key events reach, but for the command pointer. -/
theorem runs_sendCommands (evs : List KeyEvent) {s : State} (h : s.Settled) :
    ∃ c, Runs (evs.map sendCommand) s (withCmd c (quietSends evs s)) := by
  induction evs generalizing s with
  | nil => exact ⟨s.cmd, .done s⟩
  | cons e evs ih =>
    obtain ⟨-, core_quiet⟩ := Laws.kbSendCore_eq h e.1 e.2
    obtain ⟨c, sent⟩ := consumed_eq_withCmd 1 (Laws.quietSend e.1 e.2 s)
    obtain ⟨d, rest⟩ := ih (settled_withCmd core_quiet c)
    rw [quietSends_withCmd] at rest
    exact ⟨d, .next ((exec_kbSend_of_settled h e.1 e.2).trans (congrArg _ sent)) rest⟩

/-! ## KB_REPORT (R184, R185) -/

/-- SnapshotUpdate in a quiet state (R184). -/
theorem updateSnapshot_of_settled {s : State} (h : s.Settled) (mod : Byte) (keys : Keys) :
    updateSnapshot mod keys s = { s with fe := ⟨mod, keys⟩ } := by
  have stored : (setPrevMod mod s).Settled := Laws.settled_congr' h
  rw [updateSnapshot, Actor.run_cons, act_of_settled h, Actor.run_cons, act_of_settled stored]
  rfl

/-- KB_REPORT in a quiet state: its key events, the snapshot, its three words (R185). -/
theorem exec_kbReport_of_settled {s : State} (h : s.Settled) (mod res : Byte) (keys : Keys) :
    exec (.kbReport mod res keys) s =
      .next (consumed 3 { quietSends (reportEvents s.cfg s.fe mod keys) s with fe := ⟨mod, keys⟩ }) := by
  obtain ⟨sends_eq, sends_quiet⟩ := sendEvents_of_settled (reportEvents s.cfg s.fe mod keys) h
  simp only [exec, execKbReport, sends_eq, updateSnapshot_of_settled sends_quiet]
  rw [endCommand_of_settled (Laws.settled_congr' sends_quiet)]
  rfl

/-- Settles O27: the commands of the differences are the report's key events, and they end in the report's state but
for the command pointer, which the statement sets. -/
theorem kbReportSendsTheDifferences : Obligations.KbReportSendsTheDifferences := by
  unfold Obligations.KbReportSendsTheDifferences
  intro s mod res keys h
  obtain ⟨c, sends⟩ := runs_sendCommands (reportEvents s.cfg s.fe mod keys) h
  refine ⟨_, by rw [reportSends_eq]; exact sends, ?_⟩
  rw [exec_kbReport_of_settled h, consumed, quietSends_cmd]
  rfl

end Sys2Proof.Proofs
end

section
/-! The refusals of the bus commands in a quiet state (43_bus_queue.md R203, R205, R208, R224). -/

namespace Sys2Proof.Proofs

open Sys2Proof.Machine Sys2Proof.Claims

/-! ## BQ_INIT (R224) -/

theorem exec_bqInit_of_queued {s : State} (h : s.Settled) (queued : s.bq.depth ≠ 0) :
    exec .bqInit s = .next (endCommand 1 (badCmd 0x40 s)) := by
  have depth_pos : 0 < s.bq.depth.toNat :=
    Nat.pos_of_ne_zero fun zero => queued (BitVec.eq_of_toNat_eq zero)
  simp only [exec, execBqInit, pri_pre_of_settled h, if_pos depth_pos]

/-! ## BQ_ENQUEUE: its tests, in the order of R207 -/

theorem exec_bqEnqueue_of_not_ready {s : State} (h : s.Settled) (r : Byte) (bytes : List Byte)
    (not_ready : s.bq.ready = false) :
    exec (.bqEnqueue r bytes) s = .next (endCommand (enqueueLength bytes.length) (badCmd 0x41 s)) := by
  simp only [exec, execBqEnqueue, pri_pre_of_settled h, not_ready, Bool.not_false, if_true]
  rfl

theorem exec_bqEnqueue_of_empty {s : State} (h : s.Settled) {r : Byte} {bytes : List Byte}
    (ready : s.bq.ready = true) (empty : bytes.length + r.toNat = 0) :
    exec (.bqEnqueue r bytes) s = .next (endCommand (enqueueLength bytes.length) (badCmd 0x41 s)) := by
  simp only [exec, execBqEnqueue, pri_pre_of_settled h, ready, empty, Bool.not_true, Bool.false_eq_true, if_false,
    if_true]
  rfl

theorem exec_bqEnqueue_of_oversize {s : State} (h : s.Settled) {r : Byte} {bytes : List Byte}
    (ready : s.bq.ready = true) (nonempty : bytes.length + r.toNat ≠ 0)
    (rejects : s.cfg.capacityPolicy = .rejectAtEnqueue) (oversize : s.cfg.maxXfer < bytes.length + r.toNat) :
    exec (.bqEnqueue r bytes) s = .next (endCommand (enqueueLength bytes.length)
      (rejectCapacity (bytes.length + r.toNat) s)) := by
  simp only [exec, execBqEnqueue, pri_pre_of_settled h, ready, Bool.not_true, Bool.false_eq_true, if_false,
    if_neg nonempty, if_pos (And.intro rejects oversize)]
  rfl

/-- RejectCapacity as a command of `words` words, in a quiet state (R208). -/
theorem endCommand_rejectCapacity_of_settled {s : State} (h : s.Settled) (words n : Nat) :
    endCommand words (rejectCapacity n s) = consumed words (traced .pri [.log (.capacity n)] (faulted 0 s)) := by
  obtain ⟨raised_eq, raised_quiet⟩ := Laws.raiseLog_settled h .capacity (by decide) (.capacity n)
  rw [rejectCapacity, raised_eq, endCommand_of_settled raised_quiet]
  rfl

/-- Settles O39: the test that fails selects the refusal, and a refusal in a quiet state is its fault, its LOG and the
advance past the command. -/
theorem busCommandsAreRefused : Obligations.BusCommandsAreRefused := by
  unfold Obligations.BusCommandsAreRefused
  intro s r bytes h
  refine ⟨fun queued => ?bqInit, fun refused => ?badEnqueue, fun ready nonempty rejects oversize => ?oversize⟩
  case bqInit => rw [exec_bqInit_of_queued h queued, Laws.exec_badCmd h]
  case badEnqueue =>
    rw [← Laws.exec_badCmd h]
    cases ready : s.bq.ready with
    | false => exact exec_bqEnqueue_of_not_ready h r bytes ready
    | true =>
      have empty := refused.resolve_left (by simp [ready])
      exact exec_bqEnqueue_of_empty h ready empty
  case oversize =>
    rw [exec_bqEnqueue_of_oversize h ready nonempty rejects oversize, endCommand_rejectCapacity_of_settled h]

end Sys2Proof.Proofs
end

section
/-! One turn of PRI's command loop: a command, an illegal word, a halted block (45_control.md R252 to R254). -/

namespace Sys2Proof.Proofs

open Sys2Proof.Machine Sys2Proof.Claims

/-! ## The command at the command pointer (R254) -/

/-- While the block runs, a step is decided by what the decoder answers. -/
theorem step_of_decoded {s : State} {i : Instr} (hlegal : paramsLegal s.cfg = true) (running : s.halted = false)
    (decoded : decode s.fetchWindow = .ok i) : step s = exec i s := by
  simp only [step, hlegal, running, decoded, Bool.not_true, Bool.false_eq_true, if_false]

/-- Settles O5: of the step's tests, the parameters and the halt are passed, and the decoder answers a command. -/
theorem stepRunsTheDecodedCommand : Obligations.StepRunsTheDecodedCommand := by
  unfold Obligations.StepRunsTheDecodedCommand
  exact fun _ _ => step_of_decoded

/-! ## An illegal word (R252) -/

/-- The decoder has two ways to reject a header word; the step is ILLEGAL for both. -/
theorem step_of_illegal {s : State} {w : Word} {rest : List Word} (hlegal : paramsLegal s.cfg = true)
    (running : s.halted = false) (fetched : s.fetchWindow = w :: rest) (illegal : isIllegal w = true) :
    step s = .next (execIllegal w s) := by
  rcases (isIllegal_iff_rejected w rest).1 illegal with rejected | rejected <;>
    simp only [step, hlegal, running, fetched, rejected, Bool.not_true, Bool.false_eq_true, if_false]

/-- ILLEGAL in a quiet state. -/
theorem execIllegal_of_settled {s : State} (h : s.Settled) (w : Word) :
    execIllegal w s = consumed 1 (traced .pri [.log (.badCmd w)] (faulted 6 s)) := Laws.exec_badCmd h 1 w

/-- Settles O6: a word that matches no row is illegal to the decoder (O2). -/
theorem stepSkipsAnIllegalWord : Obligations.StepSkipsAnIllegalWord := by
  unfold Obligations.StepSkipsAnIllegalWord
  intro s w rest hlegal h fetched no_row
  obtain ⟨illegal_iff, -⟩ := headerIsIllegalIffNoRowMatches
  rw [step_of_illegal hlegal h.halted fetched ((illegal_iff w).2 no_row), execIllegal_of_settled h]

/-! ## A halted block (R253) -/

/-- What PRI and ISR alone change is as it was in `s`: the part that is PRI's, the bus queue, the mask, the fault
register and the events of both. -/
structure MainKept (s t : State) : Prop extends PriKept s t where
  bq : t.bq = s.bq
  masked : t.masked = s.masked
  fault : t.fault = s.fault
  events : mainTrace t = mainTrace s

/-- The events of a step of ENC are neither PRI's nor ISR's. -/
theorem mainTrace_encStep (s : State) : mainTrace (encStep s) = mainTrace s := by
  obtain ⟨evs, appended⟩ := encStep_trace s
  simp [mainTrace, appended]

theorem MainKept.encStep {s t : State} (h : MainKept s t) : MainKept s (encStep t) where
  toPriKept := (priKept_turnStable s).enc t h.toPriKept
  bq := by rw [encStep_frame]; exact h.bq
  masked := by rw [encStep_frame]; exact h.masked
  fault := by rw [encStep_frame]; exact h.fault
  events := (mainTrace_encStep t).trans h.events

/-- ENV gives words, status bits, ends of transfers and levels (30_encoding.md R99), and the bus queue sees none of them
before a handler reads the status (43_bus_queue.md R213, R214); the reset event alone goes further. -/
theorem envStep_frame {e : EnvEvent} (he : e ≠ .reset) (s : State) :
    envStep e s = { s with bc := (envStep e s).bc, dma := (envStep e s).dma, cmd := (envStep e s).cmd,
                           owned := (envStep e s).owned, ext := (envStep e s).ext } := by
  cases e with
  | word | status | endTx | level => rfl
  | endRx bytes => simp only [envStep]; split <;> rfl
  | reset => exact absurd rfl he

theorem MainKept.envStep {s t : State} (h : MainKept s t) {e : EnvEvent} (scheduled : Turn.env e ∈ t.tape) :
    MainKept s (envStep e t) := by
  have no_reset : e ≠ .reset := fun hr => h.noReset (hr ▸ scheduled)
  have part := (priKept_turnStable s).env e t h.toPriKept scheduled
  rw [envStep_frame no_reset] at part ⊢
  exact ⟨part, h.bq, h.masked, h.fault, h.events⟩

theorem mainKept_turnStable (s : State) : TurnStable (MainKept s) where
  enc _ h := h.encStep
  env _ _ h scheduled := h.envStep scheduled
  tape t ts h hsuffix :=
    ⟨(priKept_turnStable s).tape t ts h.toPriKept hsuffix, h.bq, h.masked, h.fault, h.events⟩

/-- A next state of a halted block is the turns the schedule holds. -/
theorem step_of_halted {s t : State} (halted : s.halted = true) (stepped : step s = .next t) :
    t = { turns s with cut := false } := by
  have runs : haltedStep s = .next t := by
    cases legal : paramsLegal s.cfg with
    | false => simp [step, legal] at stepped
    | true => simpa [step, legal, halted] using stepped
  unfold haltedStep at runs
  split at runs
  case isTrue => cases runs
  case isFalse => cases runs; rfl

/-- Settles O8: the step is turns of ENC and ENV, none of which changes what PRI and ISR alone change. -/
theorem haltedBlockTakesNoStep : Obligations.HaltedBlockTakesNoStep := by
  unfold Obligations.HaltedBlockTakesNoStep
  intro s t halted hn stepped
  obtain rfl := step_of_halted halted stepped
  have kept : MainKept s (turns s) := (mainKept_turnStable s).turns ⟨⟨hn, rfl⟩, rfl, rfl, rfl, rfl⟩
  obtain ⟨hcp, hresp, hkb, hfe, -, -⟩ := priPart_eq_iff.1 kept.part
  exact ⟨hcp, hresp, hkb, hfe, kept.bq, kept.masked, kept.fault, kept.events⟩

end Sys2Proof.Proofs
end

section
/-! The control commands and the pin ids that are refused, in a quiet state (40_pin_driver.md R113 to R115,
45_control.md R250, R251). -/

namespace Sys2Proof.Proofs

open Sys2Proof.Machine Sys2Proof.Claims

/-! ## NOP and KB_SERVICE (R250, 42_keyboard.md R175) -/

theorem legalHeader_nop : LegalHeader .nop 0x01000000 := ⟨by decide, by decide⟩

theorem legalHeader_kbService : LegalHeader .kbService 0x24000000 := ⟨by decide, by decide⟩

/-- The advance of the command loop in a quiet state (R254). -/
theorem endCommand_eq_consumed {s : State} (h : s.Settled) (n : Nat) : endCommand n s = consumed n s :=
  endCommand_of_settled h n

/-- Settles O13: both words are legal headers without payload, and both commands are the command loop's advance
alone. -/
theorem nopAndServiceOnlyAdvance : Obligations.NopAndServiceOnlyAdvance := by
  unfold Obligations.NopAndServiceOnlyAdvance
  refine ⟨fun pay => ⟨?nopWord, ?serviceWord⟩, fun s h => ⟨?nop, ?service⟩⟩
  case nopWord => rw [legalHeader_nop.decode_eq]; rfl
  case serviceWord => rw [legalHeader_kbService.decode_eq]; rfl
  case nop => rw [exec, execNop, endCommand_eq_consumed h]
  case service => rw [exec, execKbService, endCommand_eq_consumed h]

/-! ## RDREG (R251) -/

/-- Settles O14: the one atomic step of the command reads the register and responds, whatever the index. -/
theorem rdregResponds : Obligations.RdregResponds := by
  unfold Obligations.RdregResponds
  intro s i h
  have answered : (respond (regView s i) s).Settled := Laws.settled_congr' h
  rw [exec, execRdreg, act_of_settled h, endCommand_eq_consumed answered]
  rfl

/-! ## Refused pin ids (40_pin_driver.md R113 to R115) -/

theorem pinAll_nodup : Pin.all.Nodup := by decide

/-- An operand names the pin with that id (10_state.md R21). -/
theorem ofByte_eq_some_iff (a : Byte) (p : Pin) : Pin.ofByte a = some p ↔ p.id.val = a.toNat := by
  unfold Pin.ofByte
  constructor
  · intro named
    exact (List.getElem?_inj p.id.isLt pinAll_nodup).1 ((all_getElem_id p).trans named.symm)
  · intro id_eq
    rw [← id_eq, all_getElem_id]

theorem ofByte_eq_none {a : Byte} (ha : 12 ≤ a.toNat) : Pin.ofByte a = none := List.getElem?_eq_none ha

/-- The bus pins are the two with the highest ids. -/
theorem hostDrives_iff (p : Pin) : p.hostDrives = true ↔ p.id.val ≤ 9 := by cases p <;> decide

theorem hostPin_eq_none {a : Byte} (ha : 10 ≤ a.toNat) : hostPin a = none := by
  refine Option.filter_eq_none_iff.2 fun p named drivable => ?_
  have id_le := (hostDrives_iff p).1 drivable
  have id_eq := (ofByte_eq_some_iff a p).1 named
  omega

/-- The header word of a pin command (30_encoding.md R89). -/
theorem headerWord_eq_pinWord (op a : Byte) : headerWord op a 0 0 = pinWord op a := by
  rw [headerWord, pinWord, BitVec.append_assoc]
  rfl

/-- Settles O17: an id from 10 up is no pin the host drives, one from 12 up is no pin at all, and then each command is
ILLEGAL with its header word. -/
theorem pinCommandsRefuseOtherIds : Obligations.PinCommandsRefuseOtherIds := by
  unfold Obligations.PinCommandsRefuseOtherIds
  intro s id h
  simp only [← headerWord_eq_pinWord, ← Laws.exec_badCmd h]
  refine ⟨fun not_driven => ⟨?assert, ?release⟩, fun no_pin => ?sample⟩
  case assert => rw [exec, execPinAssert, hostPin_eq_none not_driven]; rfl
  case release => rw [exec, execPinRelease, hostPin_eq_none not_driven]; rfl
  case sample => rw [exec, execPinSample, ofByte_eq_none no_pin]; rfl

end Sys2Proof.Proofs
end

section
/-! An accepted BQ_ENQUEUE on an empty queue, and the halt of an over-size one, in a quiet state (43_bus_queue.md R206,
R211, R212). -/

namespace Sys2Proof.Proofs

open Sys2Proof.Machine Sys2Proof.Claims

/-! ## Acceptance (R203 to R205, R208) -/

theorem not_full_of_accepted {s : State} {w r : Nat} (accepted : Accepted s w r) : s.queueFull = false := by
  unfold State.queueFull
  split
  next => rfl
  next m bounded => exact decide_eq_false (not_le.2 (accepted.room m bounded))

theorem not_rejected_of_accepted {s : State} {w r : Nat} (accepted : Accepted s w r) :
    ¬ (s.cfg.capacityPolicy = .rejectAtEnqueue ∧ s.cfg.maxXfer < w + r) := by
  rintro ⟨rejects, oversize⟩
  rcases accepted.size with halts | fits
  · rw [halts] at rejects; cases rejects
  · exact absurd oversize (not_lt.2 fits)

/-- An accepted command passes every test of R207. -/
theorem exec_bqEnqueue_of_accepted {s : State} (h : s.Settled) {r : Byte} {bytes : List Byte}
    (accepted : Accepted s bytes.length r.toNat) :
    exec (.bqEnqueue r bytes) s = .next (endCommand (enqueueLength bytes.length) (acceptTxn r bytes s)) := by
  simp only [exec, execBqEnqueue, pri_pre_of_settled h, accepted.ready, Bool.not_true, Bool.false_eq_true, if_false,
    if_neg accepted.nonempty, if_neg (not_rejected_of_accepted accepted), not_full_of_accepted accepted]
  rfl

/-! ## Append on an empty queue (R206) -/

/-- The transaction alone in the queue, inside Append's critical section. -/
theorem appendTxn_of_empty {s : State} (h : s.Settled) (last : State → State) (t : Txn) (empty : s.bq.queue = []) :
    appendTxn .pri last t s =
      Actor.pri.act (setMasked s.masked) (dispatch .pri last t (pushTxn t (setMasked true s))) := by
  have masked_quiet := Laws.settled_masked h true
  simp only [appendTxn, irqSave, irqRestore, pri_pre_of_settled h, act_of_settled h, act_of_settled masked_quiet,
    setMasked_bq, empty, if_true]

/-! ## The halt (R212) -/

/-- No step of PRI follows its halt: the end of the command advances nothing. -/
theorem endCommand_of_halted {s : State} (halted : s.halted = true) (uncut : s.cut = false) (n : Nat) :
    endCommand n s = s := by
  rw [endCommand, Laws.halted_act .pri (.inl rfl) halted, Laws.cut_self uncut]

theorem halted_consumed_haltedBy (n : Nat) (ag : Agent) (t : Txn) (s : State) :
    (consumed n (haltedBy ag t s)).halted = true := Laws.haltedBy_halted ag t s

/-- An over-size transaction on an empty queue: the halt's last step is PRI's advance past the command, and Append's
critical section is never left. -/
theorem appendTxn_of_oversize {s : State} (h : s.Settled) (n : Nat) {t : Txn} (empty : s.bq.queue = [])
    (oversize : s.cfg.maxXfer < t.wdata.length + t.r.toNat) :
    appendTxn .pri (advance n) t s = consumed n (haltedBy .pri t (pushTxn t (setMasked true s))) := by
  have pushed_quiet : (pushTxn t (setMasked true s)).Settled := Laws.settled_congr' h
  have halts : dispatch .pri (advance n) t (pushTxn t (setMasked true s)) =
      consumed n (haltedBy .pri t (pushTxn t (setMasked true s))) :=
    Laws.halt_run (ag := .pri) rfl pushed_quiet t _ oversize
  rw [appendTxn_of_empty h _ t empty, halts, Laws.halted_act .pri (.inl rfl) (halted_consumed_haltedBy ..)]

/-- MakeTxn changes owned storage alone, so the halt is that of `s` with the new storage and the transaction queued. -/
theorem acceptTxn_of_oversize {s : State} (h : s.Settled) {r : Byte} {bytes : List Byte} (empty : s.bq.queue = [])
    (oversize : s.cfg.maxXfer < bytes.length + r.toNat) :
    acceptTxn r bytes s = consumed (enqueueLength bytes.length) (haltedBy .pri (makeTxn .pri bytes r s).1
      { s with bq := { s.bq with queue := [(makeTxn .pri bytes r s).1], depth := s.bq.depth + 1 }
               owned := (makeTxn .pri bytes r s).2.owned
               masked := true }) := by
  have made_owned := Laws.makeTxn_owned h bytes r
  have made_quiet : (makeTxn .pri bytes r s).2.Settled := by rw [made_owned]; exact Laws.settled_congr' h
  have made_empty : (makeTxn .pri bytes r s).2.bq.queue = [] := by rw [made_owned]; exact empty
  have made_oversize : (makeTxn .pri bytes r s).2.cfg.maxXfer < bytes.length + r.toNat := by
    rw [made_owned]; exact oversize
  rw [acceptTxn, appendTxn_of_oversize made_quiet _ made_empty made_oversize, pushTxn, setMasked_bq, made_empty,
    made_owned]
  rfl

/-- Settles O43: the command passes its tests and halts at the dispatch, and the end of a halted command changes
nothing. -/
theorem oversizeEnqueueHalts : Obligations.OversizeEnqueueHalts := by
  unfold Obligations.OversizeEnqueueHalts
  intro s r bytes h accepted empty oversize
  rw [exec_bqEnqueue_of_accepted h accepted, acceptTxn_of_oversize h empty oversize,
    endCommand_of_halted (halted_consumed_haltedBy ..)]
  exact h.cut

end Sys2Proof.Proofs
end

section
/-! The encoder and the decoder are inverse (30_encoding.md R81 to R93), and the wire byte of a scancode
(42_keyboard.md R161, R162). -/

namespace Sys2Proof.Proofs

open Sys2Proof.Machine Sys2Proof.Claims

/-! ## The fields of a header word are the operands (R87 to R93) -/

@[simp] theorem fieldA_headerWord (op a b c : Byte) : fieldA (headerWord op a b c) = a :=
  (Laws.headerWord_fields op a b c).2.1

@[simp] theorem fieldB_headerWord (op a b c : Byte) : fieldB (headerWord op a b c) = b :=
  (Laws.headerWord_fields op a b c).2.2.1

@[simp] theorem fieldC_headerWord (op a b c : Byte) : fieldC (headerWord op a b c) = c :=
  (Laws.headerWord_fields op a b c).2.2.2

/-- B[0] of KB_SEND is the direction (R90). -/
theorem releasedByte_getLsbD_zero (released : Bool) : (releasedByte released).getLsbD 0 = released := by
  cases released <;> decide

/-- A[2:0] of MS_REPORT are the buttons (R91). -/
theorem buttons_extractLsb' (buttons : BitVec 3) : (buttons.setWidth 8).extractLsb' 0 3 = buttons := by
  revert buttons; decide

/-- The decoder builds the command from the header and payload that the encoder made of it. -/
theorem buildInstr_header {i : Instr} (hwf : i.wellFormed = true) (rest : List Word) :
    buildInstr i.op (fieldA i.header) (fieldB i.header) (fieldC i.header) (i.payload ++ rest) = i := by
  cases i with
  | kbSend code released =>
    simp only [Instr.op, buildInstr, Instr.header, fieldA_headerWord, fieldB_headerWord, releasedByte_getLsbD_zero]
  | kbReport mod res keys =>
    have unpacked (k : Nat) (hk : k < 8) :=
      Laws.payloadByte_packBytes [mod, res, keys.k0, keys.k1, keys.k2, keys.k3, keys.k4, keys.k5] rest k hk
    simp [Instr.op, buildInstr, Instr.payload, unpacked]
  | msReport buttons dx dy => simp [Instr.op, buildInstr, Instr.header, buttons_extractLsb']
  | bqEnqueue r bytes =>
    have fits : bytes.length < 2 ^ 8 := by simp only [Instr.wellFormed, decide_eq_true_eq] at hwf; omega
    have count : (BitVec.ofNat 8 bytes.length).toNat = bytes.length := by
      rw [BitVec.toNat_ofNat, Nat.mod_eq_of_lt fits]
    simp [Instr.op, buildInstr, Instr.header, Instr.payload, count, Laws.payloadBytes_packBytes]
  | _ => simp [Instr.op, buildInstr, Instr.header]

/-- Settles O1: the header is legal, it announces as many words as the payload has, and the command is built from its
own fields. -/
theorem decodeInvertsEncode : Obligations.DecodeInvertsEncode := by
  unfold Obligations.DecodeInvertsEncode
  intro i rest hwf
  have enough : ¬ (i.payload ++ rest).length < payloadWords i.op (fieldA i.header) := by
    rw [payloadWords_header hwf, List.length_append]
    omega
  rw [encode, List.cons_append, (legalHeader_header i).decode_eq, if_neg enough, buildInstr_header hwf]

/-- Settles O4: the payload of the two commands that have one is unpacked word by word. -/
theorem writtenWordsDecode : Obligations.WrittenWordsDecode := by
  unfold Obligations.WrittenWordsDecode
  refine ⟨?nop, ?rdreg, ?pinAssert, ?kbSend, ?kbReport, ?msReport, ?bqEnqueue⟩ <;> decide

/-! ## The wire byte (42_keyboard.md R162) -/

/-- Settles O19: each clause is a check of the 256 codes. -/
theorem wireByteClosedForm : Obligations.WireByteClosedForm := by
  unfold Obligations.WireByteClosedForm
  refine ⟨Laws.wire_eq, ?low, ?high, ?pressed0x80, ?released0x00⟩
  case low => decide +kernel
  case high => decide +kernel
  case pressed0x80 => decide
  case released0x00 => decide

end Sys2Proof.Proofs
end

section
/-! The parameters (00_scope.md R7, R8), the reset event (70_reset_and_hazards.md R290) and the register view
(10_state.md R46 to R59). -/

namespace Sys2Proof.Proofs

open Sys2Proof.Machine Sys2Proof.Claims

/-! ## Parameters -/

/-- What a legal parameter set meets, in the words of R7 and R8. -/
theorem paramsLegal_iff (cfg : Params) : paramsLegal cfg = true ↔
    cfg.qmax ≠ some 0 ∧ (namedScancodes cfg).Nodup ∧ cfg.encDivisor ≠ 0 ∧ cfg.maxXfer ≠ 0 ∧
      cfg.scCapslock.getLsbD 7 = false ∧ cfg.scCtrl.getLsbD 7 = false ∧ cfg.scLspecial.getLsbD 7 = false ∧
      cfg.scRspecial.getLsbD 7 = false ∧ cfg.scPowerup.getLsbD 7 = true ∧ cfg.scPowerdown.getLsbD 7 = true := by
  have qmax_legal (q : Option Nat) : qmaxLegal q = true ↔ q ≠ some 0 := by
    cases q <;> simp [qmaxLegal, Nat.one_le_iff_ne_zero]
  simp only [paramsLegal, Bool.and_eq_true, Bool.not_eq_true', decide_eq_true_eq, qmax_legal, Laws.allDistinct_iff,
    Nat.one_le_iff_ne_zero, and_assoc]

/-- This hardware's parameters are legal, whatever the OPEN ones are (log 5). -/
theorem paramsLegal_params : paramsLegal Config.params = true := by
  rw [paramsLegal_iff]
  refine ⟨?qmax, ?distinct, ?divisor, ?maxXfer, ?bits⟩
  case qmax => exact Option.some_ne_none 0 |>.symm
  case distinct => decide
  case divisor => decide
  case maxXfer => exact Nat.succ_ne_zero _
  case bits => decide

theorem step_of_illegal_params {s : State} (illegal : paramsLegal s.cfg = false) :
    step s = .refused .illegalParameters := by
  simp only [step, illegal, Bool.not_false, if_true]

/-- Settles O9: each broken constraint is one that a legal parameter set meets. -/
theorem illegalParametersAreRefused : Obligations.IllegalParametersAreRefused := by
  unfold Obligations.IllegalParametersAreRefused
  refine ⟨fun s broken => step_of_illegal_params ?_, paramsLegal_params⟩
  rw [← Bool.not_eq_true, paramsLegal_iff]
  rintro ⟨qmax, distinct, divisor, maxXfer, caps, ctrl, lsp, rsp, powerup, powerdown⟩
  rcases broken with h | h | h | h | h | h | h | h | h | h
  · exact h distinct
  · exact divisor h
  · exact maxXfer h
  · exact qmax h
  all_goals simp_all

/-! ## The reset event -/

/-- Settles O11: the event and the reset state are the same table over what reset leaves alone. -/
theorem resetEventRestoresReset : Obligations.ResetEventRestoresReset := by
  unfold Obligations.ResetEventRestoresReset
  exact fun _ => ⟨rfl, rfl, rfl, rfl⟩

/-- Settles O58: after reset the queue is empty, nothing is live, no bit of the fault register is set. -/
theorem resetHasTheInvariants : Obligations.ResetHasTheInvariants := by
  unfold Obligations.ResetHasTheInvariants
  have not_halted : State.reset.halted = false := resetOver_halted ..
  refine ⟨?queue, ?ownership, ?faultBits, reset_memory_wf⟩
  case queue =>
    exact ⟨rfl, rfl, fun _ h => absurd h List.not_mem_nil, fun h => absurd rfl h, fun h => absurd h Bool.false_ne_true,
      fun _ => rfl, fun _ => rfl, fun h => absurd (not_halted.symm.trans h) Bool.false_ne_true⟩
  case ownership => exact ⟨.nil, fun _ h => absurd h List.not_mem_nil, .refl _⟩
  case faultBits => exact BitVec.zero_and

/-! ## The register view -/

/-- Bit `k` of a word that is given by its bits. -/
theorem getLsbD_bitsWord {bits : List Bool} (fits : bits.length ≤ 32) (k : Nat) :
    (bitsWord bits).getLsbD k = bits.getD k false := by
  induction bits generalizing k with
  | nil => simp [bitsWord]
  | cons b rest ih =>
    simp only [List.length_cons] at fits
    have bit_b : (if b then (1 : Word) else 0).getLsbD k = (decide (k = 0) && b) := by
      cases b <;> simp [BitVec.getLsbD_one]
    simp only [bitsWord, BitVec.getLsbD_or, BitVec.getLsbD_shiftLeft, bit_b]
    cases k with
    | zero => simp
    | succ k =>
      have past_end (h : 32 ≤ k + 1) : rest[k]? = none := List.getElem?_eq_none (by omega)
      by_cases h : k + 1 < 32
      · simp [ih (by omega), h]
      · simp [h, past_end (by omega)]

/-- Two fields side by side, as a number. -/
theorem toNat_append_eq {m n : Nat} (high : BitVec m) (low : BitVec n) :
    (high ++ low).toNat = low.toNat + 2 ^ n * high.toNat := by
  rw [BitVec.toNat_append, ← Nat.shiftLeft_add_eq_or_of_lt low.isLt, Nat.shiftLeft_eq]
  ring

/-- A field that a register is wide enough for. -/
theorem toNat_setWidth_register {m : Nat} (v : BitVec m) (fits : m ≤ 32) : (v.setWidth 32).toNat = v.toNat := by
  rw [BitVec.toNat_setWidth, Nat.mod_eq_of_lt (lt_of_lt_of_le v.isLt (Nat.pow_le_pow_right (by omega) fits))]

/-- Every id is a pin's. -/
theorem pin_id_surjective (i : Fin 12) : ∃ p : Pin, p.id = i := by
  refine ⟨Pin.all[i.val], ?_⟩
  revert i; decide

/-- Bits 0 to 11 of PIN_DRIVE (R59). -/
def pinBits (s : State) : List Bool := Pin.all.map (fun p => s.pins.driveOf p == .asserted)

theorem pinBits_length (s : State) : (pinBits s).length = 12 := rfl

theorem pinBits_getElem? (s : State) (i : Fin 12) : (pinBits s)[i.val]? = some (s.pins.drive[i] == .asserted) := by
  obtain ⟨p, rfl⟩ := pin_id_surjective i
  rw [pinBits, List.getElem?_map, all_getElem_id]
  rfl

/-- Bits 12 to 19 of PIN_DRIVE (R59). -/
def busPinBits (s : State) : List Bool :=
  [s.pins.funcScl == .busctrl, s.pins.funcSda == .busctrl, s.pins.pullScl, s.pins.pullSda]

theorem getLsbD_regPinDrive (s : State) (k : Nat) :
    (regPinDrive s).getLsbD k = (pinBits s ++ (List.replicate 4 false ++ busPinBits s)).getD k false :=
  getLsbD_bitsWord (bits := pinBits s ++ (List.replicate 4 false ++ busPinBits s)) (Nat.le_of_ble_eq_true rfl) k

/-- An index above the last row (R46). -/
theorem regView_of_unassigned (s : State) {i : Byte} (h : 0x0C < i.toNat) : regView s i = 0 := by
  unfold regView
  split <;> first | omega | rfl

/-- Settles O15: the registers that are lists of bits are read bit by bit, those that are fields side by side as
numbers. -/
theorem registerViewFields : Obligations.RegisterViewFields := by
  unfold Obligations.RegisterViewFields
  intro s
  refine ⟨getLsbD_bitsWord (Nat.le_of_ble_eq_true rfl), toNat_setWidth_register _ (by decide), rfl,
    toNat_setWidth_register _ (by decide), ?encStatus, ?encRem, ?mv,
    getLsbD_bitsWord (Nat.le_of_ble_eq_true rfl), rfl, rfl, rfl, rfl, fun p => ?pin, fun k low high => ?gap, fun k low => ?busPin, fun i => regView_of_unassigned s⟩
  case encStatus =>
    show (regEncStatus s).toNat = _
    rw [regEncStatus, toNat_setWidth_register _ (by decide), toNat_append_eq, toNat_append_eq]
    cases s.enc.state <;> simp [EncState.code] <;> omega
  case encRem =>
    show (regEncRem s).toNat = _
    rw [regEncRem, toNat_setWidth_register _ (by decide), toNat_append_eq]
    rfl
  case mv =>
    show (regMv s).toNat = _
    rw [regMv, toNat_setWidth_register _ (by decide), toNat_append_eq, toNat_append_eq, BitVec.toNat_ofBool]
    ring
  case pin =>
    refine (getLsbD_regPinDrive s p.val).trans ?_
    rw [List.getD_eq_getElem?_getD, List.getElem?_append_left (by rw [pinBits_length]; exact p.isLt), pinBits_getElem?]
    rfl
  case gap =>
    refine (getLsbD_regPinDrive s k).trans ?_
    rw [List.getD_append_right _ _ _ _ (by rw [pinBits_length]; exact low), pinBits_length,
      List.getD_append _ _ _ _ (by rw [List.length_replicate]; omega), List.getD_replicate _ (by omega)]
  case busPin =>
    refine (getLsbD_regPinDrive s k).trans ?_
    rw [List.getD_append_right _ _ _ _ (by rw [pinBits_length]; omega), pinBits_length,
      List.getD_append_right _ _ _ _ (by rw [List.length_replicate]; omega), List.length_replicate, Nat.sub_sub]
    rfl

end Sys2Proof.Proofs
end

section
/-! The pin and keyboard commands in a quiet state (40_pin_driver.md R113 to R115, 42_keyboard.md R164 to R177). -/

namespace Sys2Proof.Proofs

open Sys2Proof.Machine Sys2Proof.Claims

/-! ## Pins -/

/-- A pin that the host drives, driven in a quiet state (40_pin_driver.md R110, R111). -/
theorem endCommand_drivePin_of_settled {s : State} (h : s.Settled) (p : Pin) (d : Drive) :
    endCommand 1 (Actor.pri.act (drivePin .pri p d) s) = consumed 1 (traced .pri [.pin p d] (driven p d s)) := by
  have driven_quiet : (drivePin .pri p d s).Settled := Laws.settled_congr' h
  rw [act_of_settled h, endCommand_eq_consumed driven_quiet]
  rfl

/-- The operands that name a pin the host drives (R113, R114). -/
theorem hostPin_eq_some {a : Byte} {p : Pin} (ha : a.toNat ≤ 9) (id_eq : p.id.val = a.toNat) : hostPin a = some p := by
  have named : Pin.ofByte a = some p := (ofByte_eq_some_iff a p).2 id_eq
  have drivable : p.hostDrives = true := (hostDrives_iff p).2 (by omega)
  rw [hostPin, named, Option.filter_some, if_pos drivable]

/-- Settles O16: each command is the one atomic step that drives its pin. -/
theorem pinCommandsDriveTheirPin : Obligations.PinCommandsDriveTheirPin := by
  unfold Obligations.PinCommandsDriveTheirPin
  intro s id p h hid id_eq
  refine ⟨?assert, ?release⟩
  case assert =>
    rw [exec, execPinAssert, hostPin_eq_some hid id_eq]
    exact congrArg _ (endCommand_drivePin_of_settled h p .asserted)
  case release =>
    rw [exec, execPinRelease, hostPin_eq_some hid id_eq]
    exact congrArg _ (endCommand_drivePin_of_settled h p .released)

/-- A pin other than the bus pins is always under GPIO (10_state.md R23). -/
theorem funcOf_eq_gpio_iff (ps : Pins) (p : Pin) :
    ps.funcOf p = .gpio ↔ (p = .scl → ps.funcScl = .gpio) ∧ (p = .sda → ps.funcSda = .gpio) := by
  cases p <;> simp [Pins.funcOf]

/-- The word of a sampled level (R112, 30_encoding.md R86). -/
theorem levelWord_sample (p : Pin) (s : State) :
    levelWord (sample p s) =
      if ((p = .scl → s.pins.funcScl = .gpio) ∧ (p = .sda → s.pins.funcSda = .gpio)) ∧ s.pins.drive[p.id] = .asserted
      then 0 else if s.ext[p.id] = .high then 1 else 0 := by
  have gpio := funcOf_eq_gpio_iff s.pins p
  split
  case isTrue pulled_low =>
    have low : sample p s = .low := if_pos ⟨gpio.2 pulled_low.1, pulled_low.2⟩
    rw [low]
    rfl
  case isFalse not_pulled =>
    have external : sample p s = s.ext[p.id] := if_neg fun pulled => not_pulled ⟨gpio.1 pulled.1, pulled.2⟩
    rw [external]
    cases s.ext[p.id] <;> rfl

/-- Settles O18: nothing comes before either of the two atomic steps, the sample and the response. -/
theorem pinSampleAnswersTheLevel : Obligations.PinSampleAnswersTheLevel := by
  unfold Obligations.PinSampleAnswersTheLevel
  intro s id p h id_eq
  have answered : (respond (levelWord (sample p s)) s).Settled := Laws.settled_congr' h
  rw [exec, execPinSample, (ofByte_eq_some_iff id p).2 id_eq]
  simp only [pri_pre_of_settled h, act_of_settled h, endCommand_eq_consumed answered]
  rw [levelWord_sample]
  rfl

/-! ## KB_SEND (42_keyboard.md R164, R165, R171) -/

theorem isTrioCode_iff (cfg : Params) (code : Byte) :
    isTrioCode cfg code = true ↔ code = cfg.scCtrl ∨ code = cfg.scLspecial ∨ code = cfg.scRspecial := by
  simp only [isTrioCode, Bool.or_eq_true, beq_iff_eq, or_assoc]

theorem isTrioCode_of_plain {cfg : Params} {code : Byte} (plain : PlainKey cfg code) : isTrioCode cfg code = false := by
  rw [← Bool.not_eq_true, isTrioCode_iff]
  rintro (e | e | e)
  · exact plain.notCtrl e
  · exact plain.notLspecial e
  · exact plain.notRspecial e

/-- A plain key is its frame. -/
theorem quietSend_plain {s : State} {code : Byte} (plain : PlainKey s.cfg code) (rel : Bool) :
    Laws.quietSend code rel s = framed (wire code rel) s := by
  simp only [Laws.quietSend, Laws.keyAfter, if_neg plain.known, if_neg plain.notCaps, isTrioCode_of_plain plain,
    Bool.false_eq_true, if_false]

/-- Settles O20: KbSendCore passes its three tests and sends the frame. -/
theorem kbSendSendsOneFrame : Obligations.KbSendSendsOneFrame := by
  unfold Obligations.KbSendSendsOneFrame
  intro s code rel h plain
  rw [exec_kbSend_of_settled h, quietSend_plain plain]

/-- Settles O21: the first test of KbSendCore, in both directions. -/
theorem kbSendRefusesTheSentinel : Obligations.KbSendRefusesTheSentinel := by
  unfold Obligations.KbSendRefusesTheSentinel
  intro s rel h
  rw [exec_kbSend_of_settled h, Laws.quietSend, if_pos rfl]

/-- A trio code is neither the sentinel nor caps-lock, because the named scancodes are distinct (00_scope.md R8). -/
theorem trio_distinct {cfg : Params} (hlegal : paramsLegal cfg = true) {code : Byte}
    (trio : code = cfg.scCtrl ∨ code = cfg.scLspecial ∨ code = cfg.scRspecial) :
    code ≠ cfg.scUnknown ∧ code ≠ cfg.scCapslock := by
  have distinct := Laws.legal_nodup hlegal
  simp only [namedScancodes, List.nodup_cons, List.mem_cons, not_or] at distinct
  obtain ⟨⟨-, u_ctrl, u_lsp, u_rsp, -⟩, ⟨c_ctrl, c_lsp, c_rsp, -⟩, -⟩ := distinct
  rcases trio with rfl | rfl | rfl
  · exact ⟨Ne.symm u_ctrl, Ne.symm c_ctrl⟩
  · exact ⟨Ne.symm u_lsp, Ne.symm c_lsp⟩
  · exact ⟨Ne.symm u_rsp, Ne.symm c_rsp⟩

/-- Settles O23: KbSendCore's branch for the trio: its boolean, the chord, the frame. -/
theorem trioKeyDrivesTheResetLine : Obligations.TrioKeyDrivesTheResetLine := by
  unfold Obligations.TrioKeyDrivesTheResetLine
  intro s code rel h hlegal trio
  obtain ⟨known, not_caps⟩ := trio_distinct hlegal trio
  rw [exec_kbSend_of_settled h, Laws.quietSend, if_neg known, if_neg not_caps, Laws.keyAfter,
    if_pos ((isTrioCode_iff s.cfg code).2 trio)]

/-! ## KB_INIT (R174) -/

/-- The two announcement codes are plain keys (00_scope.md R8). -/
theorem announcements_plain {cfg : Params} (hlegal : paramsLegal cfg = true) :
    PlainKey cfg cfg.scPowerup ∧ PlainKey cfg cfg.scPowerdown := by
  have distinct := Laws.legal_nodup hlegal
  simp only [namedScancodes, List.nodup_cons, List.mem_cons, not_or, ← ne_eq] at distinct
  obtain ⟨⟨-, -, -, -, u_up, u_down, -⟩, ⟨-, -, -, c_up, c_down, -⟩, ⟨-, -, ctrl_up, ctrl_down, -⟩,
    ⟨-, lsp_up, lsp_down, -⟩, ⟨rsp_up, rsp_down, -⟩, -⟩ := distinct
  exact ⟨⟨u_up.symm, c_up.symm, ctrl_up.symm, lsp_up.symm, rsp_up.symm⟩,
    ⟨u_down.symm, c_down.symm, ctrl_down.symm, lsp_down.symm, rsp_down.symm⟩⟩

/-- KbSendCore of a plain key in a quiet state is its frame (R171). -/
theorem kbSendCore_plain {s : State} (h : s.Settled) {code : Byte} (plain : PlainKey s.cfg code) (rel : Bool) :
    kbSendCore code rel s = framed (wire code rel) s := by
  rw [(Laws.kbSendCore_eq h code rel).1, quietSend_plain plain]

/-- The state in which the lines are idle and the keyboard has settled (R174). -/
def idled (s : State) : State :=
  traced .pri [.pin .kclk .released, .pin .kdat .released, .wait .pri 1000000]
    (driven .kdat .released (driven .kclk .released s))

theorem settled_idled {s : State} (h : s.Settled) : (idled s).Settled := Laws.settled_congr' h

theorem settled_traced {s : State} (h : s.Settled) (ag : Agent) (evs : List Event) : (traced ag evs s).Settled :=
  Laws.settled_congr' h

theorem run_idle {s : State} (h : s.Settled) :
    Actor.pri.run [releasePin .pri .kclk, releasePin .pri .kdat, wait .pri Config.tKbSettle] s = idled s := by
  have actions_quiet : ∀ a ∈ [releasePin .pri .kclk, releasePin .pri .kdat, wait .pri Config.tKbSettle],
      ∀ t : State, t.Settled → (a t).Settled := by
    intro a ha t ht
    simp only [List.mem_cons, List.not_mem_nil, or_false] at ha
    rcases ha with rfl | rfl | rfl <;> exact Laws.settled_congr' ht
  rw [(run_of_settled actions_quiet h).1]
  simp [idled, releasePin, drivePin, emit, wait, Pins.setDrive, traced, driven, Agent.context, Config.tKbSettle]

/-- The body of KB_INIT in a quiet state: an announcement, a wait, an announcement (R174). -/
theorem kbInitBody_of_settled {s : State} (h : s.Settled) (hlegal : paramsLegal s.cfg = true) :
    kbInitBody s = setInitDone (framed (wire s.cfg.scPowerdown false)
      (traced .pri [.wait .pri 200000] (framed (wire s.cfg.scPowerup false) (idled s)))) := by
  obtain ⟨up_plain, down_plain⟩ := announcements_plain hlegal
  have up_quiet := Laws.settled_framed (wire s.cfg.scPowerup false) (settled_idled h)
  have gap_quiet := settled_traced up_quiet .pri [.wait .pri 200000]
  have gap : Actor.pri.act (wait .pri Config.tKbAnnounceGap) (framed (wire s.cfg.scPowerup false) (idled s)) =
      traced .pri [.wait .pri 200000] (framed (wire s.cfg.scPowerup false) (idled s)) := act_of_settled up_quiet _
  have up : kbSendCore (idled s).cfg.scPowerup false (idled s) = framed (wire s.cfg.scPowerup false) (idled s) :=
    kbSendCore_plain (settled_idled h) up_plain false
  have down := kbSendCore_plain gap_quiet down_plain false
  simp only [kbInitBody, run_idle h, up, gap]
  exact (congrArg _ down).trans (act_of_settled (Laws.settled_framed _ gap_quiet) _)

/-- Settles O24: the body in a quiet state, and the advance past the one word. -/
theorem kbInitAnnounces : Obligations.KbInitAnnounces := by
  unfold Obligations.KbInitAnnounces
  intro s h hlegal
  have body_quiet : (setInitDone (framed (wire s.cfg.scPowerdown false)
      (traced .pri [.wait .pri 200000] (framed (wire s.cfg.scPowerup false) (idled s))))).Settled :=
    Laws.settled_congr' h
  rw [exec, execKbInit, kbInitBody_of_settled h hlegal, endCommand_eq_consumed body_quiet]
  rfl

/-! ## The reset line (R176, R177) -/

/-- Settles O25: each command is its two atomic steps. -/
theorem resetCommandsDriveKrst : Obligations.ResetCommandsDriveKrst := by
  unfold Obligations.ResetCommandsDriveKrst
  intro s h
  refine ⟨?assert, ?release⟩
  case assert =>
    rw [exec, execKbAssertReset, Laws.assertReset_quiet h, endCommand_eq_consumed]
    exact Laws.settled_congr' h
  case release =>
    rw [exec, execKbReleaseReset, Laws.releaseReset_quiet h, endCommand_eq_consumed]
    exact Laws.settled_congr' h

end Sys2Proof.Proofs
end

section
/-! The bus commands in a quiet state: BQ_INIT on a free bus, BQ_ENQUEUE held, appended or dispatched, and MakeTxn
(43_bus_queue.md R202 to R210, R221 to R224). -/

namespace Sys2Proof.Proofs

open Sys2Proof.Machine Sys2Proof.Claims

/-! ## BQ_INIT (R224) -/

/-- With no transaction queued BQ_INIT is BusInit, in a quiet state. -/
theorem exec_bqInit_of_settled {s : State} (h : s.Settled) (no_queue : s.bq.depth = 0) :
    exec .bqInit s = .next (endCommand 1 (busInit .pri s)) := by
  have depth_zero : ¬ 0 < s.bq.depth.toNat := by simp [no_queue]
  simp only [exec, execBqInit, pri_pre_of_settled h, if_neg depth_zero]

/-- Settles O37: the bus is found free and configured. -/
theorem bqInitConfigures : Obligations.BqInitConfigures := by
  unfold Obligations.BqInitConfigures
  intro s h no_queue scl_high sda_high
  have free : busInit .pri s = configured .pri s := Laws.busInit_free (ag := .pri) rfl h scl_high sda_high
  have configured_quiet : (configured .pri s).Settled := Laws.settled_congr' h
  rw [exec_bqInit_of_settled h no_queue, free, endCommand_eq_consumed configured_quiet]

/-! ## BQ_ENQUEUE held for room (R204) -/

theorem full_of_le {s : State} {m : Nat} (bounded : s.cfg.qmax = some m) (reached : m ≤ s.bq.depth.toNat) :
    s.queueFull = true := by
  simp only [State.queueFull, bounded, decide_eq_true reached]

/-- A hold in a quiet state is one step of ENC (log 2). -/
theorem holdStep_of_settled {s : State} (h : s.Settled) : holdStep s = encStep s := by
  have uncut : (encStep s).cut = false := by rw [encStep_frame]; exact h.cut
  rw [holdStep, if_pos ⟨h.tape, h.not_ready⟩, Laws.cut_self uncut]

/-- Settles O40: every test before that for room is passed, and the hold is ENC's step. -/
theorem enqueueHoldsWhenFull : Obligations.EnqueueHoldsWhenFull := by
  unfold Obligations.EnqueueHoldsWhenFull
  intro s r bytes m h ready nonempty size bounded reached
  have not_rejected : ¬ (s.cfg.capacityPolicy = .rejectAtEnqueue ∧ s.cfg.maxXfer < bytes.length + r.toNat) := by
    rintro ⟨rejects, oversize⟩
    rcases size with halts | fits
    · rw [halts] at rejects; cases rejects
    · omega
  simp only [exec, execBqEnqueue, pri_pre_of_settled h, ready, Bool.not_true, Bool.false_eq_true, if_false,
    if_neg nonempty, if_neg not_rejected, full_of_le bounded reached, if_true, holdStep_of_settled h]

/-! ## BQ_ENQUEUE appended (R206) -/

/-- Append behind queued transactions, in a quiet state: the mask is set and set back. -/
theorem appendTxn_of_queued {s : State} (h : s.Settled) (last : State → State) (t : Txn) (queued : s.bq.queue ≠ []) :
    appendTxn .pri last t s = pushTxn t s := by
  have masked_quiet := Laws.settled_masked h true
  have pushed_quiet : (pushTxn t (setMasked true s)).Settled := Laws.settled_congr' h
  simp only [appendTxn, irqSave, irqRestore, pri_pre_of_settled h, act_of_settled h, act_of_settled masked_quiet,
    setMasked_bq, if_neg queued, act_of_settled pushed_quiet]
  rfl

/-- Append on an empty queue with a transaction that fits, in a quiet state: it is dispatched at once (R206, R210). -/
theorem appendTxn_of_fits {s : State} (h : s.Settled) (last : State → State) {t : Txn} (empty : s.bq.queue = [])
    (fits : t.wdata.length + t.r.toNat ≤ s.cfg.maxXfer) :
    appendTxn .pri last t s = dispatched .pri t (pushTxn t s) := by
  have pushed_quiet : (pushTxn t (setMasked true s)).Settled := Laws.settled_congr' h
  have dispatched_quiet : (dispatched .pri t (pushTxn t (setMasked true s))).Settled := Laws.settled_congr' h
  have runs : dispatch .pri last t (pushTxn t (setMasked true s)) = dispatched .pri t (pushTxn t (setMasked true s)) :=
    Laws.run_dispatch (ag := .pri) rfl pushed_quiet t last fits
  rw [appendTxn_of_empty h last t empty, runs, act_of_settled dispatched_quiet]
  rfl

/-- MakeTxn leaves a quiet state quiet. -/
theorem settled_makeTxn {s : State} (h : s.Settled) (bytes : List Byte) (r : Byte) :
    (makeTxn .pri bytes r s).2.Settled := by
  rw [Laws.makeTxn_owned h]
  exact Laws.settled_congr' h

/-- Settles O41: the accepted command is MakeTxn, which changes owned storage alone, and Append. -/
theorem enqueueAppends : Obligations.EnqueueAppends := by
  unfold Obligations.EnqueueAppends
  intro s r bytes h accepted queued
  have made_owned := Laws.makeTxn_owned h bytes r
  have made_queued : (makeTxn .pri bytes r s).2.bq.queue ≠ [] := by rw [made_owned]; exact queued
  have pushed_quiet : (pushTxn (makeTxn .pri bytes r s).1 (makeTxn .pri bytes r s).2).Settled :=
    Laws.settled_congr' (settled_makeTxn h bytes r)
  rw [exec_bqEnqueue_of_accepted h accepted, acceptTxn, appendTxn_of_queued (settled_makeTxn h bytes r) _ _ made_queued,
    endCommand_eq_consumed pushed_quiet, pushTxn, made_owned]

/-- Settles O42: as O41, with the dispatch that Append makes on an empty queue. -/
theorem enqueueDispatches : Obligations.EnqueueDispatches := by
  unfold Obligations.EnqueueDispatches
  intro s r bytes h accepted empty fits
  have made_owned := Laws.makeTxn_owned h bytes r
  have made_empty : (makeTxn .pri bytes r s).2.bq.queue = [] := by rw [made_owned]; exact empty
  have made_fits : bytes.length + r.toNat ≤ (makeTxn .pri bytes r s).2.cfg.maxXfer := by rw [made_owned]; exact fits
  have dispatched_quiet : (dispatched .pri (makeTxn .pri bytes r s).1
      (pushTxn (makeTxn .pri bytes r s).1 (makeTxn .pri bytes r s).2)).Settled :=
    Laws.settled_congr' (settled_makeTxn h bytes r)
  rw [exec_bqEnqueue_of_accepted h accepted, acceptTxn,
    appendTxn_of_fits (settled_makeTxn h bytes r) _ made_empty made_fits, endCommand_eq_consumed dispatched_quiet,
    pushTxn, made_empty, made_owned]
  rfl

end Sys2Proof.Proofs
end

section
/-! MakeTxn and the command units (43_bus_queue.md R202, R209, 20_memory.md R73, 30_encoding.md R94). -/

namespace Sys2Proof.Proofs

open Sys2Proof.Machine Sys2Proof.Claims

/-! ## An allocation (20_memory.md R73) -/

/-- Owned storage whose live handles are below the next one. -/
def FreshNext (o : Owned) : Prop := ∀ h ∈ o.handles, h < o.next

theorem handles_alloc (o : Owned) (n : Nat) : (o.alloc n).2.handles = o.handles ++ [o.next] := by
  simp [Owned.handles, Owned.alloc]

/-- A live buffer keeps its size when another is allocated. -/
theorem sizeOf_alloc_of_ne {o : Owned} {h n : Nat} (other : h ≠ o.next) : (o.alloc n).2.sizeOf? h = o.sizeOf? h := by
  have unlike : (o.next == h) = false := beq_false_of_ne other.symm
  simp [Owned.sizeOf?, Owned.alloc, List.find?_append, unlike]

/-- Everything Alloc of `n` bytes, none where `n` is 0, does to owned storage: `b` is the new buffer. -/
structure AllocSpec (n : Nat) (o : Owned) (b : Option Nat) (o' : Owned) : Prop where
  none_iff : b = none ↔ n = 0
  new : ∀ h, b = some h → h = o.next ∧ h < o'.next ∧ o'.sizeOf? h = some n
  fresh : FreshNext o'
  kept : ∀ h ∈ o.handles, h ∈ o'.handles
  sizes : ∀ h, h < o.next → o'.sizeOf? h = o.sizeOf? h
  next_le : o.next ≤ o'.next
  cells : o'.cells = o.cells

theorem allocated_spec {o : Owned} (fresh : FreshNext o) (n : Nat) :
    AllocSpec n o (Laws.allocated n o).1 (Laws.allocated n o).2 := by
  unfold Laws.allocated
  split
  case isTrue zero =>
    exact ⟨⟨fun _ => zero, fun _ => rfl⟩, fun _ none_eq => (by cases none_eq), fresh, fun _ live => live, fun _ _ => rfl,
      le_rfl, rfl⟩
  case isFalse positive =>
    refine ⟨⟨fun e => (by cases e), fun e => absurd e positive⟩, ?new, ?fresh, ?kept, ?sizes, Nat.le_succ _, rfl⟩
    case new =>
      rintro h ⟨⟩
      exact ⟨rfl, Nat.lt_succ_self _, sizeOf_append (not_mem_fresh fresh) n⟩
    case fresh =>
      intro h live
      rw [handles_alloc, List.mem_append, List.mem_singleton] at live
      rcases live with old | rfl
      · exact Nat.lt_succ_of_lt (fresh h old)
      · exact Nat.lt_succ_self _
    case kept => exact fun h live => by rw [handles_alloc]; exact List.mem_append_left _ live
    case sizes => exact fun h below => sizeOf_alloc_of_ne (Nat.ne_of_lt below)

/-! ## The copy of the payload (R202) -/

theorem filled_handles (b : Option Nat) (bytes : List Byte) (o : Owned) :
    (Laws.filled b bytes o).handles = o.handles := by
  cases b with
  | none => rfl
  | some h => rw [Laws.filled, Owned.handles, Owned.writeFrom_live]; rfl

theorem filled_next (b : Option Nat) (bytes : List Byte) (o : Owned) : (Laws.filled b bytes o).next = o.next := by
  cases b with
  | none => rfl
  | some h => exact Owned.writeFrom_next h 1 0 bytes o

theorem filled_sizeOf (b : Option Nat) (bytes : List Byte) (o : Owned) (h : Nat) :
    (Laws.filled b bytes o).sizeOf? h = o.sizeOf? h := by
  cases b with
  | none => rfl
  | some k => exact sizeOf_writeFrom o k 1 0 bytes h

/-- The copy touches no address outside the buffer's bytes. -/
theorem filled_readCell {b : Option Nat} {bytes : List Byte} (o : Owned) {a : Nat}
    (outside : ∀ h, b = some h → ¬ (byteAddr h 0 ≤ a ∧ a < byteAddr h bytes.length)) :
    readCell a (Laws.filled b bytes o).cells = readCell a o.cells := by
  cases b with
  | none => rfl
  | some h => exact readCell_writeFrom_out bytes o h 0 a (by rw [Nat.zero_add]; exact outside h rfl)

/-- A byte of a live buffer reads as its cell does. -/
theorem read_congr {o o' : Owned} (h k : Nat) (size : o'.sizeOf? h = o.sizeOf? h) (cells : o'.cells = o.cells) :
    o'.read h k = o.read h k := by
  have in_range : o'.inRange h k = o.inRange h k := by unfold Owned.inRange; rw [size]
  rw [Owned.read, in_range, cells, Owned.read]

/-- Settles O44: in a quiet state MakeTxn is an allocation, the copy and another allocation, each of which says what it
does to owned storage. -/
theorem makeTxnCopiesThePayload : Obligations.MakeTxnCopiesThePayload := by
  unfold Obligations.MakeTxnCopiesThePayload
  intro s bytes r h _ fresh
  have write_alloc := allocated_spec (o := s.owned) fresh bytes.length
  have made := Laws.makeTxn_settled h bytes r
  generalize Laws.allocated bytes.length s.owned = w at write_alloc made
  obtain ⟨wbuf, o1⟩ := w
  simp only at write_alloc made
  have filled_fresh : FreshNext (Laws.filled wbuf bytes o1) := by
    rw [FreshNext, filled_handles, filled_next]; exact write_alloc.fresh
  have read_alloc := allocated_spec filled_fresh r.toNat
  generalize Laws.allocated r.toNat (Laws.filled wbuf bytes o1) = b at read_alloc made
  obtain ⟨rbuf, o2⟩ := b
  simp only at read_alloc made
  have next_filled := filled_next wbuf bytes o1
  have r_zero_iff : r.toNat = 0 ↔ r = 0 := ⟨fun e => BitVec.eq_of_toNat_eq e, fun e => by rw [e]; rfl⟩
  have size_below {k : Nat} (below : k < o1.next) : o2.sizeOf? k = o1.sizeOf? k := by
    rw [read_alloc.sizes k (by rw [next_filled]; exact below), filled_sizeOf]
  rw [made]
  refine ⟨rfl, rfl, rfl, ?wbuf, ?rbuf, ?written, ?readBuffer, ?old, ?cells⟩
  case wbuf => exact write_alloc.none_iff.trans List.length_eq_zero_iff
  case rbuf => exact read_alloc.none_iff.trans r_zero_iff
  case written =>
    rintro k rfl
    obtain ⟨rfl, below, size⟩ := write_alloc.new k rfl
    refine ⟨not_mem_fresh fresh, (size_below below).trans size, fun i hi => ?_⟩
    have size_eq : o2.sizeOf? s.owned.next = (Laws.filled (some s.owned.next) bytes o1).sizeOf? s.owned.next := by
      rw [size_below below, filled_sizeOf]
    have copied := read_writeFrom bytes o1 s.owned.next 0 bytes.length size (by omega) i hi
    rw [Nat.zero_add] at copied
    exact (read_congr s.owned.next i size_eq read_alloc.cells).trans copied
  case readBuffer =>
    rintro k rfl
    obtain ⟨rfl, -, size⟩ := read_alloc.new k rfl
    have above := write_alloc.next_le
    rw [next_filled] at size ⊢
    refine ⟨fun live => ?_, fun same => ?_, size⟩
    · have := fresh _ live
      omega
    · obtain ⟨-, below, -⟩ := write_alloc.new _ same
      exact lt_irrefl _ below
  case old =>
    intro k live
    have below := fresh k live
    rw [size_below (lt_of_lt_of_le below write_alloc.next_le), write_alloc.sizes k below]
  case cells =>
    intro a outside
    rw [read_alloc.cells, filled_readCell o1 outside, write_alloc.cells]

/-! ## Command units (R209, 30_encoding.md R94) -/

/-- The flag when `b` holds. -/
def flagIf (b : Bool) (flag : CmdUnit) : CmdUnit := if b then flag else 0

/-- A unit: a write byte or the read flag, and the flags of its place (30_encoding.md R94). -/
def unitOf (write first readFirst last : Bool) (byte : Byte) : CmdUnit :=
  (if write then byte.setWidth 16 else cuRead) ||| flagIf first cuRestart ||| flagIf readFirst cuRestart |||
    flagIf last cuStop

/-- The fields of a unit, checked for each of its 16 places and 256 bytes. -/
theorem unitOf_fields : ∀ (write first readFirst last : Bool) (byte : Byte),
    (unitOf write first readFirst last byte).extractLsb' 0 8 = (if write then byte else 0) ∧
      (unitOf write first readFirst last byte).getLsbD 8 = !write ∧
      (unitOf write first readFirst last byte).getLsbD 9 = last ∧
      (unitOf write first readFirst last byte).getLsbD 10 = (first || readFirst) ∧
      (unitOf write first readFirst last byte).extractLsb' 11 5 = 0 := by
  decide +kernel

/-- One flag ORed into one unit of a list. -/
theorem orUnit_getElem? (i k : Nat) (flag : CmdUnit) (us : List CmdUnit) :
    (orUnit i flag us)[k]? = us[k]?.map (fun u => u ||| flagIf (decide (k = i)) flag) := by
  rw [orUnit, List.getElem?_modify]
  by_cases hit : i = k
  · simp [flagIf, hit]
  · simp [flagIf, hit, Ne.symm hit]

/-- The units before the flags of their places: the write units, then the read units. -/
theorem plainUnits_getElem? (t : Txn) (k : Nat) :
    (t.wdata.map (fun b => b.setWidth 16) ++ List.replicate t.r.toNat cuRead)[k]? =
      if k < t.wdata.length + t.r.toNat then
        some (if decide (k < t.wdata.length) then (t.wdata.getD k 0).setWidth 16 else cuRead) else none := by
  by_cases write : k < t.wdata.length
  · rw [List.getElem?_append_left (by simpa using write), if_pos (by omega), if_pos (decide_eq_true write)]
    simp [write]
  · rw [List.getElem?_append_right (by simpa using write), List.getElem?_replicate, List.length_map]
    by_cases read : k - t.wdata.length < t.r.toNat
    · rw [if_pos read, if_pos (by omega), if_neg (by simpa using write)]
    · rw [if_neg read, if_neg (by omega)]

/-- Unit `k` of a transaction (R209). -/
theorem buildUnits_getElem? (t : Txn) (k : Nat) :
    (buildUnits t)[k]? = if k < t.wdata.length + t.r.toNat then
      some (unitOf (decide (k < t.wdata.length)) (decide (k = 0)) (decide (0 < t.r.toNat ∧ k = t.wdata.length))
        (decide (k = t.wdata.length + t.r.toNat - 1)) (t.wdata.getD k 0)) else none := by
  have read_started (us : List CmdUnit) : (if 0 < t.r.toNat then orUnit t.w cuRestart us else us)[k]? =
      us[k]?.map (fun u => u ||| flagIf (decide (0 < t.r.toNat ∧ k = t.wdata.length)) cuRestart) := by
    split
    case isTrue reads => rw [orUnit_getElem?]; simp only [reads, true_and]; rfl
    case isFalse no_read => simp [no_read, flagIf]
  rw [buildUnits, orUnit_getElem?, read_started, orUnit_getElem?, plainUnits_getElem?]
  split <;> rfl

theorem buildUnits_length (t : Txn) : (buildUnits t).length = t.units := by
  have length_orUnit (i : Nat) (flag : CmdUnit) (us : List CmdUnit) : (orUnit i flag us).length = us.length :=
    List.length_modify ..
  unfold buildUnits Txn.units Txn.w
  rw [length_orUnit]
  split <;> simp [length_orUnit]

/-- Settles O45: `buildUnits_getElem?` gives unit `k`, and its fields are read off. -/
theorem unitsCarryTheirFlags : Obligations.UnitsCarryTheirFlags := by
  unfold Obligations.UnitsCarryTheirFlags
  intro t nonempty
  refine ⟨buildUnits_length t, fun k u hu => ?_⟩
  rw [buildUnits_getElem?] at hu
  split at hu
  case isFalse => cases hu
  case isTrue inside =>
    obtain rfl := Option.some.inj hu
    obtain ⟨data, read, stop, restart, rest⟩ := unitOf_fields (decide (k < t.wdata.length)) (decide (k = 0))
      (decide (0 < t.r.toNat ∧ k = t.wdata.length)) (decide (k = t.wdata.length + t.r.toNat - 1)) (t.wdata.getD k 0)
    refine ⟨data.trans ?data, read.trans ?read, stop.trans ?stop, restart.trans ?restart, rest⟩
    case data =>
      split
      case isTrue => rfl
      case isFalse past_end => rw [List.getD_eq_default _ _ (by simpa using past_end)]
    case read => rw [← decide_not, decide_eq_decide, not_lt]
    case stop => exact decide_eq_decide.2 (by omega)
    case restart => exact congrArg _ (decide_eq_decide.2 (by omega))

end Sys2Proof.Proofs
end

section
/-! Whole runs of the encoder: phases move one step at a time, a vector runs to its end, and a handoff may lose motion
(41_quadrature.md R131 to R142). -/

namespace Sys2Proof.Proofs

open Sys2Proof.Machine Sys2Proof.Claims

/-! ## One step and the phases (R134, R139) -/

/-- The phase of an axis after an iteration (R139). -/
def phaseAfter (divisor : Nat) (p : BitVec 2) (c : Byte) : BitVec 2 :=
  if AxisMoves divisor c then phaseStepped p c else p

theorem phaseAfter_adjacent (divisor : Nat) (p : BitVec 2) (c : Byte) :
    phaseAfter divisor p c = p ∨ phaseAfter divisor p c = p + 1 ∨ phaseAfter divisor p c = p - 1 := by
  unfold phaseAfter phaseStepped
  split
  · split
    · exact .inr (.inr rfl)
    · exact .inr (.inl rfl)
  · exact .inl rfl

/-- What an iteration does to the encoder's own registers (R138 to R140). -/
theorem encStep_run_enc {s : State} (h : s.enc.state = .run) (hne : s.enc.remx ≠ 0 ∨ s.enc.remy ≠ 0) :
    (encStep s).enc = { state := .check, remx := towardZero s.enc.remx, remy := towardZero s.enc.remy,
                        phx := phaseAfter s.cfg.encDivisor s.enc.phx s.enc.remx,
                        phy := phaseAfter s.cfg.encDivisor s.enc.phy s.enc.remy } := by
  rw [encStep_run_iterates h hne, Laws.encIteration_eq]
  simp only [phase_of_advance]
  rfl

/-- Only an iteration moves a phase. -/
theorem encStep_phases_of_ne_run {s : State} (h : s.enc.state ≠ .run) :
    (encStep s).enc.phx = s.enc.phx ∧ (encStep s).enc.phy = s.enc.phy := by
  cases hs : s.enc.state with
  | clr => rw [encStep_clr hs]; exact ⟨rfl, rfl⟩
  | takex => rw [encStep_takex hs]; exact ⟨rfl, rfl⟩
  | takey => rw [encStep_takey hs]; exact ⟨rfl, rfl⟩
  | run => exact absurd hs h
  | check => rw [encStep_check hs]; exact ⟨rfl, rfl⟩

/-- A step leaves the phases alone, or it is an iteration. -/
theorem encStep_phases (s : State) :
    ((encStep s).enc.phx = s.enc.phx ∧ (encStep s).enc.phy = s.enc.phy) ∨
      ((encStep s).enc.phx = phaseAfter s.cfg.encDivisor s.enc.phx s.enc.remx ∧
        (encStep s).enc.phy = phaseAfter s.cfg.encDivisor s.enc.phy s.enc.remy) := by
  by_cases h : s.enc.state = .run
  · by_cases done : s.enc.remx = 0 ∧ s.enc.remy = 0
    · rw [encStep_run_done h done.1 done.2]; exact .inl ⟨rfl, rfl⟩
    · rw [encStep_run_enc h (not_and_or.1 done)]; exact .inr ⟨rfl, rfl⟩
  · exact .inl (encStep_phases_of_ne_run h)

/-- Settles O34: the table is checked row by row; a step that moves a phase is an iteration, which moves it by one. -/
theorem phaseNeverSkips : Obligations.PhaseNeverSkips := by
  unfold Obligations.PhaseNeverSkips
  refine ⟨rfl, rfl, rfl, rfl, by decide, fun s => ⟨?phx, ?phy, encStep_phases_of_ne_run⟩⟩
  case phx =>
    rcases encStep_phases s with ⟨kept, -⟩ | ⟨moved, -⟩
    · exact .inl kept
    · rw [moved]; exact phaseAfter_adjacent _ _ _
  case phy =>
    rcases encStep_phases s with ⟨-, kept⟩ | ⟨-, moved⟩
    · exact .inl kept
    · rw [moved]; exact phaseAfter_adjacent _ _ _

/-! ## The count of an axis (R142) -/

/-- 1 where the condition holds, else 0. -/
def once (c : Prop) [Decidable c] : Nat := if c then 1 else 0

/-- An iteration that moves the phase uses up one multiple of the divisor. -/
theorem div_eq_div_toward_add (divisor : Nat) (c : Byte) :
    c.toInt.natAbs / divisor = (towardZero c).toInt.natAbs / divisor + once (AxisMoves divisor c) := by
  rw [Laws.toward_natAbs]
  by_cases hc : c = 0
  · simp [hc, once, AxisMoves]
  · have magnitude : c.toInt.natAbs ≠ 0 := fun e => hc (BitVec.eq_of_toInt_eq (Int.natAbs_eq_zero.1 e))
    obtain ⟨m, hm⟩ := Nat.exists_eq_succ_of_ne_zero magnitude
    have moves_iff : AxisMoves divisor c ↔ divisor ∣ m + 1 := by
      rw [AxisMoves, Int.natCast_dvd, hm]
      exact and_iff_right hc
    simp only [once, moves_iff, hm, Nat.succ_eq_add_one, Nat.succ_div, Nat.add_sub_cancel]

/-- Nearer to zero is zero, or it has the same sign. -/
theorem towardZero_sign : ∀ c : Byte, towardZero c = 0 ∨ sign (towardZero c) = sign c := by decide +kernel

/-- The steps still to go from the remainder one nearer to zero are in the sign of `c`. -/
theorem phaseMoved_toward (divisor : Nat) (p : BitVec 2) (c : Byte) :
    phaseMoved p (towardZero c) ((towardZero c).toInt.natAbs / divisor) =
      phaseMoved p c ((towardZero c).toInt.natAbs / divisor) := by
  rcases towardZero_sign c with zero | same
  · simp [phaseMoved, zero]
  · rw [phaseMoved, same, phaseMoved]

/-- One step, and then the others. -/
theorem phaseMoved_phaseAfter (divisor : Nat) (p : BitVec 2) (c : Byte) (n : Nat) :
    phaseMoved (phaseAfter divisor p c) c n = phaseMoved p c (n + once (AxisMoves divisor c)) := by
  unfold phaseAfter once
  split
  case isTrue moves =>
    have stepped : phaseStepped p c = p + BitVec.ofInt 2 (sign c) := (Laws.nextPhase_eq p c moves.1).symm
    rw [stepped, phaseMoved, phaseMoved, Nat.cast_add, mul_add, BitVec.ofInt_add, Nat.cast_one, mul_one, add_assoc,
      add_comm (BitVec.ofInt 2 (sign c))]
  case isFalse => rfl

/-! ## Events of an iteration -/

/-- The waits of ENC so far. -/
def encWaits (s : State) : Nat := (s.trace.filter (fun e => e.event == .wait .enc 300)).length

theorem pinEvents_axisDriven (p : Pin) (ax : Axis) (a q : Drive) (s : State) :
    pinEvents p (axisDriven ax a q s) = pinEvents p s + once (p = ax.lineA) + once (p = ax.lineQ) := by
  simp only [pinEvents, axisDriven, traced, driven, List.filter_append, List.length_append, List.map_cons, List.map_nil,
    List.filter_cons, List.filter_nil, once, beq_iff_eq, @eq_comm _ _ p]
  split <;> split <;> rfl

theorem encWaits_axisDriven (ax : Axis) (a q : Drive) (s : State) : encWaits (axisDriven ax a q s) = encWaits s := by
  simp [encWaits, axisDriven, traced, driven]

/-- What an axis does to lines and events in an iteration (R139). -/
def axisIterated (ax : Axis) (divisor : Nat) (p : BitVec 2) (c : Byte) (s : State) : State :=
  if AxisMoves divisor c then axisDriven ax (phaseLines (phaseStepped p c)).1 (phaseLines (phaseStepped p c)).2 s else s

theorem pinEvents_axisIterated (l : Pin) (ax : Axis) (divisor : Nat) (p : BitVec 2) (c : Byte) (s : State) :
    pinEvents l (axisIterated ax divisor p c s) =
      pinEvents l s + once (AxisMoves divisor c) * (once (l = ax.lineA) + once (l = ax.lineQ)) := by
  unfold axisIterated
  split
  case isTrue moves => simp only [pinEvents_axisDriven, once, if_pos moves]; omega
  case isFalse still => simp only [once, if_neg still]; omega

theorem encWaits_axisIterated (ax : Axis) (divisor : Nat) (p : BitVec 2) (c : Byte) (s : State) :
    encWaits (axisIterated ax divisor p c s) = encWaits s := by
  unfold axisIterated
  split
  · exact encWaits_axisDriven ..
  · rfl

/-- An iteration's lines and events: X, then Y, then the wait (R138). -/
theorem encStep_run_trace {s : State} (h : s.enc.state = .run) (hne : s.enc.remx ≠ 0 ∨ s.enc.remy ≠ 0) :
    (encStep s).trace = (axisIterated .y s.cfg.encDivisor s.enc.phy s.enc.remy
      (axisIterated .x s.cfg.encDivisor s.enc.phx s.enc.remx s)).trace ++ [⟨.enc, .wait .enc 300⟩] := by
  rw [encStep_run_iterates h hne, Laws.encIteration_eq]
  simp only [phase_of_advance, lines_of_advance]
  rfl

/-! ## The whole vector (R142) -/

/-- The vector of `s` has run to its end in `t`: both remainders are used up, each phase has moved by the multiples of
the divisor in its remainder, with one event on either line of its axis, and ENC has waited once per iteration. -/
structure VectorRan (n : Nat) (s t : State) : Prop where
  enc : t.enc = { state := .run, remx := 0, remy := 0,
                  phx := phaseMoved s.enc.phx s.enc.remx (s.enc.remx.toInt.natAbs / s.cfg.encDivisor),
                  phy := phaseMoved s.enc.phy s.enc.remy (s.enc.remy.toInt.natAbs / s.cfg.encDivisor) }
  mv : t.mv = s.mv
  events : ∀ l, pinEvents l t = pinEvents l s +
    s.enc.remx.toInt.natAbs / s.cfg.encDivisor * (once (l = Axis.x.lineA) + once (l = Axis.x.lineQ)) +
    s.enc.remy.toInt.natAbs / s.cfg.encDivisor * (once (l = Axis.y.lineA) + once (l = Axis.y.lineQ))
  waits : encWaits t = encWaits s + n

/-- The state after an iteration and the check behind it, with no fresh motion. -/
structure Iterated (s u : State) : Prop where
  enc : u.enc = { state := .run, remx := towardZero s.enc.remx, remy := towardZero s.enc.remy,
                  phx := phaseAfter s.cfg.encDivisor s.enc.phx s.enc.remx,
                  phy := phaseAfter s.cfg.encDivisor s.enc.phy s.enc.remy }
  mv : u.mv = s.mv
  cfg : u.cfg = s.cfg
  events : ∀ l, pinEvents l u = pinEvents l s +
    once (AxisMoves s.cfg.encDivisor s.enc.remx) * (once (l = Axis.x.lineA) + once (l = Axis.x.lineQ)) +
    once (AxisMoves s.cfg.encDivisor s.enc.remy) * (once (l = Axis.y.lineA) + once (l = Axis.y.lineQ))
  waits : encWaits u = encWaits s + 1

/-- An iteration leaves the Motion Vector to PRI. -/
theorem encStep_run_mv {s : State} (h : s.enc.state = .run) (hne : s.enc.remx ≠ 0 ∨ s.enc.remy ≠ 0) :
    (encStep s).mv = s.mv := by
  have advanced (ax : Axis) (u : State) : (axisAdvance ax u).mv = u.mv := by unfold axisAdvance; split <;> rfl
  rw [encStep_run_iterates h hne]
  simp only [setEncState, encIteration, wait_mv, axisDecrement, advanced]

theorem iterated_encSteps {s : State} (h : s.enc.state = .run) (hne : s.enc.remx ≠ 0 ∨ s.enc.remy ≠ 0)
    (no_motion : s.mv.flag = false) : Iterated s (encSteps 2 s) := by
  have enc_eq := encStep_run_enc h hne
  have mv_eq := encStep_run_mv h hne
  have at_check : (encStep s).enc.state = .check := by rw [enc_eq]
  have steps : encSteps 2 s = { encStep s with enc := { (encStep s).enc with state := .run } } := by
    show encStep (encStep s) = _
    rw [encStep_check at_check, mv_eq, no_motion, if_neg Bool.false_ne_true, ← mv_eq]
  rw [steps]
  refine ⟨by rw [enc_eq], mv_eq, ?cfg, fun l => ?events, ?waits⟩
  case cfg => rw [encStep_frame]
  case events =>
    have trace_eq : pinEvents l (encStep s) = pinEvents l (axisIterated .y s.cfg.encDivisor s.enc.phy s.enc.remy
        (axisIterated .x s.cfg.encDivisor s.enc.phx s.enc.remx s)) := by
      simp [pinEvents, encStep_run_trace h hne]
    exact trace_eq.trans (by rw [pinEvents_axisIterated, pinEvents_axisIterated])
  case waits =>
    have trace_eq : encWaits (encStep s) = encWaits (axisIterated .y s.cfg.encDivisor s.enc.phy s.enc.remy
        (axisIterated .x s.cfg.encDivisor s.enc.phx s.enc.remx s)) + 1 := by
      simp [encWaits, encStep_run_trace h hne]
    exact trace_eq.trans (by rw [encWaits_axisIterated, encWaits_axisIterated])

/-- An iteration, and then the rest of the vector. -/
theorem VectorRan.of_iterated {n : Nat} {s u t : State} (first : Iterated s u) (rest : VectorRan n u t) :
    VectorRan (n + 1) s t := by
  obtain ⟨enc, mv, events, waits⟩ := rest
  simp only [first.enc, first.cfg, phaseMoved_toward, phaseMoved_phaseAfter,
    ← div_eq_div_toward_add] at enc events
  refine ⟨enc, mv.trans first.mv, fun l => ?_, by rw [waits, first.waits]; omega⟩
  rw [events l, first.events l, div_eq_div_toward_add _ s.enc.remx, div_eq_div_toward_add _ s.enc.remy]
  ring

theorem vectorRan_encSteps (n : Nat) {s : State} (h : s.enc.state = .run) (no_motion : s.mv.flag = false)
    (hn : max s.enc.remx.toInt.natAbs s.enc.remy.toInt.natAbs = n) :
    VectorRan n s (encSteps (2 * n) s) := by
  induction n generalizing s with
  | zero =>
    have zero_of (c : Byte) (hc : c.toInt.natAbs = 0) : c = 0 := BitVec.eq_of_toInt_eq (Int.natAbs_eq_zero.1 hc)
    have hx : s.enc.remx = 0 := zero_of _ (by omega)
    have hy : s.enc.remy = 0 := zero_of _ (by omega)
    refine ⟨?enc, rfl, fun l => by simp [hx, hy, encSteps], rfl⟩
    show s.enc = _
    rw [hx, hy]
    have unmoved (p : BitVec 2) : phaseMoved p 0 ((0 : Byte).toInt.natAbs / s.cfg.encDivisor) = p := by
      simp [phaseMoved]
    rw [unmoved, unmoved]
    cases registers : s.enc
    simp_all
  | succ n ih =>
    have hne : s.enc.remx ≠ 0 ∨ s.enc.remy ≠ 0 := by
      by_contra none_left
      push Not at none_left
      rw [none_left.1, none_left.2] at hn
      exact absurd hn (by simp)
    have first := iterated_encSteps h hne no_motion
    have split : encSteps (2 * (n + 1)) s = encSteps (2 * n) (encSteps 2 s) :=
      Function.iterate_add_apply encStep (2 * n) 2 s
    rw [split]
    refine .of_iterated first (ih ?run ?flag ?left)
    case run => rw [first.enc]
    case flag => rw [first.mv, no_motion]
    case left => simp only [first.enc, Laws.toward_natAbs]; omega

/-- Settles O35: the longer axis gives the number of iterations. -/
theorem vectorRunsToCompletion : Obligations.VectorRunsToCompletion := by
  unfold Obligations.VectorRunsToCompletion
  intro s h no_motion _
  obtain ⟨enc, mv, events, waits⟩ := vectorRan_encSteps _ h no_motion rfl
  refine ⟨enc, mv, ⟨?mxa, ?mxq, ?mya, ?myq⟩, waits⟩
  case mxa => simpa [once, Axis.lineA, Axis.lineQ] using events .mxa
  case mxq => simpa [once, Axis.lineA, Axis.lineQ] using events .mxq
  case mya => simpa [once, Axis.lineA, Axis.lineQ] using events .mya
  case myq => simpa [once, Axis.lineA, Axis.lineQ] using events .myq

end Sys2Proof.Proofs
end

section
/-! Schedules that give PRI its next atomic steps and then let another agent in (20_memory.md R78, log 1). -/

namespace Sys2Proof.Proofs

open Sys2Proof.Machine Sys2Proof.Claims

/-- The state with this schedule. -/
def withTape (ts : List Turn) (s : State) : State := { s with tape := ts }

theorem withTape_self {s : State} {ts : List Turn} (h : s.tape = ts) : withTape ts s = s := by
  subst h; rfl

theorem withTape_withTape (ts us : List Turn) (s : State) : withTape ts (withTape us s) = withTape ts s := rfl

/-- A state in which no completion is pending is quiet but for its schedule. -/
theorem settled_withTape_nil {s : State} (cut : s.cut = false) (halted : s.halted = false)
    (pending : s.pending = false) : (withTape [] s).Settled := ⟨rfl, cut, halted, pending⟩

/-- A turn of PRI lets its atomic step go first. -/
theorem boundary_main {s : State} (h : s.Settled) (ts : List Turn) :
    boundary (withTape (.main :: ts) s) = withTape ts s := by
  have lives : (withTape (.main :: ts) s).live = true := h.live
  have not_ready : (withTape ts s).irqReady = false := h.not_ready
  unfold boundary
  rw [if_pos lives]
  show takeInterrupt _ (withTape ts s) = _
  unfold takeInterrupt
  simp [not_ready]

/-- An action that reads and writes no schedule and leaves a quiet state quiet. -/
structure Untimed (a : State → State) : Prop where
  tape : ∀ ts s, a (withTape ts s) = withTape ts (a s)
  quiet : ∀ s : State, s.Settled → (a s).Settled

theorem act_main {s : State} (h : s.Settled) {a : State → State} (ha : Untimed a) (ts : List Turn) :
    Actor.pri.act a (withTape (.main :: ts) s) = withTape ts (a s) := by
  have lives : (withTape ts s).live = true := h.live
  have pre : Actor.pri.pre (withTape (.main :: ts) s) = withTape ts s := boundary_main h ts
  rw [Actor.act, pre, if_pos lives, ha.tape]

/-- The actions one after the other. -/
def actions (as : List (State → State)) (s : State) : State := as.foldl (fun t a => a t) s

theorem settled_actions {as : List (State → State)} (ha : ∀ a ∈ as, Untimed a) {s : State} (h : s.Settled) :
    (actions as s).Settled := (run_of_settled (fun a mem => (ha a mem).quiet) h).2

/-- A turn of PRI for each atomic step, and the rest of the schedule is still to come. -/
theorem run_mains {as : List (State → State)} (ha : ∀ a ∈ as, Untimed a) {s : State} (h : s.Settled)
    (ts : List Turn) :
    Actor.pri.run as (withTape (List.replicate as.length .main ++ ts) s) = withTape ts (actions as s) := by
  induction as generalizing s with
  | nil => rfl
  | cons a as ih =>
    have first := ha a List.mem_cons_self
    rw [List.length_cons, List.replicate_succ, List.cons_append, Actor.run_cons, act_main h first]
    exact ih (fun b mem => ha b (List.mem_cons_of_mem _ mem)) (first.quiet s h)

end Sys2Proof.Proofs
end

section
/-! The hazard of the handoff: motion that is taken between the vector's stores and the flag's store is lost
(41_quadrature.md R133, 70_reset_and_hazards.md R304). -/

namespace Sys2Proof.Proofs

open Sys2Proof.Machine Sys2Proof.Claims

/-- The report's atomic steps before the flag's store. -/
def storesBeforeFlag (dx dy : Byte) : List (State → State) :=
  applyButtons 0 ++ [fun s => { s with mv := { s.mv with dx := dx } }, fun s => { s with mv := { s.mv with dy := dy } }]

theorem untimed_storesBeforeFlag (dx dy : Byte) : ∀ a ∈ storesBeforeFlag dx dy, Untimed a := by
  intro a ha
  simp only [storesBeforeFlag, applyButtons, List.mem_append, List.mem_cons, List.not_mem_nil, or_false] at ha
  rcases ha with (rfl | rfl | rfl) | rfl | rfl <;>
    exact ⟨fun _ _ => rfl, fun _ h => Laws.settled_congr' h⟩

/-- Setting the flag, the report's last store (R133). -/
def setFlag (s : State) : State := { s with mv := { s.mv with flag := true } }

/-- The report's atomic steps are the stores and the flag's store. -/
theorem msReport_steps {dx dy : Byte} (motion : ¬ (dx = 0 ∧ dy = 0)) :
    applyButtons 0 ++ (if dx != 0 || dy != 0 then mvWrite dx dy else []) = storesBeforeFlag dx dy ++ [setFlag] := by
  rw [if_pos ((has_motion_iff dx dy).2 motion)]
  rfl

/-- ENC has taken both fields of the vector. -/
def vectorTaken (s : State) : State :=
  { s with mv := { s.mv with dx := 0, dy := 0 },
           enc := { s.enc with state := .run, remx := s.mv.dx, remy := s.mv.dy } }

/-- Two turns of ENC at PRI's step boundary take the vector (R136, R137). -/
theorem boundary_takes_vector {s : State} (h : s.Settled) (at_takex : s.enc.state = .takex) :
    boundary (withTape [.enc, .enc] s) = vectorTaken s := by
  have lives : (withTape [.enc, .enc] s).live = true := h.live
  have taken_quiet : (vectorTaken s).Settled := Laws.settled_congr' h
  have taken : turns (withTape [.enc, .enc] s) = vectorTaken s := by
    have first : encStep (withTape [.enc, .enc] s) =
        { withTape [.enc, .enc] s with mv := { s.mv with dx := 0 },
                                       enc := { s.enc with state := .takey, remx := s.mv.dx } } := encStep_takex at_takex
    show withTape [] (encStep (encStep (withTape [.enc, .enc] s))) = _
    rw [first, encStep_takey rfl]
    have no_turns := h.tape
    cases s
    simp_all [withTape, vectorTaken]
  unfold boundary
  rw [if_pos lives, taken]
  unfold takeInterrupt
  simp [taken_quiet.not_ready]

/-- The report under this schedule: the flag is set over the vector that ENC has emptied. -/
theorem exec_msReport_taken {s : State} (h : s.Settled) {dx dy : Byte} (motion : ¬ (dx = 0 ∧ dy = 0))
    (at_takex : s.enc.state = .takex) :
    exec (.msReport 0 dx dy) (withTape [.main, .main, .main, .main, .main, .enc, .enc] s) =
      .next (consumed 1 (setFlag (vectorTaken (actions (storesBeforeFlag dx dy) s)))) := by
  have stored_quiet := settled_actions (untimed_storesBeforeFlag dx dy) h
  have stored := run_mains (untimed_storesBeforeFlag dx dy) h [.enc, .enc]
  have taken := boundary_takes_vector stored_quiet
    (show (actions (storesBeforeFlag dx dy) s).enc.state = .takex from at_takex)
  have taken_quiet : (vectorTaken (actions (storesBeforeFlag dx dy) s)).Settled := Laws.settled_congr' stored_quiet
  have flag_quiet : (setFlag (vectorTaken (actions (storesBeforeFlag dx dy) s))).Settled :=
    Laws.settled_congr' stored_quiet
  have flagged : Actor.pri.act setFlag (withTape [.enc, .enc] (actions (storesBeforeFlag dx dy) s)) =
      setFlag (vectorTaken (actions (storesBeforeFlag dx dy) s)) := by
    have pre : Actor.pri.pre (withTape [.enc, .enc] (actions (storesBeforeFlag dx dy) s)) = _ := taken
    rw [Actor.act, pre, if_pos taken_quiet.live]
  rw [exec, execMsReport, msReport_steps motion, Actor.run_append]
  refine congrArg _ (Eq.trans ?_ (endCommand_eq_consumed flag_quiet 1))
  exact congrArg _ ((congrArg (Actor.pri.run [setFlag]) stored).trans flagged)

/-- A set flag over an empty vector makes ENC abandon what it has (R141): at the check it starts again, and takes
nothing. -/
theorem encSteps_abandon {u : State} (running : u.enc.state = .run) (left : u.enc.remx ≠ 0 ∨ u.enc.remy ≠ 0)
    (flag_over_empty : u.mv = ⟨0, 0, true⟩) :
    (encSteps 2 u).enc.state = .clr ∧ (encSteps 4 u).enc.remx = 0 ∧ (encSteps 5 u).enc.remy = 0 := by
  have at_check : (encStep u).enc.state = .check := by rw [encStep_run_enc running left]
  have mv_eq : (encStep u).mv = ⟨0, 0, true⟩ := (encStep_run_mv running left).trans flag_over_empty
  have restarted : encSteps 2 u = { encStep u with enc := { (encStep u).enc with state := .clr } } := by
    show encStep (encStep u) = _
    rw [encStep_check at_check, mv_eq, if_pos rfl, ← mv_eq]
  have at_clr : (encSteps 2 u).enc.state = .clr := by rw [restarted]
  have taken : encSteps 5 u = encStep (encSteps 4 u) ∧ encSteps 4 u = encStep (encStep (encSteps 2 u)) := ⟨rfl, rfl⟩
  have cleared := encStep_clr at_clr
  have first : encSteps 4 u = { encSteps 2 u with
      mv := ⟨0, 0, false⟩, enc := { (encSteps 2 u).enc with state := .takey, remx := 0 } } := by
    have mv_two : (encSteps 2 u).mv = ⟨0, 0, true⟩ := by rw [restarted]; exact mv_eq
    rw [taken.2, cleared, encStep_takex rfl, mv_two]
  refine ⟨at_clr, by rw [first], ?_⟩
  rw [taken.1, encStep_takey (by rw [first]), first]

/-- Settles O36: the run of the report under the schedule, and ENC's steps behind it. -/
theorem handoffMayLoseMotion : Obligations.HandoffMayLoseMotion := by
  unfold Obligations.HandoffMayLoseMotion
  intro s dx dy motion cut halted pending at_takex tape
  have quiet : (withTape [] s).Settled := settled_withTape_nil cut halted pending
  have runs := exec_msReport_taken quiet motion at_takex
  rw [withTape_withTape, withTape_self tape] at runs
  refine ⟨_, runs, rfl, rfl, ?_⟩
  exact encSteps_abandon rfl (not_and_or.1 motion) rfl

end Sys2Proof.Proofs
end

section
/-! BQ_INIT on a stuck bus (43_bus_queue.md R221 to R224), with the levels held and with SDA let go in the middle of the
recovery. -/

namespace Sys2Proof.Proofs

open Sys2Proof.Machine Sys2Proof.Claims

/-! ## A schedule that lets SDA go after `n` atomic steps -/

/-- ENV lets SDA go HIGH. -/
def letGo (s : State) : State := { s with ext := s.ext.set 11 .high }

/-- `n` atomic steps of PRI come before the turn in which ENV lets SDA go. -/
def letGoAfter (n : Nat) (s : State) : State := withTape (List.replicate n .main ++ [.env (.level .sda .high)]) s

theorem settled_letGo {s : State} (h : s.Settled) : (letGo s).Settled := Laws.settled_congr' h

theorem boundary_letGoAfter_succ {s : State} (h : s.Settled) (n : Nat) :
    Actor.pri.pre (letGoAfter (n + 1) s) = letGoAfter n s := boundary_main h _

theorem boundary_letGoAfter_zero {s : State} (h : s.Settled) : Actor.pri.pre (letGoAfter 0 s) = letGo s := by
  have lives : (letGoAfter 0 s).live = true := h.live
  have turned : turns (letGoAfter 0 s) = letGo s := by
    show withTape [] (letGo s) = letGo s
    exact withTape_self h.tape
  show boundary _ = _
  unfold boundary
  rw [if_pos lives, turned]
  unfold takeInterrupt
  simp [(settled_letGo h).not_ready]

/-- Fewer atomic steps than come before the turn. -/
theorem run_letGoAfter {as : List (State → State)} (ha : ∀ a ∈ as, Untimed a) {s : State} (h : s.Settled) (n : Nat) :
    Actor.pri.run as (letGoAfter (as.length + n) s) = letGoAfter n (actions as s) := by
  unfold letGoAfter
  rw [List.replicate_add, List.append_assoc, run_mains ha h]

/-- As many atomic steps as come before the turn, or more, and what comes before the next one: SDA has been let go, and
the actions, which do not look at it, have run. -/
theorem pre_run_letGoAfter {as : List (State → State)} (ha : ∀ a ∈ as, Untimed a ∧ ∀ s, a (letGo s) = letGo (a s))
    {s : State} (h : s.Settled) {n : Nat} (hn : n ≤ as.length) :
    Actor.pri.pre (Actor.pri.run as (letGoAfter n s)) = letGo (actions as s) := by
  induction as generalizing s n with
  | nil =>
    obtain rfl : n = 0 := Nat.le_zero.1 hn
    exact boundary_letGoAfter_zero h
  | cons a as ih =>
    obtain ⟨untimed, blind⟩ := ha a List.mem_cons_self
    have rest := fun b mem => ha b (List.mem_cons_of_mem _ mem)
    cases n with
    | succ n =>
      have first : Actor.pri.act a (letGoAfter (n + 1) s) = letGoAfter n (a s) := act_main h untimed _
      rw [Actor.run_cons, first]
      exact ih rest (untimed.quiet s h) (Nat.le_of_succ_le_succ hn)
    | zero =>
      have first : Actor.pri.act a (letGoAfter 0 s) = letGo (a s) := by
        rw [Actor.act, boundary_letGoAfter_zero h, if_pos (settled_letGo h).live, blind]
      have later : ∀ bs : List (State → State), (∀ b ∈ bs, Untimed b ∧ ∀ s, b (letGo s) = letGo (b s)) →
          ∀ u : State, actions bs (letGo u) = letGo (actions bs u) := by
        intro bs
        induction bs with
        | nil => exact fun _ _ => rfl
        | cons b bs ihb =>
          intro hb u
          show actions bs (b (letGo u)) = _
          rw [(hb b List.mem_cons_self).2, ihb fun c mem => hb c (List.mem_cons_of_mem _ mem)]
          rfl
      have quiet := settled_letGo (untimed.quiet s h)
      obtain ⟨run_eq, run_quiet⟩ := run_of_settled (fun b mem => (rest b mem).1.quiet) quiet
      rw [Actor.run_cons, first, run_eq, pri_pre_of_settled run_quiet]
      exact later as rest (a s)

/-! ## The parts of BusInit under that schedule (R221, R222) -/

theorem untimed_recoveryCycle : ∀ a ∈ recoveryCycle .pri, Untimed a ∧ ∀ s, a (letGo s) = letGo (a s) := by
  intro a ha
  simp only [recoveryCycle, List.mem_cons, List.not_mem_nil, or_false] at ha
  rcases ha with rfl | rfl | rfl | rfl <;>
    exact ⟨⟨fun _ _ => rfl, fun _ h => Laws.settled_congr' h⟩, fun _ => rfl⟩

theorem untimed_floatSteps : ∀ a ∈ floatSteps .pri, Untimed a := by
  intro a ha
  simp only [floatSteps, List.mem_cons, List.not_mem_nil, or_false] at ha
  rcases ha with rfl | rfl | rfl | rfl <;> exact ⟨fun _ _ => rfl, fun _ h => Laws.settled_congr' h⟩

theorem untimed_raiseLog {b : FaultBit} (hb : b ≠ .halted) (k : LogKind) :
    ∀ a ∈ [raise b, emit .pri (.log k)], Untimed a := by
  intro a ha
  simp only [List.mem_cons, List.not_mem_nil, or_false] at ha
  rcases ha with rfl | rfl
  · exact ⟨fun _ _ => rfl, fun s h => Laws.settled_congr' h rfl rfl (Laws.halted_raise s b hb)⟩
  · exact ⟨fun _ _ => rfl, fun _ h => Laws.settled_congr' h⟩

/-- Both bus lines are let go by the block, so that they read as ENV has them (40_pin_driver.md R112). -/
structure BusReleased (s : State) : Prop where
  scl : s.pins.drive[10] = .released
  sda : s.pins.drive[11] = .released

theorem BusReleased.sample_sda {s : State} (h : BusReleased s) : sample .sda s = s.ext[11] :=
  Laws.sample_released (p := .sda) h.sda

theorem BusReleased.of_pins {s t : State} (h : BusReleased s) (same : t.pins = s.pins := by rfl) : BusReleased t :=
  ⟨by rw [same]; exact h.scl, by rw [same]; exact h.sda⟩

theorem traced_traced (ag : Agent) (evs later : List Event) (s : State) :
    traced ag later (traced ag evs s) = traced ag (evs ++ later) s := by
  simp [traced]

/-- One recovery cycle's actions on a released bus. -/
theorem actions_recoveryCycle {s : State} (h : s.Settled) (released : BusReleased s) :
    actions (recoveryCycle .pri) s = traced .pri (Laws.cycleEvents s.cfg.tRecoveryHalf) s := by
  have run_eq := (run_of_settled (fun a mem => (untimed_recoveryCycle a mem).1.quiet) h).1
  exact run_eq.symm.trans (Laws.cycle_run (ag := .pri) rfl h released.scl)

/-- SDA is let go during cycle `k + 1`: the samples before it read LOW, its own reads HIGH (R221). -/
theorem toggleClock_letGoAfter (k fuel : Nat) {s : State} (h : s.Settled) (released : BusReleased s)
    (sda_low : s.ext[11] = .low) {j : Nat} (hj : j ≤ 4) :
    toggleClock .pri (k + 1 + fuel) (letGoAfter (5 * k + j) s) =
      (true, letGo (traced .pri (recoveryEvents s.cfg.tRecoveryHalf (k + 1)) s)) := by
  have cycle := actions_recoveryCycle h released
  induction k generalizing s with
  | zero =>
    have sampled : Actor.pri.pre (Actor.pri.run (recoveryCycle .pri) (letGoAfter j s)) =
        letGo (traced .pri (Laws.cycleEvents s.cfg.tRecoveryHalf) s) := by
      rw [pre_run_letGoAfter untimed_recoveryCycle h hj, cycle]
    have reads_high : sample .sda (letGo (traced .pri (Laws.cycleEvents s.cfg.tRecoveryHalf) s)) = .high := by
      rw [BusReleased.sample_sda released.of_pins]
      exact Vector.getElem_set_self _
    rw [Nat.zero_add, Nat.mul_zero, Nat.zero_add, Nat.add_comm, toggleClock]
    simp only [show Actor.pri.agent = Agent.pri from rfl, sampled, reads_high, if_true]
    rfl
  | succ k ih =>
    have cycled_quiet := settled_traced h .pri (Laws.cycleEvents s.cfg.tRecoveryHalf)
    have count : 5 * (k + 1) + j = (recoveryCycle .pri).length + (5 * k + j + 1) := by
      show _ = 4 + _
      omega
    have sampled : Actor.pri.pre (Actor.pri.run (recoveryCycle .pri) (letGoAfter (5 * (k + 1) + j) s)) =
        letGoAfter (5 * k + j) (traced .pri (Laws.cycleEvents s.cfg.tRecoveryHalf) s) := by
      rw [count, run_letGoAfter (fun a mem => (untimed_recoveryCycle a mem).1) h, cycle,
        boundary_letGoAfter_succ cycled_quiet]
    have reads_low : ¬ sample .sda (letGoAfter (5 * k + j) (traced .pri (Laws.cycleEvents s.cfg.tRecoveryHalf) s)) =
        .high := by
      have still_low : (letGoAfter (5 * k + j) (traced .pri (Laws.cycleEvents s.cfg.tRecoveryHalf) s)).ext[11] = .low :=
        sda_low
      rw [BusReleased.sample_sda released.of_pins, still_low]
      decide
    have rest := ih cycled_quiet released.of_pins sda_low (actions_recoveryCycle cycled_quiet released.of_pins)
    rw [traced_traced] at rest
    rw [Nat.add_right_comm (k + 1) 1 fuel, toggleClock]
    simp only [show Actor.pri.agent = Agent.pri from rfl, sampled, if_neg reads_low]
    exact rest

/-- The state in which the bus is known to be stuck (R221). -/
def stuck (s : State) : State := traced .pri [.log .busStuck] (faulted 2 (Laws.floated .pri s))

theorem settled_floated {s : State} (h : s.Settled) : (Laws.floated .pri s).Settled := Laws.settled_congr' h

theorem settled_stuck {s : State} (h : s.Settled) : (stuck s).Settled :=
  (Laws.raiseLog_settled (settled_floated h) .busStuck (by decide) .busStuck).2

theorem busReleased_floated (s : State) : BusReleased (Laws.floated .pri s) :=
  ⟨by simp [Laws.floated], by simp [Laws.floated]⟩

theorem actions_floatSteps {s : State} (h : s.Settled) : actions (floatSteps .pri) s = Laws.floated .pri s := by
  have run_eq := (run_of_settled (fun a mem => (untimed_floatSteps a mem).quiet) h).1
  exact run_eq.symm.trans (Laws.float_run (ag := .pri) h).1

/-- The probe finds the bus stuck, with `n` atomic steps still to come before SDA is let go (R221). -/
theorem probeAndRecover_letGoAfter {s : State} (h : s.Settled) (sda_low : s.ext[11] = .low) (n : Nat) :
    probeAndRecover .pri (letGoAfter (n + 8) s) =
      let toggled := toggleClock .pri Config.recoveryMaxCycles (letGoAfter n (stuck s))
      if toggled.1 then toggled.2 else Actor.pri.raiseLog .recoveryFailed .recoveryFailed toggled.2 := by
  have float_quiet := settled_floated h
  have floats : Actor.pri.run (floatSteps .pri) (letGoAfter (n + 8) s) = letGoAfter (n + 4) (Laws.floated .pri s) := by
    rw [show n + 8 = (floatSteps .pri).length + (n + 4) by show _ = 4 + _; omega, run_letGoAfter untimed_floatSteps h,
      actions_floatSteps h]
  have reads_low : sample .sda (letGoAfter (n + 2) (Laws.floated .pri s)) = .low :=
    (BusReleased.sample_sda (busReleased_floated s).of_pins).trans sda_low
  have logs : Actor.pri.raiseLog .busStuck .busStuck (letGoAfter (n + 2) (Laws.floated .pri s)) =
      letGoAfter n (stuck s) := by
    rw [Nat.add_comm n 2]
    exact run_letGoAfter (untimed_raiseLog (by decide) .busStuck) float_quiet n
  simp only [probeAndRecover, show Actor.pri.agent = Agent.pri from rfl, floats, boundary_letGoAfter_succ float_quiet,
    if_pos (Or.inr reads_low), recover, logs]

/-- Settles O38: with the levels held by `Laws.busInit_stuck`; with SDA let go, the probe and the first `k - 1` cycles
take 4 + 5 * k atomic steps, and the turn of ENV falls into cycle `k`. -/
theorem bqInitRecovers : Obligations.BqInitRecovers := by
  unfold Obligations.BqInitRecovers
  refine ⟨fun s h no_queue => ?held, ?letGo⟩
  case held =>
    have recovers (stays : s.ext[10] = .low ∨ s.ext[11] = .low) : busInit .pri s = _ :=
      Laws.busInit_stuck (ag := .pri) rfl rfl h stays
    have recovered_quiet (k : Nat) (freed : Bool) : (recovered .pri k freed s).Settled :=
      Laws.quiet_recovered (ag := .pri) h k freed
    refine ⟨fun scl_low sda_high => ?_, fun sda_low => ?_⟩
    · rw [exec_bqInit_of_settled h no_queue, recovers (.inl scl_low), if_pos sda_high,
        endCommand_eq_consumed (recovered_quiet 1 true)]
    · rw [exec_bqInit_of_settled h no_queue, recovers (.inr sda_low), if_neg (by rw [sda_low]; decide),
        endCommand_eq_consumed (recovered_quiet 9 false)]
  case letGo =>
    intro s n k cut halted pending no_queue sda_low one_le le_nine low high tape
    obtain ⟨k, rfl⟩ := Nat.exists_eq_add_of_le' one_le
    obtain ⟨j, rfl⟩ : ∃ j, n = 5 * k + j + 9 := ⟨n - (5 * k + 9), by omega⟩
    have h : (withTape [] s).Settled := settled_withTape_nil cut halted pending
    have start : s = letGoAfter (5 * k + j + 9) (withTape [] s) := by
      rw [letGoAfter, withTape_withTape, withTape_self tape]
    have tests : Actor.pri.pre s = letGoAfter (5 * k + j + 8) (withTape [] s) := by
      conv_lhs => rw [start]
      exact boundary_letGoAfter_succ h _
    have toggles := toggleClock_letGoAfter k (8 - k) (settled_stuck h)
      (s := stuck (withTape [] s)) (busReleased_floated _).of_pins sda_low
      (j := j) (by omega)
    rw [show k + 1 + (8 - k) = Config.recoveryMaxCycles by show _ = 9; omega] at toggles
    have freed_quiet :
        (letGo (traced .pri (recoveryEvents s.cfg.tRecoveryHalf (k + 1)) (stuck (withTape [] s)))).Settled :=
      settled_letGo (settled_traced (settled_stuck h) ..)
    have depth_zero : ¬ 0 < s.bq.depth.toNat := by simp [no_queue]
    have configures := Laws.configure_run (ag := .pri) freed_quiet
    have result : Laws.conf .pri
        (letGo (traced .pri (recoveryEvents s.cfg.tRecoveryHalf (k + 1)) (stuck (withTape [] s)))) =
        recovered .pri (k + 1) true { s with tape := [], ext := s.ext.set 11 .high } := by
      simp [Laws.conf, recovered, letGo, stuck, traced, faulted, Laws.floated, withTape]
    have recovered_quiet : (recovered .pri (k + 1) true { s with tape := [], ext := s.ext.set 11 .high }).Settled :=
      Laws.quiet_recovered (ag := .pri) (settled_letGo h) (k + 1) true
    have inits : busInit .pri (letGoAfter (5 * k + j + 8) (withTape [] s)) =
        recovered .pri (k + 1) true { s with tape := [], ext := s.ext.set 11 .high } := by
      rw [busInit, probeAndRecover_letGoAfter h sda_low, toggles, ← result]
      exact configures
    simp only [exec, execBqInit, tests]
    rw [if_neg (by exact depth_zero), inits, endCommand_eq_consumed recovered_quiet]

end Sys2Proof.Proofs
end

section
/-! The completion handler with nothing else scheduled (43_bus_queue.md R214 to R225, 60_exceptions.md R266). -/

namespace Sys2Proof.Proofs

open Sys2Proof.Machine Sys2Proof.Claims

/-! ## The buffers of the popped transaction (R216, 20_memory.md R73) -/

theorem mem_handles_iff (t : Txn) (h : Nat) : h ∈ t.handles ↔ t.wbuf = some h ∨ t.rbuf = some h := by
  simp only [Txn.handles, List.mem_append, Option.mem_toList]

theorem freed_of_owned {t : Txn} {s u : State} (freed : u.owned = (s.owned.freeOpt t.wbuf).freeOpt t.rbuf) :
    Freed t s u := by
  obtain ⟨live_write, kept_write⟩ := freeOpt_frame s.owned t.wbuf
  obtain ⟨live_read, kept_read⟩ := freeOpt_frame (s.owned.freeOpt t.wbuf) t.rbuf
  refine ⟨fun h mine => ?gone, fun h other => ?sizes, fun h other k hk => ?bytes⟩
  case gone =>
    rw [freed, live_read, live_write]
    rintro ⟨⟨-, not_write⟩, not_read⟩
    exact ((mem_handles_iff t h).1 mine).elim not_write not_read
  case sizes =>
    obtain ⟨not_write, not_read⟩ := not_or.1 (mt (mem_handles_iff t h).2 other)
    rw [freed, (kept_read h not_read).1, (kept_write h not_write).1]
  case bytes =>
    obtain ⟨not_write, not_read⟩ := not_or.1 (mt (mem_handles_iff t h).2 other)
    rw [freed, (kept_read h not_read).2 k hk, (kept_write h not_write).2 k hk]

theorem nextDispatched_owned (rest : List Txn) (s : State) : (nextDispatched rest s).owned = s.owned := by
  cases rest <;> rfl

/-! ## The handler, part by part -/

/-- The handler with the queue empty (R219). -/
theorem completionHandler_of_empty {s : State} (q : Laws.Quiet .isr s) (empty : s.bq.queue = []) :
    completionHandler s = traced .isr [.log .spuriousIrq] (faulted 5 (statusRead s)) := by
  have read_empty : (statusRead s).bq.queue = [] := empty
  have logs := (Laws.Quiet.raiseLog (ag := .isr) rfl (Laws.quiet_statusRead q) .spuriousIrq (by decide) .spuriousIrq).1
  simp only [completionHandler, Laws.status_run q, read_empty]
  exact logs

/-- `Y` is what the handler has made of the state when it pops the head: the status is read, and the fault path, if it
is taken, is over (R214, R215). -/
structure ReadyToPop (s Y : State) (t : Txn) (rest : List Txn) : Prop where
  result : (if (statusRead s).busFaulted then faultPath .isr (statusRead s) else statusRead s) = Y
  quiet : Laws.Quiet .isr Y
  queue : Y.bq.queue = t :: rest
  owned : Y.owned = s.owned

/-- The handler with a transaction queued (R216, R217, R220). -/
theorem completionHandler_of_queued {s Y : State} {t : Txn} {rest : List Txn} (q : Laws.Quiet .isr s)
    (queued : s.bq.queue = t :: rest) (ready : ReadyToPop s Y t rest) :
    completionHandler s = dispatchNext .isr (popped t rest Y) := by
  have read_queued : (statusRead s).bq.queue = t :: rest := queued
  have pops : Actor.isr.act popAndFree Y = popped t rest Y :=
    (ready.quiet.alone.act popAndFree).trans (Laws.popAndFree_eq ready.queue)
  simp only [completionHandler, Laws.status_run q, read_queued, ready.result, pops]

theorem quiet_popped {Y : State} (q : Laws.Quiet .isr Y) (t : Txn) (rest : List Txn) :
    Laws.Quiet .isr (popped t rest Y) := q.congr

/-- A good completion takes no fault path. -/
theorem readyToPop_of_stop {s : State} {t : Txn} {rest : List Txn} (q : Laws.Quiet .isr s)
    (queued : s.bq.queue = t :: rest) (stop : s.bc.stStop = true) (no_abort : s.bc.stAbort = false) :
    ReadyToPop s (statusRead s) t rest := by
  have good : (statusRead s).busFaulted = false := by
    show (s.bc.stAbort || !s.bc.stStop) = false
    rw [stop, no_abort]
    rfl
  exact ⟨by rw [good, if_neg Bool.false_ne_true], Laws.quiet_statusRead q, queued, rfl⟩

/-- The status is read, the fault counted and logged, and the busy channels are aborted: the fault path before BusInit
(R214, R215). -/
def faultHandled (s : State) : State := channelsAborted (faultCounted (statusRead s))

theorem quiet_faultHandled {s : State} (q : Laws.Quiet .isr s) : Laws.Quiet .isr (faultHandled s) :=
  (Laws.busFault_run (Laws.quiet_statusRead q)).2.congr

/-- What the fault path leaves alone of what the handler goes on with. -/
structure FaultFrame (X Y : State) : Prop where
  cfg : Y.cfg = X.cfg
  queue : Y.bq.queue = X.bq.queue
  owned : Y.owned = X.owned

theorem FaultFrame.trans {X Y Z : State} (first : FaultFrame X Y) (second : FaultFrame Y Z) : FaultFrame X Z :=
  ⟨second.cfg.trans first.cfg, second.queue.trans first.queue, second.owned.trans first.owned⟩

theorem faultFrame_faultHandled (s : State) : FaultFrame s (faultHandled s) := by
  constructor <;> simp only [faultHandled, channelsAborted, faultCounted, statusRead, traced, faulted]

theorem faultHandled_ext (s : State) : (faultHandled s).ext = s.ext := by
  simp only [faultHandled, channelsAborted, faultCounted, statusRead, traced, faulted]

theorem faultFrame_configured (X : State) : FaultFrame X (configured .isr X) := ⟨rfl, rfl, rfl⟩

theorem faultFrame_recovered (k : Nat) (freed : Bool) (X : State) : FaultFrame X (recovered .isr k freed X) := by
  cases freed <;> constructor <;> simp only [recovered, traced, faulted, Bool.false_eq_true, if_true, if_false]

/-- A failed completion takes the fault path (R215), whose last part is BusInit. -/
theorem readyToPop_of_fault {s Y : State} {t : Txn} {rest : List Txn} (q : Laws.Quiet .isr s)
    (queued : s.bq.queue = t :: rest) (failed : s.bc.stAbort = true ∨ s.bc.stStop = false)
    (inits : busInit .isr (faultHandled s) = Y) (quiet : Laws.Quiet .isr Y) (frame : FaultFrame s Y) :
    ReadyToPop s Y t rest := by
  have faulted : (statusRead s).busFaulted = true := by
    show (s.bc.stAbort || !s.bc.stStop) = true
    rcases failed with abort | no_stop
    · rw [abort, Bool.true_or]
    · rw [no_stop, Bool.not_false, Bool.or_true]
  obtain ⟨counts, counted_quiet⟩ := Laws.busFault_run (Laws.quiet_statusRead q)
  have path : faultPath .isr (statusRead s) = Y := by
    rw [faultPath, show Actor.isr.agent = Agent.isr from rfl, counts, Laws.abort_eq counted_quiet]
    exact inits
  exact ⟨by rw [faulted, if_pos rfl, path], quiet, frame.queue.trans queued, frame.owned⟩

/-! ## The step in which the handler runs (R266) -/

/-- A handler that ends with nothing scheduled and the command not cut off is the whole step. -/
theorem step_of_handler {s u : State} (hlegal : paramsLegal s.cfg = true) (h : s.Completing) (waiting : Waiting s)
    (handled : completionHandler s = u) (no_turns : u.tape = []) (uncut : u.cut = false) : step s = .next u := by
  rw [Laws.handler_step hlegal h waiting (by rw [handled]; exact no_turns), handled, Laws.cut_self uncut]

/-- The step of a completion whose next transaction, if any, fits. -/
theorem step_of_readyToPop {s Y : State} {t : Txn} {rest : List Txn} (hlegal : paramsLegal s.cfg = true)
    (h : s.Completing) (waiting : Waiting s) (queued : s.bq.queue = t :: rest) (ready : ReadyToPop s Y t rest)
    (fits : nextFits Y.cfg rest) :
    step s = .next (nextDispatched rest (popped t rest Y)) ∧ Freed t s (nextDispatched rest (popped t rest Y)) := by
  obtain ⟨next_eq, next_quiet⟩ := Laws.next_fits (quiet_popped ready.quiet t rest) rest rfl fits
  have handled := (completionHandler_of_queued (Laws.comp_quiet h) queued ready).trans next_eq
  refine ⟨step_of_handler hlegal h waiting handled next_quiet.1 (Laws.quiet_cut next_quiet), freed_of_owned ?_⟩
  rw [nextDispatched_owned, popped, ready.owned]

/-- Settles O46. -/
theorem completionFreesAndDispatchesNext : Obligations.CompletionFreesAndDispatchesNext := by
  unfold Obligations.CompletionFreesAndDispatchesNext
  intro s t rest hlegal h waiting queued stop no_abort fits
  exact step_of_readyToPop hlegal h waiting queued (readyToPop_of_stop (Laws.comp_quiet h) queued stop no_abort) fits

/-- Settles O47: the fault path ends in BusInit, which finds the bus free or stuck. -/
theorem busFaultIsSkipped : Obligations.BusFaultIsSkipped := by
  unfold Obligations.BusFaultIsSkipped
  intro s t rest hlegal h waiting queued failed fits
  have q := Laws.comp_quiet h
  have handled_quiet := quiet_faultHandled q
  have skips {Y : State} (inits : busInit .isr (faultHandled s) = Y) (quiet : Laws.Quiet .isr Y)
      (frame : FaultFrame (faultHandled s) Y) :
      step s = .next (nextDispatched rest (popped t rest Y)) ∧ Freed t s (nextDispatched rest (popped t rest Y)) :=
    have frame_s := (faultFrame_faultHandled s).trans frame
    step_of_readyToPop hlegal h waiting queued (readyToPop_of_fault q queued failed inits quiet frame_s)
      (by rw [frame_s.cfg]; exact fits)
  have stuck (low : s.ext[10] = .low ∨ s.ext[11] = .low) : busInit .isr (faultHandled s) =
      if s.ext[11] = .high then recovered .isr 1 true (faultHandled s) else recovered .isr 9 false (faultHandled s) := by
    rw [← faultHandled_ext s] at low ⊢
    exact Laws.busInit_stuck (ag := .isr) rfl rfl handled_quiet low
  refine ⟨fun scl_high sda_high => ?free, fun scl_low sda_high => ?sclStuck, fun sda_low => ?sdaStuck⟩
  case free =>
    rw [← faultHandled_ext s] at scl_high sda_high
    have inits : busInit .isr (faultHandled s) = configured .isr (faultHandled s) :=
      Laws.busInit_free (ag := .isr) rfl handled_quiet scl_high sda_high
    exact skips inits (Laws.configured_quiet handled_quiet) (faultFrame_configured _)
  case sclStuck =>
    exact skips ((stuck (.inl scl_low)).trans (if_pos sda_high)) (Laws.quiet_recovered handled_quiet 1 true)
      (faultFrame_recovered 1 true _)
  case sdaStuck =>
    have not_high : ¬ s.ext[11] = .high := by rw [sda_low]; decide
    exact skips ((stuck (.inr sda_low)).trans (if_neg not_high)) (Laws.quiet_recovered handled_quiet 9 false)
      (faultFrame_recovered 9 false _)

/-- Settles O48: DispatchNext masks the interrupt and halts. -/
theorem oversizeNextHaltsInHandler : Obligations.OversizeNextHaltsInHandler := by
  unfold Obligations.OversizeNextHaltsInHandler
  intro s t u rest hlegal h waiting queued stop no_abort oversize
  have q := Laws.comp_quiet h
  have ready := readyToPop_of_stop q queued stop no_abort
  have popped_cfg : (popped t (u :: rest) (statusRead s)).cfg = s.cfg := by simp only [popped, statusRead]
  have halts := Laws.next_halts (quiet_popped ready.quiet t (u :: rest)) rfl (by rw [popped_cfg]; exact oversize)
  have halted_frame (p : State) : (haltedBy .isr u p).tape = p.tape ∧ (haltedBy .isr u p).cut = p.cut := ⟨rfl, rfl⟩
  refine step_of_handler hlegal h waiting ((completionHandler_of_queued q queued ready).trans halts) ?_ ?_
  · exact (halted_frame _).1.trans h.tape
  · exact (halted_frame _).2.trans h.cut

/-- Settles O49. -/
theorem spuriousCompletion : Obligations.SpuriousCompletion := by
  unfold Obligations.SpuriousCompletion
  intro s hlegal h waiting empty
  exact step_of_handler hlegal h waiting (completionHandler_of_empty (Laws.comp_quiet h) empty) h.tape h.cut

/-! ## One good completion after the other (R225) -/

/-- ISR is undisturbed and no abort is pending. -/
structure Draining (s : State) : Prop where
  quiet : Laws.Quiet .isr s
  no_abort : s.bc.stAbort = false

/-- ENV raises {st_stop}. -/
def stopRaised (s : State) : State := raiseStatus false true false s

theorem completeOnce_eq {s : State} (d : Draining s) {t : Txn} {rest : List Txn} (queued : s.bq.queue = t :: rest)
    (fits : nextFits s.cfg rest) :
    completeOnce s = nextDispatched rest (popped t rest (statusRead (stopRaised s))) ∧ Draining (completeOnce s) := by
  have q : Laws.Quiet .isr (stopRaised s) := d.quiet
  have stop : (stopRaised s).bc.stStop = true := Bool.or_true _
  have no_abort : (stopRaised s).bc.stAbort = false := (Bool.or_false _).trans d.no_abort
  have ready := readyToPop_of_stop q queued stop no_abort
  obtain ⟨next_eq, next_quiet⟩ := Laws.next_fits (quiet_popped ready.quiet t rest) rest rfl fits
  have handled : completeOnce s = _ := (completionHandler_of_queued q queued ready).trans next_eq
  rw [handled]
  exact ⟨rfl, next_quiet, by cases rest <;> rfl⟩

/-- The queue of `s`, with head and `rest`, has drained in `d` (R225). -/
structure Drained (rest : List Txn) (s d : State) : Prop where
  queue : d.bq.queue = []
  depth : d.bq.depth = s.bq.depth - BitVec.ofNat 32 (rest.length + 1)
  dispatchCount : d.bq.dispatchCount = s.bq.dispatchCount + BitVec.ofNat 32 rest.length
  inflight : d.bq.inflight = false
  fault : d.fault = s.fault
  trace : d.trace = s.trace ++ (dispatchEvents rest).map (fun e => ⟨.isr, e⟩)

theorem dispatchEvents_cons (t : Txn) (rest : List Txn) :
    dispatchEvents (t :: rest) = dispatchEvents [t] ++ dispatchEvents rest := by
  simp [dispatchEvents]

/-- One completion with a next transaction, and then the others. -/
theorem Drained.cons {t u : Txn} {rest : List Txn} {s d : State}
    (drained : Drained rest (dispatched .isr u (popped t (u :: rest) (statusRead (stopRaised s)))) d) :
    Drained (u :: rest) s d where
  queue := drained.queue
  depth := by
    have depth := drained.depth
    simp only [dispatched, traced, popped, statusRead, stopRaised, raiseStatus] at depth
    rw [depth, List.length_cons, BitVec.ofNat_add (rest.length + 1) 1]
    exact (sub_sub _ _ _).trans (congrArg _ (add_comm _ _))
  dispatchCount := by
    have count := drained.dispatchCount
    simp only [dispatched, traced, popped, statusRead, stopRaised, raiseStatus] at count
    rw [count, List.length_cons, BitVec.ofNat_add]
    exact (add_assoc _ _ _).trans (congrArg _ (add_comm _ _))
  inflight := drained.inflight
  fault := drained.fault
  trace := by
    have trace := drained.trace
    rw [dispatchEvents_cons, List.map_append, ← List.append_assoc, trace]
    simp [dispatched, traced, popped, statusRead, stopRaised, raiseStatus, dispatchEvents]

theorem drained_completions {rest : List Txn} {s : State} (d : Draining s) {t : Txn} (queued : s.bq.queue = t :: rest)
    (fits : ∀ u ∈ rest, u.wdata.length + u.r.toNat ≤ s.cfg.maxXfer) :
    Drained rest s (completeOnce^[rest.length + 1] s) := by
  induction rest generalizing s t with
  | nil =>
    obtain ⟨once_eq, -⟩ := completeOnce_eq d queued trivial
    rw [List.length_nil, Function.iterate_one, once_eq]
    exact ⟨rfl, rfl, (add_zero _).symm, rfl, rfl, (List.append_nil _).symm⟩
  | cons u rest ih =>
    obtain ⟨once_eq, draining⟩ := completeOnce_eq d queued (fits u List.mem_cons_self)
    rw [Function.iterate_succ_apply, List.length_cons]
    rw [once_eq] at draining ⊢
    exact .cons (ih draining rfl fun v mem => fits v (List.mem_cons_of_mem _ mem))

/-- Settles O50: by induction on the queue behind the head. -/
theorem queueDrainsInOrder : Obligations.QueueDrainsInOrder := by
  unfold Obligations.QueueDrainsInOrder
  intro s t rest no_turns cut running queued no_abort fits
  have lives : s.live = true := by simp [State.live, cut, running]
  obtain ⟨queue, depth, count, inflight, fault, trace⟩ :=
    drained_completions ⟨⟨no_turns, lives⟩, no_abort⟩ queued fits
  exact ⟨queue, depth, count, inflight, fault, trace⟩

end Sys2Proof.Proofs
end

section
/-! Invariants that few actions touch: parameters, fault bits, memory, responses, ownership, each kept by every step
under every schedule (00_scope.md R7, 10_state.md R61, 20_memory.md R72, R73, 60_exceptions.md R260). -/

namespace Sys2Proof.Proofs

open Sys2Proof.Machine Sys2Proof.Claims

/-! ## Predicates on the slow parts of a state -/

/-- The parts of a state that few atomic actions touch are the same. -/
structure SameParts (s t : State) : Prop where
  cfg : t.cfg = s.cfg := by rfl
  fault : t.fault = s.fault := by rfl
  owned : t.owned = s.owned := by rfl
  queue : t.bq.queue = s.bq.queue := by rfl
  resp : t.cmd.resp = s.cmd.resp := by rfl
  tape : t.tape = s.tape := by rfl
  cut : t.cut = s.cut := by rfl

/-- `P` speaks of those parts alone, and the actions of the bus engine and of ENV that touch them keep it. -/
structure PartStable (P : State → Prop) : Prop where
  congr : ∀ {s t : State}, SameParts s t → P s → P t
  raise : ∀ b s, P s → P (raise b s)
  pop : ∀ s, P s → P (popAndFree s)
  deliver : ∀ c bytes s, P s → P { s with owned := deliver c bytes s.owned }
  reset : ∀ s, P s → Turn.env .reset ∈ s.tape → P (resetEvent s)
  tape : ∀ s ts, P s → ts <:+ s.tape → P { s with tape := ts }

namespace PartStable

variable {P : State → Prop}

theorem envStep (h : PartStable P) (e : EnvEvent) (s : State) (hs : P s) (scheduled : Turn.env e ∈ s.tape) :
    P (envStep e s) := by
  cases e with
  | word | status | endTx | level => exact h.congr {} hs
  | endRx bytes =>
    simp only [Machine.envStep]
    split
    · exact h.congr {} (h.deliver s.dma.rx bytes s hs)
    · exact hs
  | reset => exact h.reset s hs scheduled

theorem turns (h : PartStable P) : TurnStable P where
  enc s hs := by rw [encStep_frame]; exact h.congr {} hs
  env := h.envStep
  tape := h.tape

theorem bus (h : PartStable P) (ag : Agent) : BusStable ag P where
  toTurnStable := h.turns
  emit _ _ _ := h.congr {}
  scl _ _ := h.congr {}
  sda _ _ := h.congr {}
  funcScl _ _ := h.congr {}
  funcSda _ _ := h.congr {}
  pullScl _ _ := h.congr {}
  pullSda _ _ := h.congr {}
  irqEn _ := h.congr {}
  ready _ := h.congr {}
  raise := h.raise
  mask _ _ := h.congr {}
  prepare _ _ := h.congr {}
  dmaStart _ _ _ _ := h.congr {}
  dmaAbort _ _ := h.congr {}
  markInflight _ := h.congr {}
  notInflight _ := h.congr {}
  readStatus _ := h.congr {}
  countFault _ := h.congr {}
  pop := h.pop

theorem pre (h : PartStable P) (s : State) (hs : P s) : P (Actor.pri.pre s) := (h.bus .isr).boundary hs

/-- Every command but one that responds keeps `P`, where an accepted enqueue and the end of a command do. -/
theorem command (h : PartStable P) (accept : ∀ r bytes s, P s → P (acceptTxn r bytes s))
    (uncut : ∀ s, P s → P { s with cut := false }) : CommandStable P where
  bus := h.bus
  drive _ _ _ := h.congr {}
  kb _ _ := h.congr {}
  fe _ _ := h.congr {}
  mv _ _ := h.congr {}
  advance _ _ := h.congr {}
  accept := accept
  send := kbSendCore_keeps h.bus (fun _ _ _ => h.congr {}) (fun _ _ => h.congr {}) (fun _ _ => h.congr {})
  uncut := uncut

/-- An enqueue keeps what its allocations, its writes and its push keep. -/
theorem accept (h : PartStable P) (alloc : ∀ n s, P s → P (memAlloc n s))
    (write : ∀ b i v s, P s → P (memWrite b i v s)) (push : ∀ t s, P s → P (pushTxn t s)) :
    ∀ r bytes s, P s → P (acceptTxn r bytes s) :=
  acceptTxn_keeps h.bus (fun _ _ => h.congr {}) alloc write push

end PartStable

/-! ## Parameters (00_scope.md R7) -/

theorem partStable_cfg (c : Params) : PartStable fun s => s.cfg = c where
  congr same hs := same.cfg.trans hs
  raise _ _ hs := hs
  pop s hs := by unfold popAndFree; split <;> exact hs
  deliver _ _ _ hs := hs
  reset _ hs _ := hs
  tape _ _ hs _ := hs

theorem stepStable_cfg (c : Params) : StepStable fun s => s.cfg = c where
  toCommandStable := (partStable_cfg c).command
    ((partStable_cfg c).accept (fun _ _ hs => hs) (fun _ _ _ _ hs => hs) (fun _ _ hs => hs)) (fun _ hs => hs)
  respond _ _ hs := hs

/-- Settles O12: no action writes the parameters, the reset event included. -/
theorem parametersAreFixed : Obligations.ParametersAreFixed := by
  unfold Obligations.ParametersAreFixed
  intro s t stepped
  exact (stepStable_cfg s.cfg).step rfl stepped

/-! ## Fault bits (60_exceptions.md R260, R261) -/

/-- A predicate on the fault register and the schedule. -/
theorem stepStable_of_fault {P : State → Prop}
    (congr : ∀ {s t : State}, t.fault = s.fault → t.tape = s.tape → P s → P t) (raise : ∀ b s, P s → P (raise b s))
    (reset : ∀ s, P s → Turn.env .reset ∈ s.tape → P (resetEvent s))
    (tape : ∀ s ts, P s → ts <:+ s.tape → P { s with tape := ts }) : StepStable P := by
  have parts : PartStable P :=
    { congr := fun same => congr same.fault same.tape
      raise := raise
      pop := fun s => by unfold popAndFree; split <;> exact congr rfl rfl
      deliver := fun _ _ _ => congr rfl rfl
      reset := reset
      tape := tape }
  exact { toCommandStable := parts.command
            (parts.accept (fun _ _ => congr rfl rfl) (fun _ _ _ _ => congr rfl rfl) (fun _ _ => congr rfl rfl))
            (fun _ => congr rfl rfl)
          respond := fun _ _ => congr rfl rfl }

/-- Only assigned bits are ever raised. -/
theorem mask_and_unassigned (b : FaultBit) : b.mask &&& ~~~faultAssigned = 0 := by cases b <;> decide

theorem stepStable_faultBitsOk : StepStable State.FaultBitsOk := by
  refine stepStable_of_fault ?congr ?raise ?reset ?tape
  case congr => exact fun {s t} same _ hs => by unfold State.FaultBitsOk at *; rw [same]; exact hs
  case raise =>
    intro b s hs
    show (s.fault ||| b.mask) &&& _ = 0
    rw [BitVec.and_comm, BitVec.and_or_distrib_left, BitVec.and_comm, hs, BitVec.and_comm, mask_and_unassigned]
    rfl
  case reset => exact fun _ _ _ => BitVec.zero_and
  case tape => exact fun _ _ hs _ => hs

/-- Settles O56. -/
theorem stepKeepsFaultBitsOk : Obligations.StepKeepsFaultBitsOk := by
  unfold Obligations.StepKeepsFaultBitsOk
  exact fun _ _ => stepStable_faultBitsOk.step

/-- Bit `k` is set and no reset is scheduled. -/
structure BitSet (k : Nat) (s : State) : Prop where
  noReset : s.NoReset
  bit : s.fault.getLsbD k = true

theorem stepStable_bitSet (k : Nat) : StepStable (BitSet k) := by
  refine stepStable_of_fault ?congr ?raise ?reset ?tape
  case congr =>
    exact fun {s t} fault tape hs => ⟨by unfold State.NoReset; rw [tape]; exact hs.noReset, by rw [fault]; exact hs.bit⟩
  case raise => exact fun b s hs => ⟨hs.noReset, by rw [raise_fault, BitVec.getLsbD_or, hs.bit, Bool.true_or]⟩
  case reset => exact fun s hs scheduled => absurd scheduled hs.noReset
  case tape => exact fun s ts hs suffix => ⟨fun mem => hs.noReset (suffix.subset mem), hs.bit⟩

/-- Settles O59: a raised fault only sets bits, and no reset is scheduled. -/
theorem faultBitsAreSticky : Obligations.FaultBitsAreSticky := by
  unfold Obligations.FaultBitsAreSticky
  intro s t k no_reset stepped bit
  exact ((stepStable_bitSet k).step ⟨no_reset, bit⟩ stepped).bit

/-! ## Memory (20_memory.md R73, log 8) -/

theorem partStable_memoryOk : PartStable State.MemoryOk where
  congr same hs := by unfold State.MemoryOk at *; rw [same.owned]; exact hs
  raise _ _ hs := hs
  pop s hs := by
    unfold popAndFree
    split
    · exact hs
    · exact Owned.freeOpt_wf _ _ (Owned.freeOpt_wf _ _ hs)
  deliver c bytes s hs := deliver_wf c bytes s.owned hs
  reset _ _ _ := reset_memory_wf
  tape _ _ hs _ := hs

theorem stepStable_memoryOk : StepStable State.MemoryOk where
  toCommandStable := partStable_memoryOk.command
    (partStable_memoryOk.accept (fun n s hs => s.owned.alloc_wf n hs) (fun h i v s hs => s.owned.write_wf h i v hs)
      (fun _ _ hs => hs)) (fun _ hs => hs)
  respond _ _ hs := hs

/-- Settles O54. -/
theorem stepKeepsMemoryOk : Obligations.StepKeepsMemoryOk := by
  unfold Obligations.StepKeepsMemoryOk
  exact fun _ _ => stepStable_memoryOk.step

/-! ## Responses (20_memory.md R72) -/

/-- These responses have been made, the command is not cut off, and no reset is scheduled. -/
structure Answered (answers : List Word) (s : State) : Prop where
  noReset : s.NoReset
  uncut : s.cut = false
  resp : s.cmd.resp = answers

theorem partStable_answered (answers : List Word) : PartStable (Answered answers) where
  congr same hs := ⟨by unfold State.NoReset; rw [same.tape]; exact hs.noReset, same.cut.trans hs.uncut,
    same.resp.trans hs.resp⟩
  raise _ _ hs := ⟨hs.noReset, hs.uncut, hs.resp⟩
  pop s hs := by unfold popAndFree; split <;> exact ⟨hs.noReset, hs.uncut, hs.resp⟩
  deliver _ _ _ hs := ⟨hs.noReset, hs.uncut, hs.resp⟩
  reset _ hs scheduled := absurd scheduled hs.noReset
  tape _ _ hs suffix := ⟨fun mem => hs.noReset (suffix.subset mem), hs.uncut, hs.resp⟩

theorem commandStable_answered (answers : List Word) : CommandStable (Answered answers) :=
  (partStable_answered answers).command
    ((partStable_answered answers).accept (fun _ _ hs => ⟨hs.noReset, hs.uncut, hs.resp⟩)
      (fun _ _ _ _ hs => ⟨hs.noReset, hs.uncut, hs.resp⟩) (fun _ _ hs => ⟨hs.noReset, hs.uncut, hs.resp⟩))
    (fun _ hs => ⟨hs.noReset, rfl, hs.resp⟩)

/-- The end of a command changes nothing of a halted block but the mark of a cut. -/
theorem endCommand_halted {s : State} (halted : s.halted = true) (n : Nat) : (endCommand n s).halted = true := by
  rw [endCommand, Laws.halted_act .pri (.inl rfl) halted]
  exact halted

/-- A block that is not halted and not cut off lives. -/
theorem live_of_running {s : State} (uncut : s.cut = false) (running : s.halted = false) : s.live = true := by
  simp [State.live, uncut, running]

/-- A command that ends with one response and does not halt the block makes exactly that one. -/
theorem answered_respond {answers : List Word} {s t : State} (hs : Answered answers s) {v : State → Word}
    (ends : t = endCommand 1 (Actor.pri.act (fun u => respond (v u) u) s)) (running : t.halted = false) :
    ∃ w, t.cmd.resp = answers ++ [w] := by
  subst ends
  have before : Answered answers (Actor.pri.pre s) := (partStable_answered answers).pre s hs
  rcases act_cases .pri (fun u => respond (v u) u) s with ⟨-, responds⟩ | ⟨dead, skips⟩
  · have after : Answered (answers ++ [v (Actor.pri.pre s)]) (Actor.pri.act (fun u => respond (v u) u) s) := by
      rw [responds]
      exact ⟨before.noReset, before.uncut, congrArg (· ++ [_]) before.resp⟩
    exact ⟨_, ((commandStable_answered _).endCommand 1 after).resp⟩
  · have halted : (Actor.pri.pre s).halted = true := by
      by_contra not_halted
      rw [live_of_running before.uncut (by simpa using not_halted)] at dead
      cases dead
    rw [skips, endCommand_halted halted] at running
    cases running

/-- The commands that make no response are those the claims say answer nothing. -/
theorem answers_of_silent {i : Instr} (h : silent i = true) : answers i = 0 := by
  cases i with
  | rdreg | kbIsCaps => cases h
  | pinSample pin =>
    have no_pin : ¬ pin.toNat ≤ 11 := by
      intro below
      have named : Pin.all[pin.toNat]?.isNone = true := h
      rw [List.getElem?_eq_getElem (show pin.toNat < Pin.all.length by show _ < 12; omega)] at named
      cases named
    exact if_neg no_pin
  | _ => rfl

/-- Settles O60: a silent command keeps the responses, the three others end with one. -/
theorem eachCommandMakesItsResponses : Obligations.EachCommandMakesItsResponses := by
  unfold Obligations.EachCommandMakesItsResponses
  intro i s t uncut no_reset runs running
  have start : Answered s.cmd.resp s := ⟨no_reset, uncut, rfl⟩
  have one {v : State → Word} {u : State} (hu : Answered s.cmd.resp u)
      (ends : t = endCommand 1 (Actor.pri.act (fun u => respond (v u) u) u)) :
      ∃ new : List Word, t.cmd.resp = s.cmd.resp ++ new ∧ new.length = 1 :=
    (answered_respond hu ends running).imp' (fun w => [w]) fun _ made => ⟨made, rfl⟩
  cases quiet : silent i with
  | true =>
    have kept := (commandStable_answered s.cmd.resp).silentExec quiet start runs
    exact ⟨[], by rw [kept.resp, List.append_nil], (answers_of_silent quiet).symm⟩
  | false =>
    cases i with
    | rdreg index => cases runs; exact one start rfl
    | kbIsCaps => cases runs; exact one start rfl
    | pinSample pin =>
      obtain ⟨p, named⟩ : ∃ p, Pin.ofByte pin = some p := Option.isSome_iff_exists.1 (by simpa [silent] using quiet)
      have id_eq := (ofByte_eq_some_iff pin p).1 named
      have below : pin.toNat ≤ 11 := by omega
      simp only [exec, execPinSample, named] at runs
      cases runs
      rw [answers, if_pos below]
      exact one (v := fun _ => levelWord (sample p (Actor.pri.pre s))) ((partStable_answered _).pre s start) rfl
    | _ => cases quiet

end Sys2Proof.Proofs
end

section
/-! Ownership of storage: each queued transaction owns its own live buffers (20_memory.md R73, 43_bus_queue.md R201,
R202, R216). -/

namespace Sys2Proof.Proofs

open Sys2Proof.Machine Sys2Proof.Claims

/-! ## Handles -/

/-- The handles of the queued transactions, in queue order. -/
def queueHandles (q : List Txn) : List Nat := q.flatMap Txn.handles

theorem queueHandles_append (q : List Txn) (t : Txn) : queueHandles (q ++ [t]) = queueHandles q ++ t.handles := by
  simp [queueHandles]

theorem handles_freeOpt (o : Owned) (b : Option Nat) :
    (o.freeOpt b).handles = o.handles.filter (fun h => decide (h ∉ b.toList)) := by
  cases b with
  | none => simp [Owned.freeOpt]
  | some h =>
    rw [Owned.freeOpt, handles_free]
    congr 1
    funext a
    by_cases same : a = h <;> simp [same]

/-- The handles still live after a transaction is freed. -/
theorem handles_freed (o : Owned) (t : Txn) :
    ((o.freeOpt t.wbuf).freeOpt t.rbuf).handles = o.handles.filter (fun h => decide (h ∉ t.handles)) := by
  rw [handles_freeOpt, handles_freeOpt, List.filter_filter]
  congr 1
  funext h
  simp only [Txn.handles, List.mem_append, not_or, Bool.decide_and, Bool.and_comm]

theorem freeOpt_next (o : Owned) (b : Option Nat) : (o.freeOpt b).next = o.next := by cases b <;> rfl

/-- Where handles rise, those behind a transaction's own are live after it is freed. -/
theorem sublist_filter_of_rising {own rest live : List Nat} (rising : live.Pairwise (· < ·))
    (owners : (own ++ rest).Sublist live) : rest.Sublist (live.filter (fun h => decide (h ∉ own))) := by
  have distinct : (own ++ rest).Pairwise (· < ·) := rising.sublist owners
  have others : rest.filter (fun h => decide (h ∉ own)) = rest := by
    refine List.filter_eq_self.2 fun h mem => decide_eq_true fun mine => ?_
    exact lt_irrefl h ((List.pairwise_append.1 distinct).2.2 h mine h mem)
  have kept := ((List.sublist_append_right own rest).trans owners).filter (fun h => decide (h ∉ own))
  rwa [others] at kept

/-! ## Ownership while a transaction is being made -/

/-- Ownership with the buffers `extra` allocated for a transaction that PRI has not queued yet; a command that is cut off
or halted never queues it. -/
structure OwnedWith (extra : List Nat) (s : State) : Prop where
  ownership : s.OwnershipOk
  making : s.live = true → (queueHandles s.bq.queue ++ extra).Sublist s.owned.handles

theorem ownedWith_nil_iff (s : State) : OwnedWith [] s ↔ s.OwnershipOk :=
  ⟨fun h => h.ownership, fun h => ⟨h, fun _ => by rw [List.append_nil]; exact h.owners⟩⟩

theorem live_congr {s t : State} (same : SameParts s t) : t.live = s.live := by
  unfold State.live State.halted
  rw [same.cut, same.fault]

/-- A block that lives after a fault was raised lived before. -/
theorem live_of_raise {b : FaultBit} {s : State} (h : (raise b s).live = true) : s.live = true := by
  simp only [State.live, State.halted, raise_cut, raise_fault, BitVec.getLsbD_or, Bool.and_eq_true, Bool.not_eq_true',
    Bool.or_eq_false_iff] at h ⊢
  exact ⟨h.1, h.2.1⟩

theorem ownershipOk_congr {s t : State} (same : SameParts s t) (h : s.OwnershipOk) : t.OwnershipOk where
  rising := by rw [same.owned]; exact h.rising
  fresh := by rw [same.owned]; exact h.fresh
  owners := by rw [same.owned, same.queue]; exact h.owners

theorem ownershipOk_popAndFree {s : State} (h : s.OwnershipOk) : (popAndFree s).OwnershipOk := by
  cases queue : s.bq.queue with
  | nil => rw [popAndFree, queue]; exact h
  | cons t rest =>
    have owners := h.owners
    rw [queue, List.flatMap_cons] at owners
    rw [Laws.popAndFree_eq queue]
    refine ⟨?rising, ?fresh, ?owners⟩
    case rising => rw [popped, handles_freed]; exact h.rising.filter _
    case fresh =>
      rw [popped, handles_freed, freeOpt_next, freeOpt_next]
      exact fun a live => h.fresh a (List.mem_of_mem_filter live)
    case owners => rw [popped, handles_freed]; exact sublist_filter_of_rising h.rising owners

/-- What is being made is not touched when another transaction is freed. -/
theorem ownedWith_popAndFree {extra : List Nat} {s : State} (h : OwnedWith extra s) :
    OwnedWith extra (popAndFree s) := by
  refine ⟨ownershipOk_popAndFree h.ownership, ?_⟩
  cases queue : s.bq.queue with
  | nil => rw [popAndFree, queue]; exact h.making
  | cons t rest =>
    rw [Laws.popAndFree_eq queue]
    intro live
    have making := h.making live
    rw [queue, queueHandles, List.flatMap_cons, List.append_assoc] at making
    rw [popped, handles_freed]
    exact sublist_filter_of_rising h.ownership.rising making

theorem ownershipOk_resetEvent (s : State) : (resetEvent s).OwnershipOk :=
  ⟨.nil, fun _ mem => absurd mem List.not_mem_nil, .refl _⟩

theorem partStable_ownedWith (extra : List Nat) : PartStable (OwnedWith extra) where
  congr same h := ⟨ownershipOk_congr same h.ownership, fun live => by
    rw [same.owned, same.queue]; exact h.making ((live_congr same).symm.trans live)⟩
  raise _ _ h := ⟨⟨h.ownership.rising, h.ownership.fresh, h.ownership.owners⟩, fun live => h.making (live_of_raise live)⟩
  pop _ h := ownedWith_popAndFree h
  deliver c bytes s h := by
    obtain ⟨live_eq, next_eq⟩ := deliver_frame c bytes s.owned
    have handles_eq : (deliver c bytes s.owned).handles = s.owned.handles := congrArg (List.map Buf.handle) live_eq
    exact ⟨⟨by rw [handles_eq]; exact h.ownership.rising, by rw [handles_eq, next_eq]; exact h.ownership.fresh,
      by rw [handles_eq]; exact h.ownership.owners⟩, fun live => by rw [handles_eq]; exact h.making live⟩
  reset s _ _ := ⟨ownershipOk_resetEvent s, fun live => by cases live⟩
  tape _ _ h _ := ⟨⟨h.ownership.rising, h.ownership.fresh, h.ownership.owners⟩, h.making⟩

/-! ## MakeTxn and Append (43_bus_queue.md R202, R206) -/

theorem ownedWith_memAlloc {extra : List Nat} {s : State} (h : OwnedWith extra s) (live : s.live = true) (n : Nat) :
    OwnedWith (extra ++ [s.owned.next]) (memAlloc n s) := by
  have below := h.ownership.fresh
  refine ⟨⟨?rising, ?fresh, ?owners⟩, fun _ => ?making⟩
  case rising =>
    rw [memAlloc_owned, handles_alloc]
    exact List.pairwise_append.2 ⟨h.ownership.rising, List.pairwise_singleton _ _,
      fun a mem b new => by rw [List.mem_singleton.1 new]; exact below a mem⟩
  case fresh =>
    intro a mem
    rw [memAlloc_owned, handles_alloc, List.mem_append, List.mem_singleton] at mem
    rcases mem with old | rfl
    · exact Nat.lt_succ_of_lt (below a old)
    · exact Nat.lt_succ_self _
  case owners =>
    rw [memAlloc_owned, handles_alloc]
    exact h.ownership.owners.trans (List.sublist_append_left _ _)
  case making =>
    rw [memAlloc_owned, handles_alloc, ← List.append_assoc]
    exact (h.making live).append (.refl _)

theorem ownedWith_memWrite {extra : List Nat} {s : State} (h : OwnedWith extra s) (b i : Nat) (v : Byte) :
    OwnedWith extra (memWrite b i v s) := by
  have handles_eq : (s.owned.write b i v).handles = s.owned.handles := by rw [Owned.handles, Owned.write_live]; rfl
  refine ⟨⟨?rising, ?fresh, ?owners⟩, fun live => ?making⟩
  case rising => rw [memWrite_owned, handles_eq]; exact h.ownership.rising
  case fresh => rw [memWrite_owned, handles_eq, Owned.write_next]; exact h.ownership.fresh
  case owners => rw [memWrite_owned, handles_eq]; exact h.ownership.owners
  case making => rw [memWrite_owned, handles_eq]; exact h.making live

/-- An allocation adds its buffer, if any, to those of the transaction that is being made. -/
theorem ownedWith_allocBuf {extra : List Nat} {s : State} (h : OwnedWith extra s) (n : Nat) :
    OwnedWith (extra ++ (allocBuf .pri n s).1.toList) (allocBuf .pri n s).2 := by
  rcases allocBuf_cases .pri n s with ⟨none_eq, -⟩ | ⟨some_eq, -⟩
  · rw [none_eq, Option.toList_none, List.append_nil]
    exact h
  · have before := (partStable_ownedWith extra).pre s h
    rw [some_eq]
    rcases act_cases .pri (memAlloc n) s with ⟨live, allocates⟩ | ⟨dead, skips⟩
    · rw [allocates]
      exact ownedWith_memAlloc before live n
    · rw [skips]
      exact ⟨before.ownership, fun live => absurd (dead.symm.trans live) Bool.false_ne_true⟩

theorem ownedWith_makeTxn {s : State} (h : s.OwnershipOk) (bytes : List Byte) (r : Byte) :
    OwnedWith (makeTxn .pri bytes r s).1.handles (makeTxn .pri bytes r s).2 := by
  have written := ownedWith_allocBuf ((ownedWith_nil_iff s).2 h) bytes.length
  rw [List.nil_append] at written
  refine ownedWith_allocBuf (run_keeps (partStable_ownedWith _).pre ?_ written) r.toNat
  intro a mem u hu
  obtain ⟨k, i, v, -, rfl⟩ := mem_fillSteps mem
  exact ownedWith_memWrite hu k i v

/-- The push queues the transaction with the buffers made for it. -/
theorem ownershipOk_act_pushTxn {t : Txn} {s : State} (h : OwnedWith t.handles s) :
    (Actor.pri.act (pushTxn t) s).OwnershipOk := by
  have before := (partStable_ownedWith t.handles).pre s h
  rcases act_cases .pri (pushTxn t) s with ⟨live, pushes⟩ | ⟨-, skips⟩
  · rw [pushes]
    refine ⟨before.ownership.rising, before.ownership.fresh, ?_⟩
    have made := before.making live
    rw [← queueHandles_append] at made
    exact made
  · rw [skips]
    exact before.ownership

theorem partStable_ownershipOk : PartStable State.OwnershipOk := by
  have same : OwnedWith [] = State.OwnershipOk := funext fun s => propext (ownedWith_nil_iff s)
  rw [← same]
  exact partStable_ownedWith []

theorem ownershipOk_acceptTxn {s : State} (h : s.OwnershipOk) (r : Byte) (bytes : List Byte) :
    (acceptTxn r bytes s).OwnershipOk := by
  have parts := partStable_ownershipOk
  have masked {extra : List Nat} (m : Bool) (u : State) (hu : OwnedWith extra u) :
      OwnedWith extra (Actor.pri.act (setMasked m) u) :=
    act_keeps ((partStable_ownedWith extra).pre _) (fun _ => (partStable_ownedWith extra).congr {}) hu
  have pushed := ownershipOk_act_pushTxn (masked true _ (ownedWith_makeTxn h bytes r))
  refine act_keeps (parts.pre _) (fun _ => parts.congr {}) ?_
  split
  · exact BusStable.dispatch (A := .pri) (parts.bus .pri) parts.pre (fun _ => parts.congr {}) _ pushed
  · exact pushed

theorem stepStable_ownershipOk : StepStable State.OwnershipOk where
  toCommandStable := partStable_ownershipOk.command (fun r bytes _ h => ownershipOk_acceptTxn h r bytes)
    (fun _ h => ⟨h.rising, h.fresh, h.owners⟩)
  respond _ _ h := ⟨h.rising, h.fresh, h.owners⟩

/-- Settles O55: an enqueue queues its transaction with the buffers it has allocated for it, and a completion frees those
of the head alone. -/
theorem stepKeepsOwnershipOk : Obligations.StepKeepsOwnershipOk := by
  unfold Obligations.StepKeepsOwnershipOk
  exact fun _ _ => stepStable_ownershipOk.step

end Sys2Proof.Proofs
end

section
/-! The bus queue as the invariants see it: the few fields they speak of, and the few atomic actions that touch those
(10_state.md R35, R38, R61, 43_bus_queue.md). -/

namespace Sys2Proof.Proofs

open Sys2Proof.Machine Sys2Proof.Claims

/-! ## The view and the actions that leave it alone -/

/-- What the invariants of the bus queue speak of. -/
structure QueueView where
  cfg : Params
  queue : List Txn
  depth : BitVec 32
  ready : Bool
  inflight : Bool
  masked : Bool
  irqEn : Bool
  halted : Bool
  cut : Bool

def queueView (s : State) : QueueView where
  cfg := s.cfg
  queue := s.bq.queue
  depth := s.bq.depth
  ready := s.bq.ready
  inflight := s.bq.inflight
  masked := s.masked
  irqEn := s.bc.irqEn
  halted := s.halted
  cut := s.cut

/-- PRI and ISR may take atomic steps (`State.live`). -/
def QueueView.live (v : QueueView) : Bool := !v.cut && !v.halted

theorem queueView_live (s : State) : (queueView s).live = s.live := rfl

/-- The view after the reset event (70_reset_and_hazards.md R290). -/
def QueueView.reset (cfg : Params) : QueueView where
  cfg := cfg
  queue := []
  depth := 0
  ready := false
  inflight := false
  masked := false
  irqEn := false
  halted := false
  cut := true

theorem queueView_resetEvent (s : State) : queueView (resetEvent s) = .reset s.cfg := by
  have not_halted : (resetEvent s).halted = false := resetOver_halted ..
  simp only [queueView, not_halted]
  rfl

/-- The action leaves the view alone. -/
def Plain (a : State → State) : Prop := ∀ s, queueView (a s) = queueView s

theorem plain_raise {b : FaultBit} (hb : b ≠ .halted) : Plain (raise b) := by
  intro s
  simp only [queueView, Laws.halted_raise s b hb]
  rfl

theorem queueView_encStep (s : State) : queueView (encStep s) = queueView s := by
  rw [encStep_frame]
  rfl

theorem queueView_envStep {e : EnvEvent} (he : e ≠ .reset) (s : State) : queueView (envStep e s) = queueView s := by
  cases e with
  | word | status | endTx | level => rfl
  | endRx bytes => simp only [envStep]; split <;> rfl
  | reset => exact absurd rfl he

/-- What the schedule's turns do to the view is nothing, or the reset. -/
theorem turnStable_of_view {Q : QueueView → Prop} (reset : ∀ v, Q v → Q (.reset v.cfg)) :
    TurnStable fun s => Q (queueView s) where
  enc s hs := by rw [queueView_encStep]; exact hs
  env e s hs _ := by
    by_cases he : e = .reset
    · rw [he]
      exact (queueView_resetEvent s).symm ▸ reset _ hs
    · rw [queueView_envStep he]; exact hs
  tape _ _ hs _ := hs

/-! ## Runs of such actions -/

/-- What comes before an atomic step of the actor keeps `Q`. -/
def PreKeeps (A : Actor) (Q : QueueView → Prop) : Prop := ∀ s, Q (queueView s) → Q (queueView (A.pre s))

section Runs

variable {A : Actor} {Q : QueueView → Prop} (hpre : PreKeeps A Q)

include hpre

theorem act_plain {a : State → State} {s : State} (hs : Q (queueView s)) (ha : Plain a := by intro _; rfl) :
    Q (queueView (A.act a s)) :=
  act_keeps (P := fun s => Q (queueView s)) (hpre s) (fun t ht => by rw [ha t]; exact ht) hs

theorem run_plain {as : List (State → State)} (ha : ∀ a ∈ as, Plain a) {s : State} (hs : Q (queueView s)) :
    Q (queueView (A.run as s)) :=
  run_keeps (P := fun s => Q (queueView s)) hpre (fun a mem t ht => by rw [ha a mem t]; exact ht) hs

theorem raiseLog_plain {b : FaultBit} (hb : b ≠ .halted) (k : LogKind) {s : State} (hs : Q (queueView s)) :
    Q (queueView (A.raiseLog b k s)) := by
  refine run_plain hpre ?_ hs
  intro a mem
  simp only [List.mem_cons, List.not_mem_nil, or_false] at mem
  rcases mem with rfl | rfl
  · exact plain_raise hb
  · exact fun _ => rfl

/-! ### Recovery (43_bus_queue.md R221) -/

theorem toggleClock_plain (k : Nat) {s : State} (hs : Q (queueView s)) : Q (queueView (toggleClock A k s).2) := by
  induction k generalizing s with
  | zero => exact hs
  | succ k ih =>
    have cycled : Q (queueView (A.pre (A.run (recoveryCycle A.agent) s))) := by
      refine hpre _ (run_plain hpre ?_ hs)
      intro a mem
      simp only [recoveryCycle, List.mem_cons, List.not_mem_nil, or_false] at mem
      rcases mem with rfl | rfl | rfl | rfl <;> exact fun _ => rfl
    rw [toggleClock]
    split
    · exact cycled
    · exact ih cycled

theorem probeAndRecover_plain {s : State} (hs : Q (queueView s)) : Q (queueView (probeAndRecover A s)) := by
  have sampled : Q (queueView (A.pre (A.pre (A.run (floatSteps A.agent) s)))) := by
    refine hpre _ (hpre _ (run_plain hpre ?_ hs))
    intro a mem
    simp only [floatSteps, List.mem_cons, List.not_mem_nil, or_false] at mem
    rcases mem with rfl | rfl | rfl | rfl <;> exact fun _ => rfl
  rw [probeAndRecover]
  split
  · have toggled := toggleClock_plain hpre Config.recoveryMaxCycles
      (raiseLog_plain hpre (b := .busStuck) (by decide) .busStuck sampled)
    rw [recover]
    split
    · exact toggled
    · exact raiseLog_plain hpre (by decide) _ toggled
  · exact sampled

theorem abortIfBusy_plain (ch : Channel) {s : State} (hs : Q (queueView s)) : Q (queueView (abortIfBusy A ch s)) := by
  unfold abortIfBusy
  split
  · exact act_plain hpre (hpre s hs)
  · exact hpre s hs

theorem busFaultSteps_plain (ag : Agent) {s : State} (hs : Q (queueView s)) :
    Q (queueView (A.run (busFaultSteps ag) s)) := by
  refine run_plain hpre ?_ hs
  intro a mem
  simp only [busFaultSteps, List.mem_cons, List.not_mem_nil, or_false] at mem
  rcases mem with rfl | rfl | rfl
  · exact plain_raise (by decide)
  · exact fun _ => rfl
  · exact fun _ => rfl

/-! ### The keyboard (42_keyboard.md R171) -/

theorem sendKey_plain (hA : A = .pri) (code : Byte) (rel : Bool) {s : State} (hs : Q (queueView s)) :
    Q (queueView (sendKey code rel s)) := by
  subst hA
  have resets (p : Pin) (d : Drive) (b : Bool) {u : State} (hu : Q (queueView u)) :
      Q (queueView (Actor.pri.run [drivePin .pri p d, setRst b] u)) :=
    act_plain hpre (act_plain hpre hu)
  refine run_plain hpre ?frame ?trio
  case frame =>
    intro a mem
    simp only [frameSteps, List.mem_append, List.mem_cons, List.not_mem_nil, or_false, List.mem_flatMap, bitCell,
      endOfTransmission] at mem
    rcases mem with (rfl | ⟨b, -, mem⟩) | rfl | rfl
    · exact fun _ => rfl
    · rcases mem with rfl | rfl | rfl | rfl | rfl | rfl
      · intro s
        unfold dataBit
        split <;> rfl
      all_goals exact fun _ => rfl
    · exact fun _ => rfl
    · exact fun _ => rfl
  case trio =>
    split
    · have updated : Q (queueView (Actor.pri.act (trioUpdate code rel) s)) := act_plain hpre hs
      unfold chordEval
      split
      · exact resets _ _ _ updated
      · split
        · exact resets _ _ _ updated
        · exact updated
    · exact hs

theorem sendProtocol_plain (hA : A = .pri) (code : Byte) (rel : Bool) {s : State} (hs : Q (queueView s)) :
    Q (queueView (sendProtocol code rel s)) := by
  subst hA
  unfold sendProtocol
  split
  · exact raiseLog_plain hpre (by decide) _ hs
  · split
    · split
      · exact hs
      · exact sendKey_plain hpre rfl _ _ (act_plain hpre hs)
    · exact sendKey_plain hpre rfl _ _ hs

end Runs

/-! ## Actions that touch the view -/

/-- An atomic step whose action takes `Q` to `R`. -/
theorem act_view {A : Actor} {Q R : QueueView → Prop} (hpre : PreKeeps A Q) {a : State → State}
    (ha : ∀ s, s.live = true → Q (queueView s) → R (queueView (a s))) (dead : ∀ v, v.live = false → Q v → R v)
    {s : State} (hs : Q (queueView s)) : R (queueView (A.act a s)) :=
  act_takes (P := fun s => Q (queueView s)) (Q := fun s => R (queueView s)) (hpre s) (fun t ht live => ha t live ht)
    (fun _ ht not_live => dead _ not_live ht) hs

/-- BusInit by its two actions on the view: the handler is registered, and then the controller is ready (R222). -/
theorem busInit_view {A : Actor} {Q E R : QueueView → Prop} (hQ : PreKeeps A Q) (hE : PreKeeps A E)
    (enable : ∀ v, v.live = true → Q v → E { v with irqEn := true }) (deadQ : ∀ v, v.live = false → Q v → E v)
    (ready : ∀ v, v.live = true → E v → R { v with ready := true }) (deadE : ∀ v, v.live = false → E v → R v) {s : State}
    (hs : Q (queueView s)) : R (queueView (busInit A s)) := by
  have lines_handed : Q (queueView (A.run ((configureSteps A.agent).take 5) (probeAndRecover A s))) := by
    refine run_plain hQ ?_ (probeAndRecover_plain hQ hs)
    intro a mem
    simp only [configureSteps, List.take_succ_cons, List.take_zero, List.mem_cons, List.not_mem_nil, or_false] at mem
    rcases mem with rfl | rfl | rfl | rfl | rfl <;> exact fun _ => rfl
  exact act_view hE (fun s live h => ready (queueView s) live h) deadE
    (act_view hQ (fun s live h => enable (queueView s) live h) deadQ lines_handed)

/-- BusInit where neither of those actions matters. -/
theorem busInit_keeps {A : Actor} {Q : QueueView → Prop} (hQ : PreKeeps A Q)
    (enable : ∀ v, Q v → Q { v with irqEn := true }) (ready : ∀ v, Q v → Q { v with ready := true }) {s : State}
    (hs : Q (queueView s)) : Q (queueView (busInit A s)) :=
  busInit_view hQ hQ (fun v _ => enable v) (fun _ _ h => h) (fun v _ => ready v) (fun _ _ h => h) hs

/-- The fault path is BusInit behind actions that leave the view alone (R215). -/
theorem faultPath_view {A : Actor} {Q R : QueueView → Prop} (hQ : PreKeeps A Q)
    (init : ∀ s, Q (queueView s) → R (queueView (busInit A s))) {s : State} (hs : Q (queueView s)) :
    R (queueView (faultPath A s)) :=
  init _ (abortIfBusy_plain hQ _ (abortIfBusy_plain hQ _ (busFaultSteps_plain hQ _ hs)))

/-- What a dispatch does before the transfer is in flight. -/
def beforeFlight (ag : Agent) (t : Txn) : List (State → State) :=
  [prepareDispatch t] ++ (if 0 < t.r.toNat then [dmaStart ag .rx t.rbuf t.r.toNat] else []) ++
  [dmaStart ag .tx none t.units, fun s => emit ag (.busStart s.bq.cmdbuf t.r.toNat) s]

theorem dispatchSteps_eq (ag : Agent) (t : Txn) : dispatchSteps ag t = beforeFlight ag t ++ [markInflight] := by
  simp only [dispatchSteps, beforeFlight, List.append_assoc, List.cons_append, List.nil_append]

theorem beforeFlight_plain (ag : Agent) (t : Txn) : ∀ a ∈ beforeFlight ag t, Plain a := by
  intro a mem
  simp only [beforeFlight, List.mem_append, List.mem_cons, List.not_mem_nil, or_false] at mem
  rcases mem with (rfl | mem) | rfl | rfl
  · exact fun _ => rfl
  · split at mem
    · rw [List.mem_singleton.1 mem]; exact fun _ => rfl
    · cases mem
  · exact fun _ => rfl
  · exact fun _ => rfl

/-- A dispatch by its one action on the view: the transfer is in flight, or the block halts (R210, R212). -/
theorem dispatch_view {A : Actor} {Q R : QueueView → Prop} (hQ : PreKeeps A Q) {last : State → State}
    (hlast : Plain last) {t : Txn} {s : State}
    (halts : s.cfg.maxXfer < t.units → ∀ v, v.live = true → Q v → R { v with halted := true })
    (flies : s.cfg.maxXfer < t.units ∨ ∀ v, v.live = true → Q v → R { v with inflight := true })
    (dead : ∀ v, v.live = false → Q v → R v) (hs : Q (queueView s)) : R (queueView (dispatch A last t s)) := by
  unfold dispatch
  split
  case isTrue oversize =>
    refine act_view hQ (fun u live hu => ?_) dead
      (raiseLog_plain (A := A) hQ (b := .capacity) (by decide) (.capacity t.units) hs)
    have now_halted : (raise .halted u).halted = true := by
      simp only [State.halted, raise_fault, BitVec.getLsbD_or, Bool.or_eq_true]
      exact .inr (by decide)
    have view_eq : queueView (haltStep A.agent last u) = { queueView u with halted := true } := by
      rw [haltStep, hlast]
      simp only [queueView, ← now_halted]
      rfl
    rw [view_eq]
    exact halts oversize _ live hu
  case isFalse fits =>
    rw [dispatchSteps_eq, Actor.run_append]
    exact act_view hQ (fun u live hu => flies.resolve_left fits (queueView u) live hu) dead
      (run_plain hQ (beforeFlight_plain A.agent t) hs)

/-! ## What comes before a step of PRI (60_exceptions.md R266, R267) -/

/-- Turns keep `P`, and so does the handler where its entry condition holds. -/
theorem boundary_keeps {P : State → Prop} (turns : TurnStable P)
    (handler : ∀ s, P s → s.live = true → s.irqReady = true → P (completionHandler s)) {s : State} (hs : P s) :
    P (boundary s) := by
  have taken (n : Nat) : ∀ {u : State}, P u → P (takeInterrupt n u) := by
    induction n with
    | zero => exact fun hu => hu
    | succ n ih =>
      intro u hu
      unfold takeInterrupt
      split
      case isTrue entered =>
        obtain ⟨ready, live⟩ := Bool.and_eq_true_iff.1 entered
        exact ih (turns.interruptReturn (handler u hu live ready))
      case isFalse => exact hu
  unfold boundary
  split
  · exact taken _ (turns.turns hs)
  · exact hs

/-- While the interrupt is masked nothing comes before a step of PRI but turns (R268). -/
theorem preKeeps_pri_of_masked {Q : QueueView → Prop} (reset : ∀ v, Q v → Q (.reset v.cfg))
    (masked : ∀ v, Q v → v.live = true → v.masked = true) : PreKeeps .pri Q := by
  intro s hs
  refine boundary_keeps (P := fun s => Q (queueView s)) (turnStable_of_view reset) ?_ hs
  intro u hu live ready
  have is_masked : u.masked = true := masked _ hu live
  simp [State.irqReady, is_masked] at ready

theorem preKeeps_isr {Q : QueueView → Prop} (reset : ∀ v, Q v → Q (.reset v.cfg)) : PreKeeps .isr Q :=
  fun _ hs => (turnStable_of_view reset).isrPre hs

/-! ## Every command and every step -/

/-- `Q` is kept by what comes before PRI's steps, by its critical sections and by the reset. -/
structure ViewStable (Q : QueueView → Prop) : Prop where
  reset : ∀ v, Q v → Q (.reset v.cfg)
  uncut : ∀ v, Q v → Q { v with cut := false }
  pre : PreKeeps .pri Q
  send : ∀ code rel s, Q (queueView s) → Q (queueView (kbSendCore code rel s))
  init : ∀ s, Q (queueView s) → Q (queueView (busInit .pri s))
  accept : ∀ r bytes s, Q (queueView s) → s.bq.ready = true → bytes.length + r.toNat ≠ 0 →
    ¬ (s.cfg.capacityPolicy = .rejectAtEnqueue ∧ s.cfg.maxXfer < bytes.length + r.toNat) →
    Q (queueView (acceptTxn r bytes s))

namespace ViewStable

variable {Q : QueueView → Prop}

theorem act (h : ViewStable Q) {a : State → State} {s : State} (hs : Q (queueView s))
    (ha : Plain a := by intro _; rfl) : Q (queueView (Actor.pri.act a s)) := act_plain h.pre hs ha

theorem endCommand (h : ViewStable Q) (n : Nat) {s : State} (hs : Q (queueView s)) : Q (queueView (endCommand n s)) :=
  h.uncut _ (h.act (a := advance n) hs)

theorem badCmd (h : ViewStable Q) (w : Word) {s : State} (hs : Q (queueView s)) : Q (queueView (badCmd w s)) :=
  raiseLog_plain h.pre (by decide) _ hs

theorem holdStep (h : ViewStable Q) {s : State} (hs : Q (queueView s)) : Q (queueView (holdStep s)) := by
  unfold Machine.holdStep
  split
  · have stepped : Q (queueView (encStep s)) := by rw [queueView_encStep]; exact hs
    exact h.uncut _ stepped
  · exact h.uncut _ (h.pre s hs)

theorem sendEvents (h : ViewStable Q) (evs : List KeyEvent) {s : State} (hs : Q (queueView s)) :
    Q (queueView (sendEvents evs s)) := by
  induction evs generalizing s with
  | nil => exact hs
  | cons e rest ih => exact ih (h.send _ _ _ hs)

theorem kbInitBody (h : ViewStable Q) {s : State} (hs : Q (queueView s)) : Q (queueView (kbInitBody s)) := by
  refine h.act (h.send _ _ _ (h.act (h.send _ _ _ (run_plain h.pre ?_ hs))))
  intro a mem
  simp only [List.mem_cons, List.not_mem_nil, or_false] at mem
  rcases mem with rfl | rfl | rfl <;> exact fun _ => rfl

theorem msReport (h : ViewStable Q) (b : BitVec 3) (dx dy : Byte) {s : State} (hs : Q (queueView s)) :
    Q (queueView (Actor.pri.run (applyButtons b ++ (if dx != 0 || dy != 0 then mvWrite dx dy else [])) s)) := by
  refine run_plain h.pre ?_ hs
  intro a mem
  rcases List.mem_append.1 mem with mem | mem
  · simp only [applyButtons, List.mem_cons, List.not_mem_nil, or_false] at mem
    rcases mem with rfl | rfl | rfl <;> exact fun _ => rfl
  · split at mem
    · simp only [mvWrite, List.mem_cons, List.not_mem_nil, or_false] at mem
      rcases mem with rfl | rfl | rfl <;> exact fun _ => rfl
    · cases mem

/-- BQ_ENQUEUE: its tests are made on one state, and the accepted command starts from it (43_bus_queue.md R207). -/
theorem bqEnqueue (h : ViewStable Q) (r : Byte) (bytes : List Byte) {s t : State} (hs : Q (queueView s))
    (runs : exec (.bqEnqueue r bytes) s = .next t) : Q (queueView t) := by
  have tested := h.pre s hs
  simp only [Machine.exec, execBqEnqueue] at runs
  cases runs
  split
  · exact h.endCommand _ (h.badCmd _ tested)
  case isFalse ready =>
    split
    · exact h.endCommand _ (h.badCmd _ tested)
    case isFalse nonempty =>
      split
      · exact h.endCommand _ (raiseLog_plain h.pre (by decide) _ tested)
      case isFalse not_rejected =>
        split
        · exact h.holdStep hs
        · exact h.endCommand _ (h.accept _ _ _ tested (by simpa using ready) nonempty not_rejected)

/-- Every command keeps `Q`. -/
theorem exec (h : ViewStable Q) (i : Instr) {s t : State} (hs : Q (queueView s)) (runs : exec i s = .next t) :
    Q (queueView t) := by
  cases i with
  | nop => cases runs; exact h.endCommand _ hs
  | rdreg index => cases runs; exact h.endCommand _ (h.act hs)
  | pinAssert pin =>
    cases runs; refine h.endCommand _ ?_
    split
    · exact h.act hs
    · exact h.badCmd _ hs
  | pinRelease pin =>
    cases runs; refine h.endCommand _ ?_
    split
    · exact h.act hs
    · exact h.badCmd _ hs
  | pinSample pin =>
    cases runs; refine h.endCommand _ ?_
    split
    · exact h.act (h.pre s hs)
    · exact h.badCmd _ hs
  | kbInit => cases runs; exact h.endCommand _ (h.kbInitBody hs)
  | kbSend code rel => cases runs; exact h.endCommand _ (h.send _ _ _ hs)
  | kbAssertReset => cases runs; exact h.endCommand _ (h.act (h.act hs))
  | kbReleaseReset => cases runs; exact h.endCommand _ (h.act (h.act hs))
  | kbService => cases runs; exact h.endCommand _ hs
  | kbIsCaps => cases runs; exact h.endCommand _ (h.act hs)
  | kbReport mod res keys =>
    cases runs; exact h.endCommand _ (h.act (h.act (h.sendEvents _ hs)))
  | msReport b dx dy => cases runs; exact h.endCommand _ (h.msReport b dx dy hs)
  | bqInit =>
    cases runs; refine h.endCommand _ ?_
    split
    · exact h.badCmd _ (h.pre s hs)
    · exact h.init _ (h.pre s hs)
  | bqEnqueue r bytes => exact h.bqEnqueue r bytes hs runs

/-- Every step keeps `Q`. -/
theorem step (h : ViewStable Q) {s t : State} (hs : Q (queueView s)) (stepped : step s = .next t) :
    Q (queueView t) := by
  unfold Machine.step at stepped
  split at stepped
  · cases stepped
  · split at stepped
    · unfold haltedStep at stepped
      split at stepped
      · cases stepped
      · cases stepped; exact h.uncut _ ((turnStable_of_view h.reset).turns hs)
    · split at stepped
      · exact h.exec _ hs stepped
      · cases stepped; exact h.endCommand _ (h.badCmd _ hs)
      · cases stepped; exact h.endCommand _ (h.badCmd _ hs)
      · cases stepped; exact h.holdStep hs
      · cases stepped; exact h.holdStep hs

end ViewStable

end Sys2Proof.Proofs
end

section
/-! The completion handler and the critical sections, phase by phase, on the view of the bus queue; what follows for the
interrupt mask, for the policy REJECT_AT_ENQUEUE and for the handler's entry (43_bus_queue.md R208, R220,
60_exceptions.md R266 to R271). -/

namespace Sys2Proof.Proofs

open Sys2Proof.Machine Sys2Proof.Claims

/-! ## Critical sections (60_exceptions.md R268) -/

section Masks

variable {A : Actor} {Q : QueueView → Prop}

/-- IrqSave takes `Q` to `R`, which may speak of the saved mask. -/
theorem irqSave_view {R : Bool → QueueView → Prop} (hQ : PreKeeps A Q)
    (saves : ∀ v, v.live = true → Q v → R v.masked { v with masked := true })
    (dead : ∀ m v, v.live = false → Q v → R m v) {s : State} (hs : Q (queueView s)) :
    R (irqSave A s).1 (queueView (irqSave A s).2) := by
  have before : Q (queueView (A.pre s)) := hQ s hs
  show R (A.pre s).masked (queueView (A.act (setMasked true) s))
  rcases act_cases A (setMasked true) s with ⟨live, does⟩ | ⟨not_live, skips⟩
  · rw [does]; exact saves (queueView (A.pre s)) live before
  · rw [skips]; exact dead _ _ not_live before

/-- IrqRestore takes `Q` to `R`. -/
theorem irqRestore_view {R : QueueView → Prop} (hQ : PreKeeps A Q) (m : Bool)
    (restores : ∀ v, v.live = true → Q v → R { v with masked := m }) (dead : ∀ v, v.live = false → Q v → R v)
    {s : State} (hs : Q (queueView s)) : R (queueView (irqRestore A m s)) :=
  act_view hQ (fun s live h => restores (queueView s) live h) dead hs

end Masks

/-! ## The handler (43_bus_queue.md R220) -/

/-- The view after PopAndFree (R216). -/
def QueueView.popped (v : QueueView) : QueueView :=
  match v.queue with
  | [] => v
  | _ :: rest => { v with queue := rest, depth := v.depth - 1 }

theorem queueView_popAndFree (s : State) : queueView (popAndFree s) = (queueView s).popped := by
  cases queue : s.bq.queue with
  | nil =>
    have same : popAndFree s = s := by rw [popAndFree, queue]
    have empty : (queueView s).queue = [] := queue
    rw [same, QueueView.popped, empty]
  | cons t rest =>
    have head : (queueView s).queue = t :: rest := queue
    rw [Laws.popAndFree_eq queue, QueueView.popped, head]
    rfl

/-- The handler's phases: `Q` before it, `M` from the entry until the next dispatch, `R` after it. -/
theorem completionHandler_view {Q M R : QueueView → Prop} (resetQ : ∀ v, Q v → Q (.reset v.cfg))
    (resetM : ∀ v, M v → M (.reset v.cfg)) (resetR : ∀ v, R v → R (.reset v.cfg))
    (taken : ∀ v, v.live = true → Q v → M { v with inflight := false }) (dead : ∀ v, v.live = false → Q v → M v)
    (empty : ∀ v, v.queue = [] → M v → R v) (init : ∀ s, M (queueView s) → M (queueView (busInit .isr s)))
    (pop : ∀ v, v.live = true → M v → M v.popped)
    (next : ∀ s t rest, s.bq.queue = t :: rest → M (queueView s) → R (queueView (dispatchNext .isr s)))
    {s : State} (hs : Q (queueView s)) : R (queueView (completionHandler s)) := by
  have preM : PreKeeps .isr M := preKeeps_isr resetM
  have read : M (queueView (Actor.isr.run BusStable.statusSteps s)) := by
    refine act_plain preM (act_view (preKeeps_isr resetQ) (fun u live hu => ?_) dead hs)
    exact taken (queueView u) live hu
  have next_or_empty {u : State} (hu : M (queueView u)) : R (queueView (dispatchNext .isr u)) := by
    cases queue : u.bq.queue with
    | nil =>
      rw [dispatchNext, queue]
      exact empty _ queue hu
    | cons t rest => exact next u t rest queue hu
  simp only [BusStable.statusSteps] at read
  unfold completionHandler
  dsimp only
  split
  case h_1 queue => exact raiseLog_plain (preKeeps_isr resetR) (by decide) _ (empty _ queue read)
  case h_2 =>
    have repaired : M (queueView (if (Actor.isr.run BusStable.statusSteps s).busFaulted
        then faultPath .isr (Actor.isr.run BusStable.statusSteps s) else Actor.isr.run BusStable.statusSteps s)) := by
      split
      · exact faultPath_view preM init read
      · exact read
    exact next_or_empty
      (act_view preM (fun u live hu => queueView_popAndFree u ▸ pop _ live hu) (fun _ _ h => h) repaired)

/-! ## REJECT_AT_ENQUEUE (43_bus_queue.md R208) -/

/-- `State.RejectOk` on the view. -/
structure RejectView (v : QueueView) : Prop where
  policy : v.cfg.capacityPolicy = .rejectAtEnqueue
  fits : ∀ t ∈ v.queue, t.units ≤ v.cfg.maxXfer
  running : v.halted = false

theorem rejectOk_iff (s : State) : s.RejectOk ↔ RejectView (queueView s) :=
  ⟨fun h => ⟨h.policy, h.fits, h.running⟩, fun h => ⟨h.policy, h.fits, h.running⟩⟩

theorem rejectView_reset (v : QueueView) (h : RejectView v) : RejectView (.reset v.cfg) :=
  ⟨h.policy, fun _ mem => (nomatch mem), rfl⟩

theorem rejectView_popped {v : QueueView} (h : RejectView v) : RejectView v.popped := by
  unfold QueueView.popped
  split
  · exact h
  case h_2 queue => exact ⟨h.policy, fun t mem => h.fits t (queue ▸ List.mem_cons_of_mem _ mem), h.running⟩

/-- The policy holds and a given transaction fits. -/
structure RejectFits (t : Txn) (v : QueueView) : Prop where
  rejects : RejectView v
  fits : t.units ≤ v.cfg.maxXfer

theorem rejectFits_reset (t : Txn) (v : QueueView) (h : RejectFits t v) : RejectFits t (.reset v.cfg) :=
  ⟨rejectView_reset v h.rejects, h.fits⟩

/-- The dispatch of a transaction that fits does not halt. -/
theorem rejectView_dispatch {A : Actor} (pre : ∀ t, PreKeeps A (RejectFits t)) {last : State → State}
    (hlast : Plain last) (t : Txn) {s : State} (hs : RejectFits t (queueView s)) :
    RejectView (queueView (dispatch A last t s)) :=
  dispatch_view (pre t) hlast (fun oversize => absurd hs.fits (Nat.not_le.2 oversize))
    (.inr fun _ _ h => ⟨h.rejects.policy, h.rejects.fits, h.rejects.running⟩) (fun _ _ h => h.rejects) hs

theorem rejectView_dispatchNext {s : State} (hs : RejectView (queueView s)) :
    RejectView (queueView (dispatchNext .isr s)) := by
  have pre (t : Txn) : PreKeeps .isr (RejectFits t) := preKeeps_isr (rejectFits_reset t)
  unfold dispatchNext
  split
  · exact hs
  case h_2 t rest queue =>
    have head_fits : RejectFits t (queueView s) := ⟨hs, hs.fits t (by
      show t ∈ s.bq.queue
      rw [queue]; exact List.mem_cons_self)⟩
    refine irqRestore_view (preKeeps_isr rejectView_reset) _ (fun _ _ h => ⟨h.policy, h.fits, h.running⟩)
      (fun _ _ h => h) (rejectView_dispatch pre (fun _ => rfl) t ?_)
    exact irqSave_view (R := fun _ => RejectFits t) (pre t)
      (fun _ _ h => ⟨⟨h.rejects.policy, h.rejects.fits, h.rejects.running⟩, h.fits⟩) (fun _ _ _ h => h) head_fits

theorem rejectView_busInit {A : Actor} (pre : PreKeeps A RejectView) (s : State) (hs : RejectView (queueView s)) :
    RejectView (queueView (busInit A s)) :=
  busInit_keeps pre (fun _ h => ⟨h.policy, h.fits, h.running⟩) (fun _ h => ⟨h.policy, h.fits, h.running⟩) hs

/-- Whatever is kept by the handler as by the reset is kept by what comes before PRI's steps. -/
theorem preKeeps_pri_of_handler {Q : QueueView → Prop} (reset : ∀ v, Q v → Q (.reset v.cfg))
    (handler : ∀ s, Q (queueView s) → s.live = true → Q (queueView (completionHandler s))) : PreKeeps .pri Q :=
  fun _ hs => boundary_keeps (P := fun s => Q (queueView s)) (turnStable_of_view reset)
    (fun u hu live _ => handler u hu live) hs

theorem rejectView_handler {s : State} (hs : RejectView (queueView s)) :
    RejectView (queueView (completionHandler s)) :=
  completionHandler_view rejectView_reset rejectView_reset rejectView_reset
    (fun _ _ h => ⟨h.policy, h.fits, h.running⟩) (fun _ _ h => h) (fun _ _ h => h)
    (rejectView_busInit (preKeeps_isr rejectView_reset)) (fun _ _ h => rejectView_popped h)
    (fun _ _ _ _ h => rejectView_dispatchNext h) hs

theorem rejectView_pre : PreKeeps .pri RejectView :=
  preKeeps_pri_of_handler rejectView_reset fun _ h _ => rejectView_handler h

theorem rejectFits_pre (t : Txn) : PreKeeps .pri (RejectFits t) := by
  intro s hs
  have same_cfg : (queueView (Actor.pri.pre s)).cfg = s.cfg := (partStable_cfg s.cfg).pre s rfl
  exact ⟨rejectView_pre s hs.rejects, by rw [same_cfg]; exact hs.fits⟩

/-- The view after a push (R206). -/
def QueueView.pushed (t : Txn) (v : QueueView) : QueueView :=
  { v with queue := v.queue ++ [t], depth := v.depth + 1 }

theorem rejectView_acceptTxn (r : Byte) (bytes : List Byte) {s : State} (hs : RejectView (queueView s))
    (fits : bytes.length + r.toNat ≤ s.cfg.maxXfer) : RejectView (queueView (acceptTxn r bytes s)) := by
  have pre := rejectFits_pre (makeTxn .pri bytes r s).1
  have made : RejectFits (makeTxn .pri bytes r s).1 (queueView (makeTxn .pri bytes r s).2) :=
    makeTxn_keeps (P := fun u => RejectFits (makeTxn .pri bytes r s).1 (queueView u)) pre (fun _ _ h => h)
      (fun _ _ _ _ h => h) bytes r ⟨hs, fits⟩
  have saved := irqSave_view (R := fun _ => RejectFits (makeTxn .pri bytes r s).1) pre
    (fun _ _ h => ⟨⟨h.rejects.policy, h.rejects.fits, h.rejects.running⟩, h.fits⟩) (fun _ _ _ h => h) made
  have pushed := act_view (a := pushTxn (makeTxn .pri bytes r s).1) (R := RejectFits (makeTxn .pri bytes r s).1) pre
    (fun u _ h => ⟨⟨h.rejects.policy, fun t mem => (List.mem_append.1 mem).elim (h.rejects.fits t)
      (fun new => List.mem_singleton.1 new ▸ h.fits), h.rejects.running⟩, h.fits⟩) (fun _ _ h => h) saved
  refine irqRestore_view rejectView_pre _ (fun _ _ h => ⟨h.policy, h.fits, h.running⟩) (fun _ _ h => h) ?_
  split
  · exact rejectView_dispatch rejectFits_pre (last := advance (enqueueWords bytes)) (fun _ => rfl) _ pushed
  · exact pushed.rejects

theorem viewStable_rejectView : ViewStable RejectView where
  reset := rejectView_reset
  uncut _ h := ⟨h.policy, h.fits, h.running⟩
  pre := rejectView_pre
  send code rel s hs := by
    refine irqRestore_view rejectView_pre _ (fun _ _ h => ⟨h.policy, h.fits, h.running⟩) (fun _ _ h => h) ?_
    refine sendProtocol_plain rejectView_pre rfl code rel ?_
    exact irqSave_view (R := fun _ => RejectView) rejectView_pre (fun _ _ h => ⟨h.policy, h.fits, h.running⟩)
      (fun _ _ _ h => h) hs
  init := rejectView_busInit rejectView_pre
  accept r bytes s hs _ _ not_rejected :=
    rejectView_acceptTxn r bytes hs (Nat.not_lt.1 fun oversize => not_rejected ⟨hs.policy, oversize⟩)

/-- Settles O57: only transactions that fit are queued, and only the dispatch of one that does not halts the block. -/
theorem rejectPolicyNeverHalts : Obligations.RejectPolicyNeverHalts := by
  unfold Obligations.RejectPolicyNeverHalts
  intro s t hs stepped
  exact (rejectOk_iff t).2 (viewStable_rejectView.step ((rejectOk_iff s).1 hs) stepped)

/-! ## The mask (60_exceptions.md R271) -/

/-- The mask, while the block lives. -/
def MaskedAs (m : Bool) (v : QueueView) : Prop := v.live = true → v.masked = m

/-- The saved mask is the one to come back to. -/
def SavedAs (m saved : Bool) (v : QueueView) : Prop := v.live = true → saved = m

theorem maskedAs_reset (m : Bool) (v : QueueView) (_ : MaskedAs m v) : MaskedAs m (.reset v.cfg) :=
  fun live => by cases live

theorem savedAs_reset (m saved : Bool) (v : QueueView) (_ : SavedAs m saved v) : SavedAs m saved (.reset v.cfg) :=
  fun live => by cases live

/-- A halted block is not live. -/
theorem QueueView.live_halted (v : QueueView) : { v with halted := true }.live = false := by simp [QueueView.live]

theorem maskedAs_dispatchNext {m : Bool} {s : State} (hs : MaskedAs m (queueView s)) :
    MaskedAs m (queueView (dispatchNext .isr s)) := by
  unfold dispatchNext
  split
  · exact hs
  case h_2 t rest queue =>
    have pre (saved : Bool) : PreKeeps .isr (SavedAs m saved) := preKeeps_isr (savedAs_reset m saved)
    have saved : SavedAs m (irqSave .isr s).1 (queueView (irqSave .isr s).2) :=
      irqSave_view (R := SavedAs m) (preKeeps_isr (maskedAs_reset m)) (fun v live h _ => h live)
        (fun _ v dead _ live => absurd (dead.symm.trans live) Bool.false_ne_true) hs
    have dispatched : SavedAs m (irqSave .isr s).1 (queueView (dispatch .isr id t (irqSave .isr s).2)) :=
      dispatch_view (pre _) (fun _ => rfl)
        (fun _ v _ _ live => absurd (v.live_halted.symm.trans live) Bool.false_ne_true) (.inr fun _ _ h => h)
        (fun _ _ h => h) saved
    exact irqRestore_view (pre _) _ (fun _ live h _ => h live)
      (fun _ dead _ live => absurd (dead.symm.trans live) Bool.false_ne_true) dispatched

/-- Settles O52: only the dispatch of the next transaction writes the mask, and it restores what it saved. -/
theorem handlerRestoresTheMask : Obligations.HandlerRestoresTheMask := by
  unfold Obligations.HandlerRestoresTheMask
  intro s live returned
  have resets := maskedAs_reset s.masked
  have start : MaskedAs s.masked (queueView s) := fun _ => rfl
  refine completionHandler_view resets resets resets (fun _ _ h => h) (fun _ _ h => h) (fun _ _ h => h)
    (fun _ h => busInit_keeps (preKeeps_isr resets) (fun _ h => h) (fun _ h => h) h) ?pop
    (fun _ _ _ _ h => maskedAs_dispatchNext h) start returned
  case pop =>
    intro v _ h live
    unfold QueueView.popped at *
    split at live <;> exact h live

/-! ## The entry (60_exceptions.md R266, R269) -/

/-- What comes before a step uses the schedule up to the next turn of PRI. -/
theorem runTurns_tape (ts : List Turn) (s : State) : (runTurns ts s).tape <:+ ts.tail := by
  induction ts generalizing s with
  | nil => exact List.suffix_refl _
  | cons turn rest ih =>
    cases turn with
    | main => exact List.suffix_refl _
    | enc => exact (ih _).trans (List.tail_suffix rest)
    | env e => exact (ih _).trans (List.tail_suffix rest)

theorem partStable_tape (ts : List Turn) : PartStable fun s => s.tape <:+ ts where
  congr same hs := by rw [same.tape]; exact hs
  raise _ _ hs := hs
  pop s hs := by unfold popAndFree; split <;> exact hs
  deliver _ _ _ hs := hs
  reset _ hs _ := hs
  tape _ _ hs suffix := suffix.trans hs

/-- The handler's first step uses the schedule up to the next turn of PRI, and the rest does not add to it. -/
theorem completionHandler_tape {s : State} (live : s.live = true) : (completionHandler s).tape <:+ s.tape.tail := by
  have stable := partStable_tape s.tape.tail
  have keeps (a : State → State) (ha : ∀ u, (a u).tape = u.tape) {u : State} (hu : u.tape <:+ s.tape.tail) :
      (Actor.isr.act a u).tape <:+ s.tape.tail :=
    act_keeps (P := fun u => u.tape <:+ s.tape.tail) stable.turns.isrPre (fun t ht => by rw [ha]; exact ht) hu
  have first : (Actor.isr.pre s).tape <:+ s.tape.tail := by
    show (if s.live then turns s else s).tape <:+ _
    rw [if_pos live]
    exact runTurns_tape s.tape s
  refine (stable.bus .isr).completionTail (keeps readStatus (fun _ => rfl) ?_)
  rcases act_cases .isr (fun s => { s with bq := { s.bq with inflight := false } }) s with ⟨-, does⟩ | ⟨-, skips⟩
  · rw [does]; exact first
  · rw [skips]; exact first

/-- No turn is scheduled and no completion is pending. -/
structure Unpended (s : State) : Prop where
  tape : s.tape = []
  pending : s.pending = false

theorem busStable_unpended : BusStable .isr Unpended where
  enc s hs := by rw [encStep_frame]; exact ⟨hs.tape, hs.pending⟩
  env e s hs scheduled := absurd (hs.tape ▸ scheduled) List.not_mem_nil
  tape s ts hs suffix := ⟨List.suffix_nil.1 (hs.tape ▸ suffix), hs.pending⟩
  emit _ _ _ hs := ⟨hs.tape, hs.pending⟩
  scl _ _ hs := ⟨hs.tape, hs.pending⟩
  sda _ _ hs := ⟨hs.tape, hs.pending⟩
  funcScl _ _ hs := ⟨hs.tape, hs.pending⟩
  funcSda _ _ hs := ⟨hs.tape, hs.pending⟩
  pullScl _ _ hs := ⟨hs.tape, hs.pending⟩
  pullSda _ _ hs := ⟨hs.tape, hs.pending⟩
  irqEn _ hs := ⟨hs.tape, hs.pending⟩
  ready _ hs := ⟨hs.tape, hs.pending⟩
  raise _ _ hs := ⟨hs.tape, hs.pending⟩
  mask _ _ hs := ⟨hs.tape, hs.pending⟩
  prepare _ _ hs := ⟨hs.tape, hs.pending⟩
  dmaStart _ _ _ _ hs := ⟨hs.tape, hs.pending⟩
  dmaAbort _ _ hs := ⟨hs.tape, hs.pending⟩
  markInflight _ hs := ⟨hs.tape, hs.pending⟩
  notInflight _ hs := ⟨hs.tape, hs.pending⟩
  readStatus _ hs := ⟨hs.tape, rfl⟩
  countFault _ hs := ⟨hs.tape, hs.pending⟩
  pop s hs := by unfold popAndFree; split <;> exact ⟨hs.tape, hs.pending⟩

/-- With no turn scheduled the handler leaves no completion pending: it has read the status. -/
theorem unpended_completionHandler {s : State} (empty : s.tape = []) (live : s.live = true) :
    Unpended (completionHandler s) := by
  refine busStable_unpended.completionTail ?_
  simp only [BusStable.statusSteps, Actor.run_cons, Actor.run_nil]
  rw [isr_act_of_empty empty live, isr_act_of_empty (s := { s with bq := { s.bq with inflight := false } }) empty live]
  exact ⟨empty, rfl⟩

/-- Entries enough for the schedule leave no entry condition behind. -/
theorem takeInterrupt_not_ready (n : Nat) {s : State} (enough : s.tape.length < n) :
    ((takeInterrupt n s).irqReady && (takeInterrupt n s).live) = false := by
  induction n generalizing s with
  | zero => cases enough
  | succ n ih =>
    unfold takeInterrupt
    split
    case isFalse not_entered => simpa using not_entered
    case isTrue entered =>
      obtain ⟨-, live⟩ := Bool.and_eq_true_iff.1 entered
      cases schedule : s.tape with
      | nil =>
        have after : Unpended (interruptReturn (completionHandler s)) :=
          busStable_unpended.interruptReturn (unpended_completionHandler schedule live)
        have not_ready : (interruptReturn (completionHandler s)).irqReady = false := by
          simp [State.irqReady, after.pending]
        have stays : takeInterrupt n (interruptReturn (completionHandler s)) =
            interruptReturn (completionHandler s) := by
          cases n with
          | zero => rfl
          | succ n => rw [takeInterrupt, not_ready]; rfl
        rw [stays, not_ready, Bool.false_and]
      | cons turn rest =>
        refine ih (Nat.lt_of_le_of_lt ?_ (Nat.lt_of_succ_lt_succ (schedule ▸ enough)))
        have shorter := completionHandler_tape live
        rw [schedule, List.tail_cons] at shorter
        exact ((partStable_tape rest).turns.interruptReturn shorter).length_le

/-- Settles O51: each entry uses a turn of the schedule, or leaves no completion pending. -/
theorem interruptGoesFirst : Obligations.InterruptGoesFirst := by
  unfold Obligations.InterruptGoesFirst
  intro s live
  cases alive : s.live with
  | false =>
    rw [boundary, alive] at live
    exact absurd (alive.symm.trans live) Bool.false_ne_true
  | true =>
    have stays : boundary s = takeInterrupt (s.tape.length + 1) (turns s) := by rw [boundary, if_pos alive]
    have fewer : (turns s).tape.length < s.tape.length + 1 :=
      Nat.lt_succ_of_le (((partStable_tape s.tape).turns.turns (List.suffix_refl _)).length_le)
    have not_entered := takeInterrupt_not_ready _ fewer
    rw [← stays, live, Bool.and_true] at not_entered
    exact not_entered

end Sys2Proof.Proofs
end

section
/-! The bookkeeping of the bus queue, kept by every step under every schedule (10_state.md R35, R38, R61,
43_bus_queue.md R203, R205, R212, 60_exceptions.md R271). -/

namespace Sys2Proof.Proofs

open Sys2Proof.Machine Sys2Proof.Claims

/-! ## The invariant and its phases -/

/-- The part of the bookkeeping that every atomic step keeps; `enabled` and `configured` say what is known of the handler
and of the controller. -/
structure Booked (enabled configured : Bool) (v : QueueView) : Prop where
  depth : v.depth = BitVec.ofNat 32 v.queue.length
  nonempty : ∀ t ∈ v.queue, 0 < t.units
  ready : v.queue ≠ [] → v.ready = true
  handler : v.ready = true → v.irqEn = true
  known_enabled : enabled = true → v.irqEn = true
  known_configured : configured = true → v.ready = true

/-- `State.QueueOk` on the view, but for the mark of a cut. -/
structure BookOk (v : QueueView) : Prop where
  booked : Booked false false v
  unmasked : v.halted = false → v.masked = false
  inflight : v.halted = false → v.inflight = !v.queue.isEmpty
  haltedHead : v.halted = true →
    v.masked = true ∧ v.inflight = false ∧ ∃ t rest, v.queue = t :: rest ∧ v.cfg.maxXfer < t.units

theorem queueOk_iff (s : State) : s.QueueOk ↔ s.cut = false ∧ BookOk (queueView s) := by
  constructor
  · intro h
    exact ⟨h.cut, ⟨h.depth, h.nonempty, h.ready, h.handler, nofun, nofun⟩, h.unmasked, h.inflight, h.haltedHead⟩
  · rintro ⟨uncut, ⟨depth, nonempty, ready, handler, -, -⟩, unmasked, inflight, haltedHead⟩
    exact ⟨uncut, depth, nonempty, ready, handler, unmasked, inflight, haltedHead⟩

/-- While the block lives the bookkeeping is in phase `c`; a block that is halted or cut off has it done. -/
structure Phase (enabled configured : Bool) (c : QueueView → Prop) (v : QueueView) : Prop where
  living : v.live = true → Booked enabled configured v ∧ c v
  dead : v.live = false → BookOk v

/-- Outside every critical section and outside the handler. -/
structure AtRest (v : QueueView) : Prop where
  unmasked : v.masked = false
  inflight : v.inflight = !v.queue.isEmpty

/-- In the handler, before the next dispatch. -/
structure Completed (v : QueueView) : Prop where
  unmasked : v.masked = false
  inflight : v.inflight = false

/-- In a critical section that saved mask `m`, before the dispatch of the head `t`. -/
structure Pending (m : Bool) (t : Txn) (v : QueueView) : Prop where
  masked : v.masked = true
  saved : m = false
  inflight : v.inflight = false
  head : ∃ rest, v.queue = t :: rest

/-- In a critical section that saved mask `m`, with nothing to dispatch. -/
structure Flying (m : Bool) (v : QueueView) : Prop where
  masked : v.masked = true
  saved : m = false
  inflight : v.inflight = !v.queue.isEmpty

variable {e r : Bool} {c d : QueueView → Prop}

/-- The bookkeeping speaks of four fields. -/
theorem Booked.congr {v w : QueueView} (b : Booked e r v) (depth : w.depth = v.depth := by rfl)
    (queue : w.queue = v.queue := by rfl) (ready : w.ready = v.ready := by rfl) (irqEn : w.irqEn = v.irqEn := by rfl) :
    Booked e r w := by
  refine ⟨?_, ?_, ?_, ?_, ?_, ?_⟩
  · rw [depth, queue]; exact b.depth
  · rw [queue]; exact b.nonempty
  · rw [queue, ready]; exact b.ready
  · rw [ready, irqEn]; exact b.handler
  · rw [irqEn]; exact b.known_enabled
  · rw [ready]; exact b.known_configured

theorem Booked.forget {v : QueueView} (h : Booked e r v) : Booked false false v :=
  ⟨h.depth, h.nonempty, h.ready, h.handler, nofun, nofun⟩

theorem running_of_live {v : QueueView} (live : v.live = true) : v.halted = false := by
  simp only [QueueView.live, Bool.and_eq_true, Bool.not_eq_true'] at live
  exact live.2

theorem bookOk_iff (v : QueueView) : BookOk v ↔ Phase false false AtRest v := by
  constructor
  · exact fun h =>
      ⟨fun live => ⟨h.booked, h.unmasked (running_of_live live), h.inflight (running_of_live live)⟩, fun _ => h⟩
  · intro h
    cases living : v.live with
    | false => exact h.dead living
    | true =>
      obtain ⟨booked, rest⟩ := h.living living
      have running := running_of_live living
      exact ⟨booked, fun _ => rest.unmasked, fun _ => rest.inflight,
        fun halted => absurd (running.symm.trans halted) Bool.false_ne_true⟩

/-- A phase speaks of a living block only. -/
theorem Phase.of_dead {v : QueueView} (h : Phase e r c v) (dead : v.live = false) (e' r' : Bool)
    (d : QueueView → Prop) : Phase e' r' d v :=
  ⟨fun live => absurd (dead.symm.trans live) Bool.false_ne_true, h.dead⟩

/-- A change of the view that leaves the block alive. -/
theorem Phase.of_living {v : QueueView} (live : v.live = true) (h : Booked e r v ∧ c v) : Phase e r c v :=
  ⟨fun _ => h, fun dead => absurd (dead.symm.trans live) Bool.false_ne_true⟩

theorem Phase.imp {v : QueueView} (h : Phase e r c v) (imp : c v → d v) : Phase e r d v :=
  ⟨fun live => (h.living live).imp id imp, h.dead⟩

theorem bookOk_reset (cfg : Params) : BookOk (.reset cfg) :=
  ⟨⟨rfl, fun _ mem => (nomatch mem), fun h => absurd rfl h, nofun, nofun, nofun⟩, fun _ => rfl, fun _ => rfl, nofun⟩

theorem phase_reset (v : QueueView) (_ : Phase e r c v) : Phase e r c (.reset v.cfg) :=
  ⟨nofun, fun _ => bookOk_reset _⟩

theorem phase_isr : PreKeeps .isr (Phase e r c) := preKeeps_isr phase_reset

theorem phase_masked (masked : ∀ v, c v → v.masked = true) : PreKeeps .pri (Phase e r c) :=
  preKeeps_pri_of_masked phase_reset fun v h live => masked v (h.living live).2

/-! ## Dispatches and bus initialisation -/

/-- BusInit keeps a phase that does not speak of the handler or the controller (R222). -/
theorem phase_busInit {A : Actor} (pre : ∀ e r, PreKeeps A (Phase e r c))
    (blind : ∀ v a b, c v → c { v with irqEn := a, ready := b }) (s : State) (hs : Phase e r c (queueView s)) :
    Phase e r c (queueView (busInit A s)) := by
  have done : Phase true true c (queueView (busInit A s)) := by
    refine busInit_view (E := Phase true r c) (pre e r) (pre true r) ?enable (fun _ dead h => h.of_dead dead ..) ?ready
      (fun _ dead h => h.of_dead dead ..) hs
    case enable =>
      intro v live h
      obtain ⟨b, hc⟩ := h.living live
      exact .of_living live
        ⟨⟨b.depth, b.nonempty, b.ready, fun _ => rfl, fun _ => rfl, b.known_configured⟩, blind v true v.ready hc⟩
    case ready =>
      intro v live h
      obtain ⟨b, hc⟩ := h.living live
      exact .of_living live ⟨⟨b.depth, b.nonempty, fun _ => rfl, fun _ => b.known_enabled rfl, b.known_enabled,
        fun _ => rfl⟩, blind v v.irqEn true hc⟩
  have weaken {v : QueueView} (b : Booked true true v) : Booked e r v :=
    ⟨b.depth, b.nonempty, b.ready, b.handler, fun _ => b.known_enabled rfl, fun _ => b.known_configured rfl⟩
  exact ⟨fun live => (done.living live).imp weaken id, done.dead⟩

/-- The dispatch of the head: its transfer is in flight, or the block has halted with it at the head (R210, R212). -/
theorem phase_dispatch {A : Actor}
    (pre : ∀ c' : QueueView → Prop, PreKeeps A (Phase e r fun v => v.masked = true ∧ c' v)) {last : State → State} (hlast : Plain last) (m : Bool) (t : Txn) {s : State}
    (hs : Phase e r (Pending m t) (queueView s)) : Phase e r (Flying m) (queueView (dispatch A last t s)) := by
  have start : Phase e r (fun v => v.masked = true ∧ Pending m t v ∧ v.cfg = s.cfg) (queueView s) :=
    hs.imp fun h => ⟨h.masked, h, rfl⟩
  refine dispatch_view (pre _) hlast ?halts (.inr ?flies) (fun _ dead h => h.of_dead dead ..) start
  case halts =>
    intro oversize v live h
    obtain ⟨b, masked, ⟨-, -, idle, rest, head⟩, same_cfg⟩ := h.living live
    refine ⟨fun still => absurd (v.live_halted.symm.trans still) Bool.false_ne_true, fun _ => ?_⟩
    exact ⟨b.forget.congr, nofun, nofun,
      fun _ => ⟨masked, idle, t, rest, head, same_cfg ▸ oversize⟩⟩
  case flies =>
    intro v live h
    obtain ⟨b, masked, ⟨-, saved, -, rest, head⟩, -⟩ := h.living live
    refine .of_living live ⟨b.congr, masked, saved, ?_⟩
    show true = !v.queue.isEmpty
    rw [head]; rfl

/-- The end of a critical section (60_exceptions.md R268). -/
theorem phase_restore {A : Actor} {m : Bool} (pre : PreKeeps A (Phase e r (Flying m))) {s : State}
    (hs : Phase e r (Flying m) (queueView s)) : Phase e r AtRest (queueView (irqRestore A m s)) := by
  refine irqRestore_view pre m (fun v live h => ?_) (fun _ dead h => h.of_dead dead ..) hs
  obtain ⟨b, flying⟩ := h.living live
  exact .of_living live ⟨b.congr,
    flying.saved, flying.inflight⟩

/-- The start of a critical section, from a phase in which the interrupt is not masked. -/
theorem phase_save {A : Actor} (pre : PreKeeps A (Phase e r c)) {d : Bool → QueueView → Prop}
    (masks : ∀ v, c v → d v.masked { v with masked := true }) {s : State} (hs : Phase e r c (queueView s)) :
    Phase e r (d (irqSave A s).1) (queueView (irqSave A s).2) := by
  refine irqSave_view (R := fun m => Phase e r (d m)) pre (fun v live h => ?_) (fun _ _ dead h => h.of_dead dead ..) hs
  obtain ⟨b, hc⟩ := h.living live
  exact .of_living live ⟨b.congr, masks v hc⟩

/-! ## The handler (43_bus_queue.md R214 to R220) -/

theorem phase_popped {v : QueueView} (live : v.live = true) (h : Phase e r Completed v) :
    Phase e r Completed v.popped := by
  obtain ⟨b, completed⟩ := h.living live
  unfold QueueView.popped
  split
  case h_1 => exact h
  case h_2 t rest queue =>
    have depth := b.depth
    rw [queue, List.length_cons] at depth
    refine .of_living live ⟨⟨?depth, fun u mem => b.nonempty u (queue ▸ List.mem_cons_of_mem _ mem), fun _ =>
      b.ready (queue ▸ List.cons_ne_nil _ _), b.handler, b.known_enabled, b.known_configured⟩,
      completed.unmasked, completed.inflight⟩
    show v.depth - 1 = _
    rw [depth, BitVec.ofNat_add]
    simp

theorem phase_dispatchNext {s : State} (t : Txn) (rest : List Txn) (queue : s.bq.queue = t :: rest)
    (hs : Phase e r Completed (queueView s)) : Phase e r AtRest (queueView (dispatchNext .isr s)) := by
  have head : Phase e r (fun v => Completed v ∧ ∃ rest, v.queue = t :: rest) (queueView s) :=
    hs.imp fun h => ⟨h, rest, queue⟩
  have saved := phase_save (d := fun m => Pending m t) phase_isr
    (fun v h => ⟨rfl, h.1.unmasked, h.1.inflight, h.2⟩) head
  rw [dispatchNext, queue]
  exact phase_restore phase_isr (phase_dispatch (fun _ => phase_isr) (fun _ => rfl) _ t saved)

theorem phase_handler {s : State} (hs : Phase e r AtRest (queueView s)) :
    Phase e r AtRest (queueView (completionHandler s)) := by
  refine completionHandler_view (M := Phase e r Completed) phase_reset phase_reset phase_reset ?taken
    (fun _ dead h => h.of_dead dead ..) ?empty
    (phase_busInit (fun _ _ => phase_isr) fun _ _ _ h => ⟨h.unmasked, h.inflight⟩) (fun _ live h => phase_popped live h) (fun s t rest queue h => phase_dispatchNext t rest queue h) hs
  case taken =>
    intro v live h
    obtain ⟨b, rest⟩ := h.living live
    exact .of_living live ⟨b.congr,
      rest.unmasked, rfl⟩
  case empty =>
    intro v none_queued h
    refine h.imp fun completed => ⟨completed.unmasked, ?_⟩
    rw [completed.inflight, none_queued]; rfl

theorem phase_pri : PreKeeps .pri (Phase e r AtRest) :=
  preKeeps_pri_of_handler phase_reset fun _ h _ => phase_handler h

/-! ## Commands -/

theorem Flying.of_atRest (v : QueueView) (h : AtRest v) : Flying v.masked { v with masked := true } :=
  ⟨rfl, h.unmasked, h.inflight⟩

theorem phase_flying (m : Bool) : PreKeeps .pri (Phase e r (Flying m)) := phase_masked fun _ h => h.masked

/-- A push in a critical section leaves the head to be dispatched if it is the first, and nothing to do if it is not
(R206). -/
theorem phase_push {m : Bool} {t : Txn} (nonempty : 0 < t.units) {s : State}
    (hs : Phase e true (Flying m) (queueView s)) :
    (s.bq.queue = [] → Phase e true (Pending m t) (queueView (Actor.pri.act (pushTxn t) s))) ∧
      (s.bq.queue ≠ [] → Phase e true (Flying m) (queueView (Actor.pri.act (pushTxn t) s))) := by
  have booked {v : QueueView} (b : Booked e true v) : Booked e true (v.pushed t) := by
    refine ⟨?depth, ?nonempty, fun _ => b.known_configured rfl, b.handler, b.known_enabled, b.known_configured⟩
    case depth =>
      show v.depth + 1 = BitVec.ofNat 32 (v.queue ++ [t]).length
      rw [b.depth, List.length_append, BitVec.ofNat_add]; rfl
    case nonempty =>
      intro u mem
      rcases List.mem_append.1 mem with old | new
      · exact b.nonempty u old
      · exact List.mem_singleton.1 new ▸ nonempty
  have pushes {c d : QueueView → Prop} (masked : ∀ v, c v → v.masked = true) (does : ∀ v, c v → d (v.pushed t))
      (h : Phase e true c (queueView s)) : Phase e true d (queueView (Actor.pri.act (pushTxn t) s)) := by
    refine act_view (phase_masked masked) (fun u live h => ?_) (fun _ dead h => h.of_dead dead ..) h
    obtain ⟨b, hc⟩ := h.living live
    exact .of_living live ⟨booked b, does _ hc⟩
  constructor
  · intro empty
    refine pushes (c := fun v => Flying m v ∧ v.queue = []) (fun _ h => h.1.masked) ?_ (hs.imp fun h => ⟨h, empty⟩)
    rintro v ⟨flying, none_queued⟩
    refine ⟨flying.masked, flying.saved, ?_, [], ?_⟩
    · show v.inflight = false
      rw [flying.inflight, none_queued]; rfl
    · show v.queue ++ [t] = [t]
      rw [none_queued]; rfl
  · intro queued
    refine pushes (c := fun v => Flying m v ∧ v.queue ≠ []) (fun _ h => h.1.masked) ?_ (hs.imp fun h => ⟨h, queued⟩)
    rintro v ⟨flying, some_queued⟩
    refine ⟨flying.masked, flying.saved, ?_⟩
    show v.inflight = !(v.queue ++ [t]).isEmpty
    rw [flying.inflight, List.isEmpty_eq_false_iff.2 some_queued, List.isEmpty_eq_false_iff.2 (by simp)]

theorem phase_acceptTxn (r : Byte) (bytes : List Byte) {s : State} (nonempty : bytes.length + r.toNat ≠ 0)
    (hs : Phase e true AtRest (queueView s)) : Phase e true AtRest (queueView (acceptTxn r bytes s)) := by
  have made : Phase e true AtRest (queueView (makeTxn .pri bytes r s).2) :=
    makeTxn_keeps (P := fun u => Phase e true AtRest (queueView u)) phase_pri (fun _ _ h => h) (fun _ _ _ _ h => h)
      bytes r hs
  have units : 0 < (makeTxn .pri bytes r s).1.units := Nat.pos_of_ne_zero nonempty
  have saved := phase_save phase_pri Flying.of_atRest made
  obtain ⟨first, behind⟩ := phase_push units saved
  refine phase_restore (phase_flying _) ?_
  split
  case isTrue empty =>
    exact phase_dispatch (fun _ => phase_masked fun _ h => h.1) (last := advance (enqueueWords bytes)) (fun _ => rfl) _ _
      (first empty)
  case isFalse queued => exact behind queued

theorem phase_kbSendCore (code : Byte) (rel : Bool) {s : State} (hs : Phase e r AtRest (queueView s)) :
    Phase e r AtRest (queueView (kbSendCore code rel s)) :=
  phase_restore (phase_flying _)
    (sendProtocol_plain (phase_flying _) rfl code rel (phase_save phase_pri Flying.of_atRest hs))

theorem viewStable_bookOk : ViewStable BookOk where
  reset v _ := bookOk_reset v.cfg
  uncut _ h := ⟨h.booked.congr, h.unmasked, h.inflight, h.haltedHead⟩
  pre s hs := (bookOk_iff _).2 (phase_pri s ((bookOk_iff _).1 hs))
  send code rel s hs := (bookOk_iff _).2 (phase_kbSendCore code rel ((bookOk_iff _).1 hs))
  init s hs := (bookOk_iff _).2 (phase_busInit (fun _ _ => phase_pri) (fun _ _ _ h => ⟨h.unmasked, h.inflight⟩) s
    ((bookOk_iff _).1 hs))
  accept r bytes s hs ready nonempty _ := by
    have configured : Phase false true AtRest (queueView s) := by
      have h := (bookOk_iff _).1 hs
      exact ⟨fun live => (h.living live).imp
        (fun b => ⟨b.depth, b.nonempty, b.ready, b.handler, b.known_enabled, fun _ => ready⟩) id, h.dead⟩
    have accepted := phase_acceptTxn r bytes nonempty configured
    exact (bookOk_iff _).2 ⟨fun live => (accepted.living live).imp (fun b => b.forget) id, accepted.dead⟩

/-! ## Every step -/

theorem holdStep_uncut (s : State) : (holdStep s).cut = false := by
  unfold holdStep
  split <;> rfl

/-- A command's mark of a cut does not outlast its step. -/
theorem exec_uncut {i : Instr} {s t : State} (runs : exec i s = .next t) : t.cut = false := by
  cases i with
  | bqEnqueue r bytes =>
    simp only [exec, execBqEnqueue] at runs
    cases runs
    split
    · rfl
    · split
      · rfl
      · split
        · rfl
        · split
          · exact holdStep_uncut s
          · rfl
  | _ => cases runs; rfl

theorem step_uncut {s t : State} (stepped : step s = .next t) : t.cut = false := by
  unfold step at stepped
  split at stepped
  · cases stepped
  · split at stepped
    · unfold haltedStep at stepped
      split at stepped
      · cases stepped
      · cases stepped; rfl
    · split at stepped
      · exact exec_uncut stepped
      · cases stepped; rfl
      · cases stepped; rfl
      · cases stepped; exact holdStep_uncut s
      · cases stepped; exact holdStep_uncut s

/-- Settles O53: each critical section and the handler go through the phases of a dispatch and end at rest, or halted with
the over-size head. -/
theorem stepKeepsQueueOk : Obligations.StepKeepsQueueOk := by
  unfold Obligations.StepKeepsQueueOk
  intro s t hs stepped
  obtain ⟨-, book⟩ := (queueOk_iff s).1 hs
  exact (queueOk_iff t).2 ⟨step_uncut stepped, viewStable_bookOk.step book stepped⟩

end Sys2Proof.Proofs
end

section
/-! KbSendCore under every schedule: inside its critical section only turns of ENC and ENV come between its atomic steps,
and none of them touches what the send reads or writes, so it does what it does in a quiet state (42_keyboard.md R169,
R171, 60_exceptions.md R268, R273). -/

namespace Sys2Proof.Proofs

open Sys2Proof.Machine Sys2Proof.Claims

/-! ## The part of a state that a send reads and writes -/

structure SendPart where
  cfg : Params
  kb : Kb
  fe : Fe
  masked : Bool
  halted : Bool
  cut : Bool
  events : List TraceEntry

def sendPart (s : State) : SendPart where
  cfg := s.cfg
  kb := s.kb
  fe := s.fe
  masked := s.masked
  halted := s.halted
  cut := s.cut
  events := mainTrace s

/-- The part with this keyboard and these events after it. -/
def SendPart.after (v : SendPart) (k : Kb) (evs : List TraceEntry) : SendPart :=
  { v with kb := k, events := v.events ++ evs }

theorem SendPart.after_after (v : SendPart) (k k' : Kb) (evs evs' : List TraceEntry) :
    (v.after k evs).after k' evs' = v.after k' (evs ++ evs') := by
  simp [SendPart.after]

theorem sendPart_encStep (s : State) : sendPart (encStep s) = sendPart s := by
  have events := mainTrace_encStep s
  simp only [sendPart, events]
  rw [encStep_frame]
  rfl

theorem sendPart_envStep {e : EnvEvent} (he : e ≠ .reset) (s : State) : sendPart (envStep e s) = sendPart s := by
  rw [envStep_frame he]
  rfl

theorem sendPart_raise {b : FaultBit} (hb : b ≠ .halted) (s : State) : sendPart (raise b s) = sendPart s := by
  simp only [sendPart, Laws.halted_raise s b hb]
  rfl

/-- No reset is scheduled and the part is `v`. -/
structure Held (v : SendPart) (s : State) : Prop where
  noReset : s.NoReset
  part : sendPart s = v

theorem turnStable_held (v : SendPart) : TurnStable (Held v) where
  enc s hs := ⟨by unfold State.NoReset; rw [encStep_tape]; exact hs.noReset, (sendPart_encStep s).trans hs.part⟩
  env e s hs scheduled := ⟨by unfold State.NoReset; rw [envStep_tape]; exact hs.noReset,
    (sendPart_envStep (fun reset => hs.noReset (reset ▸ scheduled)) s).trans hs.part⟩
  tape _ _ hs suffix := ⟨fun mem => hs.noReset (suffix.subset mem), hs.part⟩

/-- While the interrupt is masked only turns come before a step of PRI (R268). -/
theorem held_boundary_of_masked {v : SendPart} (masked : v.masked = true) {s : State} (hs : Held v s) :
    Held v (boundary s) := by
  refine boundary_keeps (turnStable_held v) (fun u hu _ ready => ?_) hs
  have is_masked : u.masked = true := (congrArg SendPart.masked hu.part).trans masked
  simp [State.irqReady, is_masked] at ready

/-! ## What an action or a run does to that part -/

/-- From parameters `cfg` and keyboard `k`, `F` leaves keyboard `k'` and appends these events. -/
def Adds (F : State → State) (cfg : Params) (k k' : Kb) (evs : List TraceEntry) : Prop :=
  ∀ s, s.cfg = cfg → s.kb = k → sendPart (F s) = (sendPart s).after k' evs

theorem Adds.comp {F G : State → State} {cfg : Params} {k k' k'' : Kb} {evs evs' : List TraceEntry}
    (hG : Adds G cfg k' k'' evs') (hF : Adds F cfg k k' evs) : Adds (fun s => G (F s)) cfg k k'' (evs ++ evs') := by
  intro s cfg_eq kb_eq
  have first := hF s cfg_eq kb_eq
  have cfg_after : (F s).cfg = cfg := (congrArg SendPart.cfg first).trans cfg_eq
  have second := hG (F s) cfg_after (congrArg SendPart.kb first)
  rw [second, first, SendPart.after_after]

theorem Adds.congr {F G : State → State} {cfg : Params} {k k' : Kb} {evs : List TraceEntry} (hF : Adds F cfg k k' evs)
    (same : ∀ s, s.cfg = cfg → s.kb = k → G s = F s) : Adds G cfg k k' evs := by
  intro s cfg_eq kb_eq
  rw [same s cfg_eq kb_eq]
  exact hF s cfg_eq kb_eq

theorem adds_emit (e : Event) (cfg : Params) (k : Kb) : Adds (emit .pri e) cfg k k [⟨.pri, e⟩] := by
  rintro s - rfl
  have events : mainTrace (emit .pri e s) = mainTrace s ++ [⟨.pri, e⟩] := by simp [mainTrace]
  simp only [sendPart, events]
  rfl

theorem adds_traced (evs : List Event) (cfg : Params) (k : Kb) :
    Adds (traced .pri evs) cfg k k (evs.map fun e => ⟨.pri, e⟩) := by
  rintro s - rfl
  have events : mainTrace (traced .pri evs s) = mainTrace s ++ evs.map fun e => ⟨.pri, e⟩ := by
    have kept : (evs.map fun e => (⟨.pri, e⟩ : TraceEntry)).filter (fun x => x.agent != .enc) =
        evs.map fun e => ⟨.pri, e⟩ :=
      List.filter_eq_self.2 (by simp)
    rw [mainTrace, traced, List.filter_append, kept]
    rfl
  simp only [sendPart, events]
  rfl

/-- A run that leaves the part alone. -/
theorem adds_silent {F : State → State} (silent : ∀ s, sendPart (F s) = sendPart s) (cfg : Params) (k : Kb) :
    Adds F cfg k k [] := by
  rintro s - rfl
  rw [silent s, SendPart.after, List.append_nil]
  rfl

theorem adds_drivePin (p : Pin) (d : Drive) (cfg : Params) (k : Kb) :
    Adds (drivePin .pri p d) cfg k k [⟨.pri, .pin p d⟩] :=
  (adds_emit (.pin p d) cfg k).comp
    (adds_silent (F := fun s => { s with pins := s.pins.setDrive p d }) (fun _ => rfl) cfg k)

theorem adds_kb (g : Params → Kb → Kb) (cfg : Params) (k : Kb) :
    Adds (fun s => { s with kb := g s.cfg s.kb }) cfg k (g cfg k) [] := by
  rintro s rfl rfl
  rw [SendPart.after, List.append_nil]
  rfl

/-- An action of a send: what it does to that part is a function of the parameters and the keyboard, and it touches neither
the schedule nor the pending status. -/
structure KeyAction (a : State → State) : Prop where
  effect : ∀ cfg k, ∃ k' evs, Adds a cfg k k' evs
  tape : ∀ s, (a s).tape = s.tape := by intro _; rfl
  pending : ∀ s, (a s).pending = s.pending := by intro _; rfl

theorem keyAction_emit (e : Event) : KeyAction (emit .pri e) where
  effect cfg k := ⟨_, _, adds_emit e cfg k⟩

theorem keyAction_drivePin (p : Pin) (d : Drive) : KeyAction (drivePin .pri p d) where
  effect cfg k := ⟨_, _, adds_drivePin p d cfg k⟩

theorem keyAction_kb (g : Params → Kb → Kb) : KeyAction (fun s => { s with kb := g s.cfg s.kb }) where
  effect cfg k := ⟨_, _, adds_kb g cfg k⟩

theorem keyAction_raise {b : FaultBit} (hb : b ≠ .halted) : KeyAction (raise b) where
  effect cfg k := ⟨k, [], adds_silent (sendPart_raise hb) cfg k⟩

theorem keyAction_startFrame (w : Byte) : KeyAction (startFrame w) where
  effect cfg k := ⟨_, _, (adds_emit (.frame w) cfg _).comp
    (adds_kb (fun _ k => { k with lastFrame := w, frameCount := k.frameCount + 1 }) cfg k)⟩

theorem keyAction_dataBit (b : Bool) : KeyAction (dataBit b) where
  effect cfg k := by
    refine ⟨k, [⟨.pri, .pin .kdat (if b = cfg.kdatActiveLow then .asserted else .released)⟩], fun s cfg_eq kb_eq => ?_⟩
    unfold dataBit
    rw [cfg_eq]
    split <;> exact adds_drivePin _ _ cfg k s cfg_eq kb_eq
  tape s := by unfold dataBit; split <;> rfl
  pending s := by unfold dataBit; split <;> rfl

theorem keyAction_of_mem_frameSteps {w : Byte} {a : State → State} (mem : a ∈ frameSteps w) : KeyAction a := by
  simp only [frameSteps, List.mem_append, List.mem_cons, List.not_mem_nil, or_false, List.mem_flatMap, bitCell,
    endOfTransmission] at mem
  rcases mem with (rfl | ⟨b, -, mem⟩) | rfl | rfl
  · exact keyAction_startFrame w
  · rcases mem with rfl | rfl | rfl | rfl | rfl | rfl
    · exact keyAction_dataBit b
    · exact keyAction_emit _
    · exact keyAction_drivePin _ _
    · exact keyAction_emit _
    · exact keyAction_drivePin _ _
    · exact keyAction_emit _
  · exact keyAction_drivePin _ _
  · exact keyAction_emit _

/-- Equal parts stay equal. -/
theorem KeyAction.congr {a : State → State} (ha : KeyAction a) {s u : State} (part : sendPart s = sendPart u) :
    sendPart (a s) = sendPart (a u) := by
  obtain ⟨k', evs, does⟩ := ha.effect u.cfg u.kb
  rw [does s (congrArg SendPart.cfg part) (congrArg SendPart.kb part), does u rfl rfl, part]

/-- An action of a send does not mask, halt or cut off. -/
theorem KeyAction.frame {a : State → State} (ha : KeyAction a) (s : State) :
    (a s).masked = s.masked ∧ (a s).halted = s.halted ∧ (a s).cut = s.cut ∧ (a s).cfg = s.cfg := by
  obtain ⟨k', evs, does⟩ := ha.effect s.cfg s.kb
  have after := does s rfl rfl
  exact ⟨congrArg SendPart.masked after, congrArg SendPart.halted after, congrArg SendPart.cut after,
    congrArg SendPart.cfg after⟩

/-! ## The twin in a quiet state -/

/-- A state in a critical section of PRI, and a quiet state with the same part. -/
structure Twin (s u : State) : Prop where
  noReset : s.NoReset
  masked : s.masked = true
  quiet : u.Settled
  part : sendPart s = sendPart u

namespace Twin

variable {s u : State}

theorem live (h : Twin s u) : s.live = true :=
  live_of_running ((congrArg SendPart.cut h.part).trans h.quiet.cut)
    ((congrArg SendPart.halted h.part).trans h.quiet.halted)

theorem kb (h : Twin s u) : s.kb = u.kb := congrArg SendPart.kb h.part

theorem cfg (h : Twin s u) : s.cfg = u.cfg := congrArg SendPart.cfg h.part

theorem pre (h : Twin s u) : Twin (Actor.pri.pre s) u := by
  have held : Held (sendPart s) (boundary s) := held_boundary_of_masked h.masked ⟨h.noReset, rfl⟩
  exact ⟨held.noReset, (congrArg SendPart.masked held.part).trans h.masked, h.quiet, held.part.trans h.part⟩

theorem act (h : Twin s u) {a : State → State} (ha : KeyAction a) : Twin (Actor.pri.act a s) (Actor.pri.act a u) := by
  have before := h.pre
  have does : Actor.pri.act a s = a (Actor.pri.pre s) := if_pos before.live
  rw [act_of_settled h.quiet, does]
  obtain ⟨masked_eq, -, -, -⟩ := ha.frame (Actor.pri.pre s)
  obtain ⟨-, halted_eq, cut_eq, -⟩ := ha.frame u
  exact ⟨by unfold State.NoReset; rw [ha.tape]; exact before.noReset, masked_eq.trans before.masked,
    h.quiet.congr (ha.tape u) cut_eq halted_eq (ha.pending u), ha.congr before.part⟩

theorem run (h : Twin s u) {as : List (State → State)} (has : ∀ a ∈ as, KeyAction a) :
    Twin (Actor.pri.run as s) (Actor.pri.run as u) := by
  induction as generalizing s u with
  | nil => exact h
  | cons a as ih => exact ih (h.act (has a List.mem_cons_self)) fun b mem => has b (List.mem_cons_of_mem _ mem)

theorem driveReset (h : Twin s u) (d : Drive) (b : Bool) :
    Twin (Actor.pri.run [drivePin .pri .krst d, setRst b] s) (Actor.pri.run [drivePin .pri .krst d, setRst b] u) :=
  (h.act (keyAction_drivePin _ _)).act (keyAction_kb fun _ k => { k with rst := b })

theorem chordEval (h : Twin s u) : Twin (chordEval s) (chordEval u) := by
  unfold Machine.chordEval
  rw [h.kb]
  split
  · exact h.driveReset _ _
  · split
    · exact h.driveReset _ _
    · exact h

theorem sendKey (h : Twin s u) (code : Byte) (rel : Bool) : Twin (sendKey code rel s) (sendKey code rel u) := by
  refine run ?_ fun a mem => keyAction_of_mem_frameSteps mem
  rw [h.cfg]
  split
  · exact (h.act (keyAction_kb fun cfg k => trioAfter cfg code rel k)).chordEval
  · exact h

theorem sendProtocol (h : Twin s u) (code : Byte) (rel : Bool) :
    Twin (sendProtocol code rel s) (sendProtocol code rel u) := by
  unfold Machine.sendProtocol
  rw [h.cfg, h.kb]
  split
  · exact (h.act (keyAction_raise (by decide))).act (keyAction_emit _)
  · split
    · split
      · exact h
      · exact (h.act (keyAction_kb fun _ k => { k with caps := !k.caps })).sendKey _ _
    · exact h.sendKey _ _

end Twin

/-! ## KbSendCore -/

/-- Without a reset, what comes before a step of PRI leaves the parameters, the keyboard, the report and PRI's events. -/
theorem pre_keeps_keyboard {s : State} (noReset : s.NoReset) :
    (Actor.pri.pre s).cfg = s.cfg ∧ (Actor.pri.pre s).kb = s.kb ∧ (Actor.pri.pre s).fe = s.fe ∧
      priTrace (Actor.pri.pre s) = priTrace s := by
  have kept : PriKept s (Actor.pri.pre s) := (priKept_busStable s).boundary ⟨noReset, rfl⟩
  obtain ⟨-, -, kb_eq, fe_eq, events, -⟩ := priPart_eq_iff.1 kept.part
  exact ⟨(partStable_cfg s.cfg).pre s rfl, kb_eq, fe_eq, events⟩

theorem settled_quieted {s : State} (live : s.live = true) : (quieted s).Settled := by
  simp only [State.live, Bool.and_eq_true, Bool.not_eq_true'] at live
  exact ⟨rfl, live.1, live.2, rfl⟩

/-- Where the block lives at its first step, KbSendCore does what it does in a quiet state (R169). -/
theorem sendPart_kbSendCore {s : State} (noReset : (Actor.pri.pre s).NoReset) (live : (Actor.pri.pre s).live = true)
    (code : Byte) (rel : Bool) :
    sendPart (kbSendCore code rel s) = sendPart (Laws.quietSend code rel (quieted (Actor.pri.pre s))) := by
  have quiet := settled_quieted live
  rw [← (Laws.kbSendCore_eq quiet code rel).1]
  have saved : Actor.pri.act (setMasked true) s = setMasked true (Actor.pri.pre s) := if_pos live
  have start : Twin (Actor.pri.act (setMasked true) s) (Actor.pri.act (setMasked true) (quieted (Actor.pri.pre s))) := by
    rw [saved, act_of_settled quiet]
    exact ⟨noReset, rfl, Laws.settled_masked quiet true, rfl⟩
  have sent := start.sendProtocol code rel
  have restored : Actor.pri.act (setMasked (Actor.pri.pre s).masked)
        (sendProtocol code rel (Actor.pri.act (setMasked true) s)) =
      setMasked (Actor.pri.pre s).masked
        (Actor.pri.pre (sendProtocol code rel (Actor.pri.act (setMasked true) s))) := if_pos sent.pre.live
  simp only [kbSendCore, irqSave, irqRestore, pri_pre_of_settled quiet, restored, act_of_settled sent.quiet]
  exact congrArg (fun v : SendPart => { v with masked := (Actor.pri.pre s).masked }) sent.pre.part

/-- Where the block has halted, the protocol does nothing (45_control.md R253). -/
theorem sendProtocol_of_halted {s : State} (halted : s.halted = true) (code : Byte) (rel : Bool) :
    sendProtocol code rel s = s := by
  have acts (a : State → State) : Actor.pri.act a s = s := Laws.halted_act .pri (.inl rfl) halted a
  have runs (as : List (State → State)) : Actor.pri.run as s = s := by
    induction as with
    | nil => rfl
    | cons a as ih => rw [Actor.run_cons, acts, ih]
  have chord : chordEval s = s := by
    unfold chordEval assertReset releaseReset
    simp only [runs, ite_self]
  have key (c : Byte) (r : Bool) : sendKey c r s = s := by
    unfold sendKey
    simp only [acts, chord, ite_self, runs]
  simp only [sendProtocol, Actor.raiseLog, runs, acts, key, ite_self]

/-- Where the block halts before its first step, KbSendCore takes none. -/
theorem kbSendCore_of_halted {s : State} (halted : (Actor.pri.pre s).halted = true) (code : Byte) (rel : Bool) :
    kbSendCore code rel s = Actor.pri.pre s := by
  have not_live : ¬ (Actor.pri.pre s).live = true := by simp [State.live, halted]
  have skips : Actor.pri.act (setMasked true) s = Actor.pri.pre s := if_neg not_live
  simp only [kbSendCore, irqSave, irqRestore, skips, sendProtocol_of_halted halted,
    Laws.halted_act .pri (.inl rfl) halted]

/-- No reset is scheduled and no command is cut off. -/
structure Unbroken (s : State) : Prop where
  noReset : s.NoReset
  uncut : s.cut = false

theorem partStable_unbroken : PartStable Unbroken where
  congr same hs := ⟨by unfold State.NoReset; rw [same.tape]; exact hs.noReset, same.cut.trans hs.uncut⟩
  raise _ _ hs := ⟨hs.noReset, hs.uncut⟩
  pop s hs := by unfold popAndFree; split <;> exact ⟨hs.noReset, hs.uncut⟩
  deliver _ _ _ hs := ⟨hs.noReset, hs.uncut⟩
  reset _ hs scheduled := absurd scheduled hs.noReset
  tape _ _ hs suffix := ⟨fun mem => hs.noReset (suffix.subset mem), hs.uncut⟩

theorem commandStable_unbroken : CommandStable Unbroken :=
  partStable_unbroken.command (partStable_unbroken.accept (fun _ _ hs => ⟨hs.noReset, hs.uncut⟩)
    (fun _ _ _ _ hs => ⟨hs.noReset, hs.uncut⟩) (fun _ _ hs => ⟨hs.noReset, hs.uncut⟩)) (fun _ hs => ⟨hs.noReset, rfl⟩)

/-- A send: what comes before its first step, and then what it adds in a quiet state, unless the block has halted. -/
theorem sendPart_send {s : State} (before : Unbroken (Actor.pri.pre s)) {code : Byte} {rel : Bool} {k' : Kb}
    {evs : List TraceEntry}
    (adds : Adds (Laws.quietSend code rel) (Actor.pri.pre s).cfg (Actor.pri.pre s).kb k' evs) :
    kbSendCore code rel s = Actor.pri.pre s ∧ (Actor.pri.pre s).halted = true ∨
      (Actor.pri.pre s).halted = false ∧
        sendPart (kbSendCore code rel s) = (sendPart (Actor.pri.pre s)).after k' evs := by
  cases halted : (Actor.pri.pre s).halted with
  | true => exact .inl ⟨kbSendCore_of_halted halted code rel, rfl⟩
  | false =>
    rw [sendPart_kbSendCore before.noReset (live_of_running before.uncut halted)]
    exact .inr ⟨rfl, adds (quieted (Actor.pri.pre s)) rfl rfl⟩

end Sys2Proof.Proofs
end

section
/-! Whole frames: no other event of PRI or ISR stands inside a frame, under every schedule (42_keyboard.md R169, R170,
R180). -/

namespace Sys2Proof.Proofs

open Sys2Proof.Machine Sys2Proof.Claims

/-! ## Lists of events -/

theorem wholeFrames_of_no_frame {low : Bool} {tr : List TraceEntry} (none_frame : ∀ x ∈ tr, x.event.isFrame = false) :
    WholeFrames low tr := by
  rintro before after ag w rfl
  have frame_free := none_frame ⟨ag, .frame w⟩ (List.mem_append_right _ List.mem_cons_self)
  cases frame_free

theorem wholeFrames_append {low : Bool} {a b : List TraceEntry} (ha : WholeFrames low a) (hb : WholeFrames low b) :
    WholeFrames low (a ++ b) := by
  intro before after ag w split_eq
  rcases List.append_eq_append_iff.1 split_eq with ⟨a', -, b_eq⟩ | ⟨c, a_eq, rest_eq⟩
  · exact hb a' after ag w b_eq
  · cases c with
    | nil => exact hb [] after ag w rest_eq.symm
    | cons x c =>
      obtain ⟨rfl, rfl⟩ := List.cons.inj rest_eq
      exact (ha before c ag w a_eq).trans (List.prefix_append _ b)

/-- Behind its FRAME event a frame has none. -/
theorem frameEntries_eq (low : Bool) (w : Byte) :
    ∃ tail : List TraceEntry, frameEntries low w = ⟨.pri, .frame w⟩ :: tail ∧ ∀ x ∈ tail, x.event.isFrame = false := by
  obtain ⟨rest, events_eq, none_frame⟩ :
      ∃ rest : List Event, frameEvents low w = .frame w :: rest ∧ ∀ e ∈ rest, e.isFrame = false := by
    refine ⟨_, List.cons_append, ?_⟩
    intro e mem
    simp only [List.mem_append, List.mem_flatMap, List.mem_cons, List.not_mem_nil, or_false] at mem
    rcases mem with ⟨i, -, cell⟩ | rfl | rfl
    · rcases cell with rfl | rfl | rfl | rfl | rfl | rfl <;> rfl
    · rfl
    · rfl
  refine ⟨rest.map fun e => ⟨.pri, e⟩, by rw [frameEntries, events_eq, List.map_cons], ?_⟩
  intro x mem
  obtain ⟨e, e_mem, rfl⟩ := List.mem_map.1 mem
  exact none_frame e e_mem

theorem wholeFrames_frameEntries (low : Bool) (w : Byte) : WholeFrames low (frameEntries low w) := by
  obtain ⟨tail, entries_eq, none_frame⟩ := frameEntries_eq low w
  intro before after ag v split_eq
  rw [entries_eq] at split_eq
  cases before with
  | nil =>
    obtain ⟨head_eq, rfl⟩ := List.cons.inj split_eq
    cases head_eq
    exact entries_eq ▸ List.prefix_rfl
  | cons x before =>
    have inside : (⟨ag, .frame v⟩ : TraceEntry) ∈ tail := by
      rw [(List.cons.inj split_eq).2]
      exact List.mem_append_right _ List.mem_cons_self
    cases none_frame _ inside

/-! ## The events of one send (R171) -/

/-- A pin's drive is seen by its event alone. -/
theorem adds_driven (p : Pin) (d : Drive) {F : State → State} {cfg : Params} {k k' : Kb} {evs : List TraceEntry}
    (hF : Adds F cfg k k' evs) : Adds (fun s => driven p d (F s)) cfg k k' evs :=
  fun s cfg_eq kb_eq => hF s cfg_eq kb_eq

theorem adds_framed (w : Byte) (cfg : Params) (k : Kb) :
    Adds (framed w) cfg k { k with lastFrame := w, frameCount := k.frameCount + 1 }
      (frameEntries cfg.kdatActiveLow w) := by
  rintro s rfl rfl
  have counted := adds_kb (fun _ k => { k with lastFrame := w, frameCount := k.frameCount + 1 }) s.cfg s.kb
  exact adds_driven .kdat .released (adds_driven .kclk .released
    ((adds_traced (frameEvents s.cfg.kdatActiveLow w) _ _).comp counted)) s rfl rfl

theorem adds_krst (d : Drive) (b : Bool) (cfg : Params) (k : Kb) :
    Adds (fun s => traced .pri [.pin .krst d] (driven .krst d { s with kb := { s.kb with rst := b } })) cfg k
      { k with rst := b } [⟨.pri, .pin .krst d⟩] :=
  (adds_traced [.pin .krst d] cfg _).comp (adds_driven .krst d (adds_kb (fun _ k => { k with rst := b }) cfg k))

/-- The chord adds nothing, or the event of KRST (R165). -/
theorem adds_chordAfter (cfg : Params) (k : Kb) :
    ∃ k' evs, Adds chordAfter cfg k k' evs ∧ ∀ x ∈ evs, x.event.isFrame = false := by
  have no_frame (d : Drive) : ∀ x ∈ [(⟨.pri, .pin .krst d⟩ : TraceEntry)], x.event.isFrame = false := by
    intro x mem
    rw [List.mem_singleton.1 mem]; rfl
  by_cases asserts : (k.ctrl && k.lsp && k.rsp) = true ∧ k.rst = false
  · exact ⟨_, _, (adds_krst .asserted true cfg k).congr fun s _ kb_eq => if_pos (kb_eq ▸ asserts), no_frame _⟩
  by_cases releases : (k.ctrl && k.lsp && k.rsp) = false ∧ k.rst = true
  · exact ⟨_, _, (adds_krst .released false cfg k).congr fun s _ kb_eq =>
      (if_neg (kb_eq ▸ asserts)).trans (if_pos (kb_eq ▸ releases)), no_frame _⟩
  · exact ⟨k, [], (adds_silent (F := id) (fun _ => rfl) cfg k).congr fun s _ kb_eq =>
      (if_neg (kb_eq ▸ asserts)).trans (if_neg (kb_eq ▸ releases)), nofun⟩

/-- A key that goes out adds its frame, behind at most the chord's event (R171). -/
theorem adds_keyAfter (code : Byte) (rel : Bool) (cfg : Params) (k : Kb) :
    ∃ k' before, Adds (Laws.keyAfter code rel) cfg k k' (before ++ frameEntries cfg.kdatActiveLow (wire code rel)) ∧
      ∀ x ∈ before, x.event.isFrame = false := by
  by_cases trio : isTrioCode cfg code = true
  · obtain ⟨k', evs, chord, no_frame⟩ := adds_chordAfter cfg (trioAfter cfg code rel k)
    have updated := chord.comp (adds_kb (fun cfg k => trioAfter cfg code rel k) cfg k)
    refine ⟨_, evs, ((adds_framed (wire code rel) cfg k').comp updated).congr fun s cfg_eq _ => ?_, no_frame⟩
    rw [Laws.keyAfter, if_pos (cfg_eq ▸ trio)]
  · refine ⟨_, [], (adds_framed (wire code rel) cfg k).congr fun s cfg_eq _ => ?_, nofun⟩
    rw [Laws.keyAfter, if_neg (cfg_eq ▸ trio)]

/-- The events of one KbSendCore: whole frames, and for a code that is neither refused nor dropped its own frame. -/
theorem adds_quietSend (code : Byte) (rel : Bool) (cfg : Params) (k : Kb) :
    ∃ k' evs, Adds (Laws.quietSend code rel) cfg k k' evs ∧ WholeFrames cfg.kdatActiveLow evs ∧
      (code ≠ cfg.scUnknown → ¬ (code = cfg.scCapslock ∧ rel = true) → ∃ before, evs = before ++
        frameEntries cfg.kdatActiveLow (wire code (if code = cfg.scCapslock then k.caps else rel))) := by
  have whole {before : List TraceEntry} (no_frame : ∀ x ∈ before, x.event.isFrame = false) (w : Byte) :=
    wholeFrames_append (wholeFrames_of_no_frame (low := cfg.kdatActiveLow) no_frame)
      (wholeFrames_frameEntries cfg.kdatActiveLow w)
  by_cases unknown : code = cfg.scUnknown
  · have logged := (adds_traced [.log (.scRefused code)] cfg k).comp
      (adds_silent (F := faulted 4) (sendPart_raise (b := .scRefused) (by decide)) cfg k)
    refine ⟨_, _, logged.congr fun s cfg_eq _ => if_pos (cfg_eq ▸ unknown), wholeFrames_of_no_frame ?_,
      fun known => absurd unknown known⟩
    intro x mem
    rw [List.mem_singleton.1 mem]; rfl
  by_cases caps : code = cfg.scCapslock
  · cases rel with
    | true =>
      refine ⟨k, [], (adds_silent (F := id) (fun _ => rfl) cfg k).congr fun s cfg_eq _ => ?_,
        wholeFrames_of_no_frame nofun, fun _ kept => absurd ⟨caps, rfl⟩ kept⟩
      rw [Laws.quietSend, if_neg (cfg_eq ▸ unknown), if_pos (cfg_eq ▸ caps), if_pos rfl, id]
    | false =>
      obtain ⟨k', before, key, no_frame⟩ := adds_keyAfter code k.caps cfg { k with caps := !k.caps }
      have flipped := key.comp (adds_kb (fun _ k => { k with caps := !k.caps }) cfg k)
      refine ⟨k', _, flipped.congr fun s cfg_eq kb_eq => ?_, whole no_frame _, fun _ _ => ⟨before, ?_⟩⟩
      · rw [Laws.quietSend, if_neg (cfg_eq ▸ unknown), if_pos (cfg_eq ▸ caps), if_neg Bool.false_ne_true, kb_eq]
      · rw [if_pos caps]; rfl
  · obtain ⟨k', before, key, no_frame⟩ := adds_keyAfter code rel cfg k
    refine ⟨k', _, key.congr fun s cfg_eq _ => ?_, whole no_frame _, fun _ _ => ⟨before, by rw [if_neg caps]⟩⟩
    rw [Laws.quietSend, if_neg (cfg_eq ▸ unknown), if_neg (cfg_eq ▸ caps)]

/-! ## Every command, under every schedule -/

/-- No reset is scheduled, no command is cut off, and the events of PRI and ISR since `X` hold whole frames. -/
structure Framed (low : Bool) (X : List TraceEntry) (s : State) : Prop where
  noReset : s.NoReset
  uncut : s.cut = false
  polarity : s.cfg.kdatActiveLow = low
  grows : ∃ new, mainTrace s = X ++ new ∧ WholeFrames low new

variable {low : Bool} {X : List TraceEntry}

theorem framed_self {s : State} (noReset : s.NoReset) (uncut : s.cut = false) :
    Framed s.cfg.kdatActiveLow (mainTrace s) s :=
  ⟨noReset, uncut, rfl, [], (List.append_nil _).symm, wholeFrames_of_no_frame nofun⟩

namespace Framed

variable {s t : State}

/-- More whole frames behind those there are. -/
theorem append (h : Framed low X s) {evs : List TraceEntry} (whole : WholeFrames low evs)
    (events : mainTrace t = mainTrace s ++ evs) (tape : t.tape = s.tape := by rfl) (cut : t.cut = s.cut := by rfl)
    (cfg : t.cfg = s.cfg := by rfl) : Framed low X t := by
  obtain ⟨new, grown, whole_new⟩ := h.grows
  exact ⟨by unfold State.NoReset; rw [tape]; exact h.noReset, cut.trans h.uncut, cfg ▸ h.polarity,
    new ++ evs, by rw [events, grown, List.append_assoc], wholeFrames_append whole_new whole⟩

theorem of_frame (h : Framed low X s) (events : mainTrace t = mainTrace s := by rfl) (tape : t.tape = s.tape := by rfl)
    (cut : t.cut = s.cut := by rfl) (cfg : t.cfg = s.cfg := by rfl) : Framed low X t :=
  h.append (evs := []) (wholeFrames_of_no_frame nofun) (events.trans (List.append_nil _).symm) tape cut cfg

theorem emit (h : Framed low X s) {e : Event} (not_frame : e.isFrame = false) (ag : Agent) :
    Framed low X (emit ag e s) := by
  refine h.append (evs := [(⟨ag, e⟩ : TraceEntry)].filter (fun x => x.agent != .enc))
    (wholeFrames_of_no_frame fun x mem => ?_) (List.filter_append ..)
  rw [List.mem_singleton.1 (List.mem_of_mem_filter mem)]
  exact not_frame

theorem drivePin (h : Framed low X s) (ag : Agent) (p : Pin) (d : Drive) : Framed low X (drivePin ag p d s) :=
  Framed.emit (s := { s with pins := s.pins.setDrive p d }) h.of_frame rfl ag

end Framed

theorem turnStable_framed : TurnStable (Framed low X) where
  enc s hs := by
    refine hs.of_frame (mainTrace_encStep s) (encStep_tape s) ?_ ?_ <;> rw [encStep_frame]
  env e s hs scheduled := by
    have no_reset : e ≠ .reset := fun reset => hs.noReset (reset ▸ scheduled)
    rw [envStep_frame no_reset]
    exact hs.of_frame
  tape _ _ hs suffix := ⟨fun mem => hs.noReset (suffix.subset mem), hs.uncut, hs.polarity, hs.grows⟩

theorem busStable_framed (ag : Agent) : BusStable ag (Framed low X) where
  toTurnStable := turnStable_framed
  emit _ not_frame _ hs := hs.emit not_frame ag
  scl _ _ hs := hs.drivePin ag _ _
  sda _ _ hs := hs.drivePin ag _ _
  funcScl _ _ hs := hs.of_frame
  funcSda _ _ hs := hs.of_frame
  pullScl _ _ hs := hs.of_frame
  pullSda _ _ hs := hs.of_frame
  irqEn _ hs := hs.of_frame
  ready _ hs := hs.of_frame
  raise _ _ hs := hs.of_frame
  mask _ _ hs := hs.of_frame
  prepare _ _ hs := hs.of_frame
  dmaStart _ _ _ _ hs := Framed.emit hs.of_frame rfl ag
  dmaAbort _ _ hs := Framed.emit hs.of_frame rfl ag
  markInflight _ hs := hs.of_frame
  notInflight _ hs := hs.of_frame
  readStatus _ hs := hs.of_frame
  countFault _ hs := hs.of_frame
  pop s hs := by unfold popAndFree; split <;> exact hs.of_frame

theorem framed_pre {s : State} (hs : Framed low X s) : Framed low X (Actor.pri.pre s) :=
  (busStable_framed .isr).boundary hs

theorem framed_send (code : Byte) (rel : Bool) (s : State) (hs : Framed low X s) :
    Framed low X (kbSendCore code rel s) := by
  have before := framed_pre hs
  obtain ⟨k', evs, adds, whole, -⟩ := adds_quietSend code rel (Actor.pri.pre s).cfg (Actor.pri.pre s).kb
  have kept := commandStable_unbroken.send code rel s ⟨hs.noReset, hs.uncut⟩
  rcases sendPart_send ⟨before.noReset, before.uncut⟩ adds with ⟨skipped, -⟩ | ⟨-, sent⟩
  · rw [skipped]; exact before
  · obtain ⟨new, grown, whole_new⟩ := before.grows
    have events : mainTrace (kbSendCore code rel s) = mainTrace (Actor.pri.pre s) ++ evs :=
      congrArg SendPart.events sent
    have cfg_eq : (kbSendCore code rel s).cfg = (Actor.pri.pre s).cfg := congrArg SendPart.cfg sent
    exact ⟨kept.noReset, kept.uncut, cfg_eq ▸ before.polarity, new ++ evs, by rw [events, grown, List.append_assoc],
      wholeFrames_append whole_new (before.polarity ▸ whole)⟩

theorem stepStable_framed : StepStable (Framed low X) where
  bus := busStable_framed
  drive p d _ hs := hs.drivePin .pri p d
  kb _ _ hs := hs.of_frame
  fe _ _ hs := hs.of_frame
  mv _ _ hs := hs.of_frame
  advance _ _ hs := hs.of_frame
  accept := acceptTxn_keeps busStable_framed (fun _ _ hs => hs.of_frame) (fun _ _ hs => hs.of_frame)
    (fun _ _ _ _ hs => hs.of_frame) (fun _ _ hs => hs.of_frame)
  send := framed_send
  uncut _ hs := hs.append (evs := []) (wholeFrames_of_no_frame nofun) (List.append_nil _).symm rfl hs.uncut.symm
  respond _ _ hs := Framed.emit hs.of_frame rfl .pri

/-- Settles O28: the events of every other action are no frames, and a send adds its frame whole. -/
theorem frameIsNeverSplit : Obligations.FrameIsNeverSplit := by
  unfold Obligations.FrameIsNeverSplit
  intro i s t uncut noReset runs running
  have start := framed_self noReset uncut
  refine ⟨(stepStable_framed.exec i start runs).grows, ?_⟩
  rintro code rel rfl known kept
  cases runs
  obtain ⟨cfg_eq, kb_eq, -, -⟩ := pre_keeps_keyboard noReset
  have before := framed_pre start
  obtain ⟨new, grown, -⟩ := before.grows
  obtain ⟨k', evs, adds, -, own_frame⟩ := adds_quietSend code rel (Actor.pri.pre s).cfg (Actor.pri.pre s).kb
  rw [cfg_eq, kb_eq] at own_frame
  obtain ⟨chord, evs_eq⟩ := own_frame known kept
  rcases sendPart_send ⟨before.noReset, before.uncut⟩ adds with ⟨skipped, halted⟩ | ⟨-, sent⟩
  · rw [skipped, endCommand_halted halted] at running
    cases running
  · have events : mainTrace (kbSendCore code rel s) = mainTrace (Actor.pri.pre s) ++ evs := congrArg SendPart.events sent
    have whole := framed_send code rel s start
    obtain ⟨after, ended, -⟩ := (stepStable_framed.endCommand 1 (framed_self whole.noReset whole.uncut)).grows
    exact ⟨new ++ chord, after, by rw [ended, events, grown, evs_eq]; simp only [List.append_assoc]⟩

end Sys2Proof.Proofs
end

section
/-! The keyboard under a schedule and alone: other agents cannot change what a command does to the keyboard's state, nor
how long it keeps PRI waiting (10_state.md R62, 40_pin_driver.md R116, 60_exceptions.md R273, 70_reset_and_hazards.md
R313). -/

namespace Sys2Proof.Proofs

open Sys2Proof.Machine Sys2Proof.Claims

/-! ## The keyboard's own part of a state -/

structure KeyView where
  kb : Kb
  fe : Fe
  events : List TraceEntry

def keyView (s : State) : KeyView where
  kb := s.kb
  fe := s.fe
  events := priTrace s

/-- The view with this keyboard and those of these events that are PRI's. -/
def KeyView.after (v : KeyView) (k : Kb) (evs : List TraceEntry) : KeyView :=
  { v with kb := k, events := v.events ++ evs.filter (fun e => e.agent == .pri) }

theorem priTrace_eq (s : State) : priTrace s = (mainTrace s).filter (fun e => e.agent == .pri) := by
  rw [priTrace, mainTrace, List.filter_filter]
  congr 1
  funext e
  cases e.agent <;> rfl

theorem keyView_of_sendPart {s t : State} {k' : Kb} {evs : List TraceEntry}
    (part : sendPart t = (sendPart s).after k' evs) : keyView t = (keyView s).after k' evs := by
  have kb_eq : t.kb = k' := congrArg SendPart.kb part
  have fe_eq : t.fe = s.fe := congrArg SendPart.fe part
  have events : mainTrace t = mainTrace s ++ evs := congrArg SendPart.events part
  simp only [keyView, KeyView.after, kb_eq, fe_eq, priTrace_eq, events, List.filter_append]

/-- An action of PRI whose effect on the keyboard depends on the parameters and the keyboard alone. -/
structure KeyLocal (a : State → State) : Prop where
  congr : ∀ s u, s.cfg = u.cfg → keyView s = keyView u → keyView (a s) = keyView (a u)
  tape : ∀ s, (a s).tape = s.tape := by intro _; rfl
  cut : ∀ s, (a s).cut = s.cut := by intro _; rfl
  cfg : ∀ s, (a s).cfg = s.cfg := by intro _; rfl

theorem KeyAction.keyLocal {a : State → State} (ha : KeyAction a) : KeyLocal a where
  congr s u cfg_eq view := by
    obtain ⟨k', evs, adds⟩ := ha.effect u.cfg u.kb
    rw [keyView_of_sendPart (adds s cfg_eq (congrArg KeyView.kb view)), keyView_of_sendPart (adds u rfl rfl), view]
  tape := ha.tape
  cut s := by
    obtain ⟨-, -, cut_eq, -⟩ := ha.frame s
    exact cut_eq
  cfg s := by
    obtain ⟨-, -, -, cfg_eq⟩ := ha.frame s
    exact cfg_eq

theorem keyLocal_advance (n : Nat) : KeyLocal (advance n) where
  congr _ _ _ view := view

theorem keyLocal_setPrevMod (mod : Byte) : KeyLocal (setPrevMod mod) where
  congr _ _ _ view := congrArg (fun v : KeyView => { v with fe := { v.fe with prevMod := mod } }) view

theorem keyLocal_setPrevKeys (keys : Keys) : KeyLocal (setPrevKeys keys) where
  congr _ _ _ view := congrArg (fun v : KeyView => { v with fe := { v.fe with prevKeys := keys } }) view

/-! ## Two runs side by side -/

/-- The block was running before what comes before a step of PRI, if it is after. -/
theorem running_of_pre {s : State} (running : (Actor.pri.pre s).halted = false) : s.halted = false := by
  by_contra halted
  have not_live : ¬ s.live = true := by simp [State.live, halted]
  have stays : Actor.pri.pre s = s := if_neg not_live
  rw [stays] at running
  exact halted running

/-- Two runs in which the keyboard's part is the same while both go on. -/
structure Agree (s u : State) : Prop where
  left : Unbroken s
  right : Unbroken u
  cfg : s.cfg = u.cfg
  same : s.halted = false → u.halted = false → keyView s = keyView u

theorem agree_quieted {s : State} (hs : Unbroken s) : Agree s (quieted s) :=
  ⟨hs, ⟨List.not_mem_nil, hs.uncut⟩, rfl, fun _ _ => rfl⟩

namespace Agree

variable {s u : State}

theorem pre (h : Agree s u) : Agree (Actor.pri.pre s) (Actor.pri.pre u) := by
  obtain ⟨cfg_s, kb_s, fe_s, events_s⟩ := pre_keeps_keyboard h.left.noReset
  obtain ⟨cfg_u, kb_u, fe_u, events_u⟩ := pre_keeps_keyboard h.right.noReset
  refine ⟨partStable_unbroken.pre s h.left, partStable_unbroken.pre u h.right, by rw [cfg_s, cfg_u]; exact h.cfg, ?_⟩
  intro running_s running_u
  have before := h.same (running_of_pre running_s) (running_of_pre running_u)
  simp only [keyView, kb_s, fe_s, events_s, kb_u, fe_u, events_u]
  exact before

/-- An atomic step of a run that is not halted after it is its action. -/
theorem act_eq (hs : Unbroken s) {a : State → State} (running : (Actor.pri.act a s).halted = false) :
    (Actor.pri.pre s).halted = false ∧ Actor.pri.act a s = a (Actor.pri.pre s) := by
  rcases act_cases .pri a s with ⟨live, does⟩ | ⟨dead, skips⟩
  · exact ⟨running_of_live (v := queueView (Actor.pri.pre s)) live, does⟩
  · rw [skips] at running
    rw [live_of_running (partStable_unbroken.pre s hs).uncut running] at dead
    cases dead

theorem act (h : Agree s u) {a : State → State} (ha : KeyLocal a) : Agree (Actor.pri.act a s) (Actor.pri.act a u) := by
  have unbroken {v : State} (hv : Unbroken v) : Unbroken (Actor.pri.act a v) :=
    act_keeps (partStable_unbroken.pre v)
      (fun w hw => ⟨by unfold State.NoReset; rw [ha.tape]; exact hw.noReset, (ha.cut w).trans hw.uncut⟩) hv
  have cfg_kept (v : State) : (Actor.pri.act a v).cfg = v.cfg :=
    act_keeps (P := fun w => w.cfg = v.cfg) ((partStable_cfg v.cfg).pre v) (fun w hw => (ha.cfg w).trans hw) rfl
  refine ⟨unbroken h.left, unbroken h.right, by rw [cfg_kept, cfg_kept]; exact h.cfg, fun running_s running_u => ?_⟩
  obtain ⟨before_s, does_s⟩ := act_eq h.left running_s
  obtain ⟨before_u, does_u⟩ := act_eq h.right running_u
  rw [does_s, does_u]
  exact ha.congr _ _ h.pre.cfg (h.pre.same before_s before_u)

theorem run (h : Agree s u) {as : List (State → State)} (has : ∀ a ∈ as, KeyLocal a) :
    Agree (Actor.pri.run as s) (Actor.pri.run as u) := by
  induction as generalizing s u with
  | nil => exact h
  | cons a as ih => exact ih (h.act (has a List.mem_cons_self)) fun b mem => has b (List.mem_cons_of_mem _ mem)

/-- A send that leaves the block running: what it does to the keyboard is what it does in a quiet state. -/
theorem keyView_send (hs : Unbroken s) {code : Byte} {rel : Bool} (running : (kbSendCore code rel s).halted = false)
    {k' : Kb} {evs : List TraceEntry}
    (adds : Adds (Laws.quietSend code rel) (Actor.pri.pre s).cfg (Actor.pri.pre s).kb k' evs) :
    (Actor.pri.pre s).halted = false ∧ keyView (kbSendCore code rel s) = (keyView (Actor.pri.pre s)).after k' evs := by
  rcases sendPart_send (partStable_unbroken.pre s hs) adds with ⟨skipped, halted⟩ | ⟨still_running, sent⟩
  · rw [skipped, halted] at running
    cases running
  · exact ⟨still_running, keyView_of_sendPart sent⟩

theorem send (h : Agree s u) (code : Byte) (rel : Bool) : Agree (kbSendCore code rel s) (kbSendCore code rel u) := by
  have cfg_kept (v : State) : (kbSendCore code rel v).cfg = v.cfg := (stepStable_cfg v.cfg).send code rel v rfl
  refine ⟨commandStable_unbroken.send code rel s h.left, commandStable_unbroken.send code rel u h.right,
    by rw [cfg_kept, cfg_kept]; exact h.cfg, fun running_s running_u => ?_⟩
  obtain ⟨k', evs, adds, -⟩ := adds_quietSend code rel (Actor.pri.pre u).cfg (Actor.pri.pre u).kb
  obtain ⟨before_u, view_u⟩ := keyView_send h.right running_u adds
  have before_s : (Actor.pri.pre s).halted = false := by
    obtain ⟨_, _, adds_s, -⟩ := adds_quietSend code rel (Actor.pri.pre s).cfg (Actor.pri.pre s).kb
    exact (keyView_send h.left running_s adds_s).1
  have before := h.pre.same before_s before_u
  have kb_eq : (Actor.pri.pre s).kb = (Actor.pri.pre u).kb := congrArg KeyView.kb before
  obtain ⟨-, view_s⟩ := keyView_send h.left running_s (by rw [h.pre.cfg, kb_eq]; exact adds)
  rw [view_s, view_u, before]

theorem sendEvents (h : Agree s u) (evs : List KeyEvent) : Agree (sendEvents evs s) (sendEvents evs u) := by
  induction evs generalizing s u with
  | nil => exact h
  | cons e rest ih => exact ih (h.send e.1 e.2)

theorem endCommand (h : Agree s u) (n : Nat) : Agree (endCommand n s) (endCommand n u) := by
  have ended := h.act (keyLocal_advance n)
  exact ⟨⟨ended.left.noReset, rfl⟩, ⟨ended.right.noReset, rfl⟩, ended.cfg, ended.same⟩

theorem driveReset (h : Agree s u) (d : Drive) (b : Bool) :
    Agree (Actor.pri.run [drivePin .pri .krst d, setRst b] s) (Actor.pri.run [drivePin .pri .krst d, setRst b] u) :=
  (h.act (keyAction_drivePin _ _).keyLocal).act (keyAction_kb fun _ k => { k with rst := b }).keyLocal

theorem kbInitBody (h : Agree s u) : Agree (kbInitBody s) (kbInitBody u) := by
  have idle : Agree (Actor.pri.run [releasePin .pri .kclk, releasePin .pri .kdat, wait .pri Config.tKbSettle] s)
      (Actor.pri.run [releasePin .pri .kclk, releasePin .pri .kdat, wait .pri Config.tKbSettle] u) := by
    refine h.run fun a mem => ?_
    simp only [List.mem_cons, List.not_mem_nil, or_false] at mem
    rcases mem with rfl | rfl | rfl
    · exact (keyAction_drivePin _ _).keyLocal
    · exact (keyAction_drivePin _ _).keyLocal
    · exact (keyAction_emit _).keyLocal
  have announce {v w : State} (hvw : Agree v w) (code : Params → Byte) :
      Agree (kbSendCore (code v.cfg) false v) (kbSendCore (code w.cfg) false w) := by
    rw [hvw.cfg]
    exact hvw.send _ _
  have waited := (announce idle Params.scPowerup).act (a := wait .pri Config.tKbAnnounceGap) (keyAction_emit _).keyLocal
  exact (announce waited Params.scPowerdown).act (keyAction_kb fun _ k => { k with initDone := true }).keyLocal

end Agree

/-! ## The keyboard's state (10_state.md R62, 60_exceptions.md R273) -/

/-- The commands that touch the keyboard's state or the report. -/
def ofKeyboard : Instr → Bool
  | .kbInit | .kbSend _ _ | .kbAssertReset | .kbReleaseReset | .kbReport _ _ _ => true
  | .nop | .rdreg _ | .pinAssert _ | .pinRelease _ | .pinSample _ | .kbService | .kbIsCaps | .msReport _ _ _ | .bqInit
  | .bqEnqueue _ _ => false

/-- Those commands do to the keyboard under a schedule what they do alone. -/
theorem agree_exec {i : Instr} (keyboard : ofKeyboard i = true) {s t u : State} (hs : Unbroken s)
    (runs : exec i s = .next t) (alone : exec i (quieted s) = .next u) : Agree t u := by
  have start := agree_quieted hs
  cases i with
  | kbInit => cases runs; cases alone; exact start.kbInitBody.endCommand 1
  | kbSend code rel => cases runs; cases alone; exact (start.send code rel).endCommand 1
  | kbAssertReset => cases runs; cases alone; exact (start.driveReset _ _).endCommand 1
  | kbReleaseReset => cases runs; cases alone; exact (start.driveReset _ _).endCommand 1
  | kbReport mod res keys =>
    cases runs; cases alone
    exact (((start.sendEvents (reportEvents s.cfg s.fe mod keys)).act (keyLocal_setPrevMod mod)).act
      (keyLocal_setPrevKeys keys)).endCommand 3
  | _ => cases keyboard

/-- No reset is scheduled, and the keyboard's state and the report are these. -/
structure KeyboardKept (k : Kb) (f : Fe) (s : State) : Prop where
  noReset : s.NoReset
  kb : s.kb = k
  fe : s.fe = f

variable {k : Kb} {f : Fe}

theorem KeyboardKept.of_frame {s t : State} (h : KeyboardKept k f s) (tape : t.tape = s.tape := by rfl)
    (kb : t.kb = s.kb := by rfl) (fe : t.fe = s.fe := by rfl) : KeyboardKept k f t :=
  ⟨by unfold State.NoReset; rw [tape]; exact h.noReset, kb.trans h.kb, fe.trans h.fe⟩

theorem busStable_keyboardKept (ag : Agent) : BusStable ag (KeyboardKept k f) where
  enc s hs := by rw [encStep_frame]; exact hs.of_frame
  env e s hs scheduled := by
    rw [envStep_frame fun reset => hs.noReset (reset ▸ scheduled)]
    exact hs.of_frame
  tape _ _ hs suffix := ⟨fun mem => hs.noReset (suffix.subset mem), hs.kb, hs.fe⟩
  emit _ _ _ hs := hs.of_frame
  scl _ _ hs := hs.of_frame
  sda _ _ hs := hs.of_frame
  funcScl _ _ hs := hs.of_frame
  funcSda _ _ hs := hs.of_frame
  pullScl _ _ hs := hs.of_frame
  pullSda _ _ hs := hs.of_frame
  irqEn _ hs := hs.of_frame
  ready _ hs := hs.of_frame
  raise _ _ hs := hs.of_frame
  mask _ _ hs := hs.of_frame
  prepare _ _ hs := hs.of_frame
  dmaStart _ _ _ _ hs := hs.of_frame
  dmaAbort _ _ hs := hs.of_frame
  markInflight _ hs := hs.of_frame
  notInflight _ hs := hs.of_frame
  readStatus _ hs := hs.of_frame
  countFault _ hs := hs.of_frame
  pop s hs := by unfold popAndFree; split <;> exact hs.of_frame

namespace KeyboardKept

variable {s t : State}

theorem pre (h : KeyboardKept k f s) : KeyboardKept k f (Actor.pri.pre s) := (busStable_keyboardKept .isr).boundary h

theorem act (h : KeyboardKept k f s) {a : State → State} (tape : ∀ s, (a s).tape = s.tape := by intro _; rfl)
    (kb : ∀ s, (a s).kb = s.kb := by intro _; rfl) (fe : ∀ s, (a s).fe = s.fe := by intro _; rfl) :
    KeyboardKept k f (Actor.pri.act a s) :=
  act_keeps (P := KeyboardKept k f) (fun h => pre h) (fun t ht => ht.of_frame (tape t) (kb t) (fe t)) h

theorem endCommand (h : KeyboardKept k f s) (n : Nat) : KeyboardKept k f (endCommand n s) :=
  (h.act (a := advance n)).of_frame

theorem raiseLog (h : KeyboardKept k f s) (b : FaultBit) (l : LogKind) : KeyboardKept k f (Actor.pri.raiseLog b l s) :=
  BusStable.raiseLog (A := .pri) (busStable_keyboardKept .pri) (fun _ h => pre h) b l h

theorem holdStep (h : KeyboardKept k f s) : KeyboardKept k f (holdStep s) := by
  unfold Machine.holdStep
  split
  · exact ((busStable_keyboardKept .isr).enc s h).of_frame
  · exact ((busStable_keyboardKept .isr).boundary h).of_frame

theorem msReport (h : KeyboardKept k f s) (b : BitVec 3) (dx dy : Byte) : KeyboardKept k f
    (Actor.pri.run (applyButtons b ++ (if dx != 0 || dy != 0 then mvWrite dx dy else [])) s) := by
  refine run_keeps (P := KeyboardKept k f) (fun _ h => pre h) ?_ h
  intro a mem u hu
  rcases List.mem_append.1 mem with mem | mem
  · simp only [applyButtons, List.mem_cons, List.not_mem_nil, or_false] at mem
    rcases mem with rfl | rfl | rfl <;> exact hu.of_frame
  · split at mem
    · simp only [mvWrite, List.mem_cons, List.not_mem_nil, or_false] at mem
      rcases mem with rfl | rfl | rfl <;> exact hu.of_frame
    · cases mem

theorem acceptTxn (h : KeyboardKept k f s) (r : Byte) (bytes : List Byte) : KeyboardKept k f (acceptTxn r bytes s) :=
  acceptTxn_keeps busStable_keyboardKept (fun _ _ hs => hs.of_frame) (fun _ _ hs => hs.of_frame)
    (fun _ _ _ _ hs => hs.of_frame) (fun _ _ hs => hs.of_frame) r bytes s h

theorem bqEnqueue (h : KeyboardKept k f s) (r : Byte) (bytes : List Byte)
    (runs : exec (.bqEnqueue r bytes) s = .next t) : KeyboardKept k f t := by
  have tested := h.pre
  simp only [Machine.exec, execBqEnqueue] at runs
  cases runs
  split
  · exact (tested.raiseLog _ _).endCommand _
  · split
    · exact (tested.raiseLog _ _).endCommand _
    · split
      · exact (tested.raiseLog _ _).endCommand _
      · split
        · exact h.holdStep
        · exact (tested.acceptTxn r bytes).endCommand _

/-- The other commands leave the keyboard's state and the report, under every schedule. -/
theorem exec {i : Instr} (other : ofKeyboard i = false) (h : KeyboardKept k f s) (runs : exec i s = .next t) :
    KeyboardKept k f t := by
  cases i with
  | nop => cases runs; exact h.endCommand _
  | rdreg index => cases runs; exact h.act.endCommand _
  | pinAssert pin =>
    cases runs; refine endCommand ?_ _
    split
    · exact h.act
    · exact h.raiseLog _ _
  | pinRelease pin =>
    cases runs; refine endCommand ?_ _
    split
    · exact h.act
    · exact h.raiseLog _ _
  | pinSample pin =>
    cases runs; refine endCommand ?_ _
    split
    · exact h.pre.act
    · exact h.raiseLog _ _
  | kbService => cases runs; exact h.endCommand _
  | kbIsCaps => cases runs; exact h.act.endCommand _
  | msReport b dx dy => cases runs; exact (h.msReport b dx dy).endCommand _
  | bqInit =>
    cases runs; refine endCommand ?_ _
    split
    · exact h.pre.raiseLog _ _
    · exact BusStable.busInit (A := .pri) (busStable_keyboardKept .pri) (fun _ h => pre h) h.pre
  | bqEnqueue r bytes => exact h.bqEnqueue r bytes runs
  | _ => cases other

end KeyboardKept

/-- Settles O30: a keyboard command agrees with its run alone, and every other command leaves the keyboard as it was. -/
theorem scheduleCannotChangeTheKeyboard : Obligations.ScheduleCannotChangeTheKeyboard := by
  unfold Obligations.ScheduleCannotChangeTheKeyboard
  intro i s t u uncut noReset runs alone running_t running_u
  cases keyboard : ofKeyboard i with
  | true =>
    have same := (agree_exec keyboard ⟨noReset, uncut⟩ runs alone).same running_t running_u
    exact ⟨congrArg KeyView.kb same, congrArg KeyView.fe same⟩
  | false =>
    have kept_t : KeyboardKept s.kb s.fe t := KeyboardKept.exec keyboard ⟨noReset, rfl, rfl⟩ runs
    have kept_u : KeyboardKept s.kb s.fe u :=
      KeyboardKept.exec keyboard (s := quieted s) ⟨List.not_mem_nil, rfl, rfl⟩ alone
    exact ⟨kept_t.kb.trans kept_u.kb.symm, kept_t.fe.trans kept_u.fe.symm⟩

/-! ## Waits (70_reset_and_hazards.md R313) -/

/-- The microseconds an event waits. -/
def eventWaits : Event → Nat
  | .wait _ us => us
  | _ => 0

theorem priWaits_eq (s : State) : priWaits s = ((priTrace s).map fun e => eventWaits e.event).sum := by
  unfold priWaits
  congr 2

theorem priWaits_traced (evs : List Event) (s : State) :
    priWaits (traced .pri evs s) = priWaits s + (evs.map eventWaits).sum := by
  have all_pri : (evs.map fun e => (⟨.pri, e⟩ : TraceEntry)).filter (fun e => e.agent == .pri) =
      evs.map fun e => ⟨.pri, e⟩ := List.filter_eq_self.2 (by simp)
  have appended : priTrace (traced .pri evs s) = priTrace s ++ evs.map fun e => ⟨.pri, e⟩ := by
    rw [priTrace, traced, List.filter_append, all_pri]
    rfl
  rw [priWaits_eq, priWaits_eq, appended, List.map_append, List.sum_append, List.map_map]
  rfl

/-- A frame's waits: eight bit cells and the end of transmission. -/
theorem frame_waits (low : Bool) (w : Byte) : ((frameEvents low w).map eventWaits).sum = 5720 := by
  simp [frameEvents, eventWaits]

theorem priWaits_framed (w : Byte) (s : State) : priWaits (framed w s) = priWaits s + 5720 := by
  have events := priWaits_traced (frameEvents s.cfg.kdatActiveLow w)
    { s with kb := { s.kb with lastFrame := w, frameCount := s.kb.frameCount + 1 } }
  rw [frame_waits] at events
  exact events

/-- The waits of KB_INIT: the lines settle, and a gap stands between the two frames (R174). -/
theorem priWaits_announced (s : State) :
    priWaits (framed (wire s.cfg.scPowerdown false) (traced .pri [.wait .pri 200000]
      (framed (wire s.cfg.scPowerup false) (idled s)))) = priWaits s + 1211440 := by
  have settled : priWaits (idled s) = priWaits s + 1000000 := by
    have lines_idle : priWaits (driven .kdat .released (driven .kclk .released s)) = priWaits s := rfl
    rw [idled, priWaits_traced, lines_idle]
    simp [eventWaits]
  have up := priWaits_framed (wire s.cfg.scPowerup false) (idled s)
  have gap := priWaits_traced [.wait .pri 200000] (framed (wire s.cfg.scPowerup false) (idled s))
  have down := priWaits_framed (wire s.cfg.scPowerdown false) (traced .pri [.wait .pri 200000]
    (framed (wire s.cfg.scPowerup false) (idled s)))
  have gap_length : ([Event.wait .pri 200000].map eventWaits).sum = 200000 := by simp [eventWaits]
  omega

/-- The last write of KB_INIT and the advance neither halt nor wait. -/
theorem halted_initDone (s : State) :
    (consumed 1 { s with kb := { s.kb with initDone := true } }).halted = s.halted := rfl

theorem priWaits_initDone (s : State) :
    priWaits (consumed 1 { s with kb := { s.kb with initDone := true } }) = priWaits s := rfl

/-- A command of the keyboard waits as long under a schedule as alone. -/
theorem priWaits_of_alone {i : Instr} (keyboard : ofKeyboard i = true) {s t u : State} (hs : Unbroken s)
    (runs : exec i s = .next t) (running : t.halted = false) (alone : exec i (quieted s) = .next u)
    (running_u : u.halted = false) : priWaits t = priWaits u := by
  have same := (agree_exec keyboard hs runs alone).same running running_u
  have events : priTrace t = priTrace u := congrArg KeyView.events same
  rw [priWaits, events, priWaits]

/-- A block that is running after a command was running before it. -/
theorem running_of_exec {i : Instr} {s t : State} (noReset : s.NoReset) (runs : exec i s = .next t)
    (running : t.halted = false) : s.halted = false := by
  by_contra halted
  have sticks := (stepStable_bitSet 31).exec i ⟨noReset, (Bool.not_eq_false s.halted).mp halted⟩ runs
  exact Bool.false_ne_true (running.symm.trans sticks.bit)

/-- Settles O29: the waits of the run alone, which the whole-state equations of KB_INIT and KB_SEND give. -/
theorem keyboardWaitsAddUp : Obligations.KeyboardWaitsAddUp := by
  unfold Obligations.KeyboardWaitsAddUp
  intro s t uncut noReset legal running
  have quiet {i : Instr} (runs : exec i s = .next t) : (quieted s).Settled :=
    settled_quieted (live_of_running uncut (running_of_exec noReset runs running))
  refine ⟨fun runs => ?init, fun code rel plain runs => ?send⟩
  case init =>
    have announced := Laws.settled_framed (wire s.cfg.scPowerdown false) (settled_traced (Laws.settled_framed
      (wire s.cfg.scPowerup false) (settled_idled (quiet runs))) .pri [.wait .pri 200000])
    rw [priWaits_of_alone rfl ⟨noReset, uncut⟩ runs running (kbInitAnnounces (quieted s) (quiet runs) legal)
      ((halted_initDone _).trans announced.halted)]
    exact (priWaits_initDone _).trans (priWaits_announced (quieted s))
  case send =>
    have alone := kbSendSendsOneFrame (quieted s) code rel (quiet runs) plain
    rw [priWaits_of_alone rfl ⟨noReset, uncut⟩ runs running alone (quiet runs).halted]
    exact priWaits_framed _ (quieted s)

end Sys2Proof.Proofs
end
